-- ==== Sys2Proof/Word.lean ====
section
/-! DEFINITION. The value types of the block and its fixed constants (spec/00_scope.md R9, R12).

The block has no machine word: every datum is one byte, one 10-bit raw frame, one 8-bit command word or one
line level, and counts are natural numbers. -/

namespace Sys2Proof

/-- An unsigned byte 0..255 (R12). -/
abbrev Byte := BitVec 8

/-- A raw frame, bit 0 first on the wire (R12, R81). -/
abbrev Frame := BitVec 10

/-- A command word `CMD[7:0]` (R88). -/
abbrev CmdWord := BitVec 8

/-- A line level; `false` is 0 and `true` is 1 (R12). -/
abbrev Level := Bool

/-- `STX`, the start-of-message marker (R9). -/
def stx : Byte := 0x02

/-- `ETX`, the end-of-message marker (R9). -/
def etx : Byte := 0x03

/-- The idle level of both pins is 0 (R9). -/
def idleLevel : Level := false

/-- The frame width in bit-periods (R9). -/
def frameBits : Nat := 10

/-- The width of the data field in bits (R9). -/
def dataBits : Nat := 8

/-- A byte is reserved when it is one of the two markers (R86). -/
def isMarker (b : Byte) : Bool := b == stx || b == etx

end Sys2Proof
end

