-- ==== Sys2Proof/Config.lean ====
section
/-! DEFINITION. The implementation parameters (spec/00_scope.md R8, R10) and the free values.

A parameter is fixed for the machine (R47). The parameters the spec marks OPEN are, in `Config.platform`, opaque
constants: nothing can be proved of their values beyond what R8 says (log entries 1 and 2). -/

namespace Sys2Proof

/-- `LINE_TOPOLOGY`: how two instances' pins are wired (R8, R237). -/
inductive LineTopology where
  /-- One wire per direction, the default (90_conflicts.md C1). -/
  | dedicated
  /-- One wire shared by both pins, the admitted alternative reading. -/
  | shared
  deriving DecidableEq, Repr

/-- The parameters of R8, with R8's value as the default where R8 gives one. -/
structure Config where
  /-- `RX_CAPACITY`, N: byte slots in the Receive Buffer. -/
  rxCapacity : Nat
  /-- `MAX_TRANSMIT_LEN`, M: most payload bytes one SEND emits. -/
  maxTransmitLen : Nat
  /-- `TICKS_PER_BIT`, P: ticks per bit-period, even and at least 2. -/
  ticksPerBit : Nat
  /-- `BIT_PERIOD`: the real duration of a bit-period, in a unit the spec leaves open; only R10 names it. -/
  bitPeriod : Nat
  /-- `TX_GAP_BITS`, G. -/
  txGapBits : Nat := 0
  /-- `RX_LATENCY_MAX`. -/
  rxLatencyMax : Nat := 0
  /-- `RX_STRETCH_MAX`. -/
  rxStretchMax : Nat := 0
  /-- `TX_STRETCH_MAX`. -/
  txStretchMax : Nat := 0
  /-- `TERMINATOR`. -/
  terminator : Byte := 0x00
  /-- `LINE_TOPOLOGY`. -/
  lineTopology : LineTopology := .dedicated
  /-- `RX_TIMEOUT_BITS`; `none` is the spec's `NONE`, the original design without a watchdog. -/
  rxTimeoutBits : Option Nat := none
  deriving DecidableEq, Repr

/-- The side conditions R8 and R157 put on the parameters: P is even and at least 2, and a watchdog length is
greater than 0. -/
abbrev Config.wf (c : Config) : Prop :=
  c.ticksPerBit % 2 = 0 ∧ 2 ≤ c.ticksPerBit ∧ c.rxTimeoutBits ≠ some 0

/-- `RX_CAPACITY` of the implementation at hand: OPEN in R8. -/
opaque Config.openRxCapacity : Nat

/-- `MAX_TRANSMIT_LEN` of the implementation at hand: OPEN in R8. -/
opaque Config.openMaxTransmitLen : Nat

/-- P is `2 * (openHalfBitTicks + 1)`: OPEN in R8, but for being even and at least 2. -/
opaque Config.openHalfBitTicks : Nat

/-- `BIT_PERIOD` of the implementation at hand: OPEN in R8. -/
opaque Config.openBitPeriod : Nat

/-- The implementation at hand: OPEN parameters are opaque, the others have R8's values. -/
def Config.platform : Config :=
  { rxCapacity := Config.openRxCapacity
    maxTransmitLen := Config.openMaxTransmitLen
    ticksPerBit := 2 * (Config.openHalfBitTicks + 1)
    bitPeriod := Config.openBitPeriod }

/-- The free values of the spec's `draw d in [a, b]` (R12): the n-th draw of an instance's run, before it is
brought into its range. Nothing constrains it (log entry 3). -/
opaque Config.freeDraw : (instanceId n : Nat) → Nat

/-- The free values of the slots of `BUF` that nothing has written: R67 says that they hold unspecified values
(93_implementation_defined.md: any value). One byte for each slot of an instance; nothing constrains it (log
entry 10). -/
opaque Config.freeSlot : (instanceId index : Nat) → Byte

end Sys2Proof
end

