-- ==== Sys2Proof/Syntax.lean ====
section
/-! DEFINITION. The operations of the block that have an encoding: one constructor for each row of
spec/opcode_table.json (spec/30_encoding.md R85, R88). -/

namespace Sys2Proof

/-- The seven consumer commands (R88) and the three received-frame classes (R85). -/
inductive Instr where
  /-- `INIT`, R151. -/
  | init
  /-- `SEND`, R130: its operand is the message, a finite list of bytes (R90). -/
  | send (msg : List Byte)
  /-- `IS_DATA_AVAILABLE`, R202. -/
  | isDataAvailable
  /-- `READ_AND_CLEAR`, R203. -/
  | readAndClear
  /-- `CLEAR`, R200. -/
  | clear
  /-- `DISABLE`, R152. -/
  | disable
  /-- `ENABLE`, R153. -/
  | enable
  /-- `FRAME_STX`: a start-of-message marker was received, R179. -/
  | frameStx
  /-- `FRAME_ETX`: an end-of-message marker was received, R180 and R181. -/
  | frameEtx
  /-- `FRAME_DATA`: any other byte was received, R182 and R183. -/
  | frameData (b : Byte)
  deriving DecidableEq, Repr

end Sys2Proof
end

