-- ==== Sys2Proof/WellFormed.lean ====
section
/-! DEFINITION. Which terms of `Instr` stand for an operation of the block. -/

namespace Sys2Proof

/-- The one check: a `FRAME_DATA` byte is no marker, since the marker rows come first in the decode order (R85).
A SEND may hold any bytes: reserved ones are marked, not refused (R86, R136). -/
def Instr.wellFormed : Instr → Bool
  | .frameData b => !isMarker b
  | .init => true
  | .send _ => true
  | .isDataAvailable => true
  | .readAndClear => true
  | .clear => true
  | .disable => true
  | .enable => true
  | .frameStx => true
  | .frameEtx => true

end Sys2Proof
end

