-- ==== Sys2Proof/Decode.lean ====
section
/-! DEFINITION. The two encoding domains of the block (spec/30_encoding.md): the 10-bit frame on the wire and the
8-bit command word; decoding, encoding, and the host's numbering of the opcode table's words. -/

namespace Sys2Proof

/-! ## The frame (R81 to R85, R110) -/

/-- ENCODE (R110): start bit 1 in bit 0, the byte in bits 8:1, stop bit 0 in bit 9 (R81, R82). -/
def encodeByte (b : Byte) : Frame := (0#1 ++ b) ++ 1#1

/-- What the Receiver reads of a frame: `raw[8:1]`, neither the start nor the stop bit (R84). -/
def frameByte (raw : Frame) : Byte := raw.extractLsb' 1 8

/-- The levels of a frame in time order, bit 0 first (R61, R83). -/
def wireBits (raw : Frame) : List Level :=
  (List.range frameBits).map fun j => raw.getLsbD j

/-- The class of a received byte, first match wins (R85, R178). -/
def classify (b : Byte) : Instr :=
  if b = stx then .frameStx else if b = etx then .frameEtx else .frameData b

/-! ## Decoding -/

/-- An encoded operation in its own domain: the two never mix (R80). A command carries its operand list beside the
command word, not packed into it (R90). -/
inductive Encoded where
  | command (cmd : CmdWord) (operand : List Byte)
  | frame (raw : Frame)
  deriving DecidableEq, Repr

/-- Why a word is no operation. -/
inductive DecodeError where
  /-- `ILLEGAL_COMMAND`: a command word outside 0x01 to 0x07 (R89). -/
  | illegalCommand (cmd : CmdWord)
  deriving DecidableEq, Repr

/-- Command decode (R88): the whole word selects the command, and only SEND takes the operand (R90; log entry 4). -/
def decodeCommand (cmd : CmdWord) (operand : List Byte) : Except DecodeError Instr :=
  if cmd = 0x01 then .ok .init
  else if cmd = 0x02 then .ok (.send operand)
  else if cmd = 0x03 then .ok .isDataAvailable
  else if cmd = 0x04 then .ok .readAndClear
  else if cmd = 0x05 then .ok .clear
  else if cmd = 0x06 then .ok .disable
  else if cmd = 0x07 then .ok .enable
  else .error (.illegalCommand cmd)

/-- Frame decode by the table's match and mask, in the decode order of R85. Every frame has a class. -/
def decodeFrame (raw : Frame) : Instr :=
  if raw &&& 0x1FE = 0x004 then .frameStx
  else if raw &&& 0x1FE = 0x006 then .frameEtx
  else .frameData (frameByte raw)

/-- Decoding, total on both domains. -/
def decode : Encoded → Except DecodeError Instr
  | .command cmd operand => decodeCommand cmd operand
  | .frame raw => .ok (decodeFrame raw)

/-! ## Encoding -/

/-- The words of an operation: a command word with its operand (R88), or the frame as sent (R85). -/
def encode : Instr → Encoded
  | .init => .command 0x01 []
  | .send msg => .command 0x02 msg
  | .isDataAvailable => .command 0x03 []
  | .readAndClear => .command 0x04 []
  | .clear => .command 0x05 []
  | .disable => .command 0x06 []
  | .enable => .command 0x07 []
  | .frameStx => .frame (encodeByte stx)
  | .frameEtx => .frame (encodeByte etx)
  | .frameData b => .frame (encodeByte b)

/-- The mnemonic of an operation, as R85 and R88 spell it. -/
def Instr.mnemonic : Instr → String
  | .init => "INIT"
  | .send _ => "SEND"
  | .isDataAvailable => "IS_DATA_AVAILABLE"
  | .readAndClear => "READ_AND_CLEAR"
  | .clear => "CLEAR"
  | .disable => "DISABLE"
  | .enable => "ENABLE"
  | .frameStx => "FRAME_STX"
  | .frameEtx => "FRAME_ETX"
  | .frameData _ => "FRAME_DATA"

/-! ## The opcode table's numbering of words -/

/-- Which domain a word of the opcode table belongs to: a command row's 8 bits are `CMD` with no operand bytes, and
every other table word is a `FRAME10` value with the bits above `nbits` zero (log entry 5: the table itself gives
its FRAME_DATA row no fixed bits, so a word of 8 bits that is in no command row is read as a frame). -/
def tableEncoding (nbits w : Nat) : Encoded :=
  if nbits ≤ 8 ∧ 1 ≤ w % 256 ∧ w % 256 ≤ 7 then .command (BitVec.ofNat 8 w) []
  else .frame (BitVec.ofNat 10 (w % 2 ^ nbits))

/-- The operation the decoder reads from a word of the opcode table, `none` where it refuses. -/
def decodeTableWord (nbits w : Nat) : Option Instr :=
  match decode (tableEncoding nbits w) with
  | .ok i => some i
  | .error _ => none

end Sys2Proof
end

