-- ==== Sys2Proof/Machine/State.lean ====
section
/-! DEFINITION. The state of one instance of the block (spec/10_state.md R23: S0 to S16), its environment, and the
state after reset (R46, R250). -/

namespace Sys2Proof.Machine

/-! ## The types of the state elements -/

/-- The values of `LINK` (R24). -/
inductive Link where
  | idle
  | rxInProgress
  | txInProgress
  | disabled
  deriving DecidableEq, Repr

/-- What a pin or wire carries: nothing drives it, or a push-pull driver holds a level (R35, R237). -/
inductive Drive where
  | undriven
  | driven (v : Level)
  deriving DecidableEq, Repr

/-- The kinds of the model faults, each with the command word it records (R222). -/
inductive FaultKind where
  /-- `ILLEGAL_COMMAND`: a command word that R88 does not list. -/
  | illegalCommand (cmd : CmdWord)
  /-- `UNINIT`: a command other than INIT while `INIT_DONE` = 0. -/
  | uninit (cmd : CmdWord)
  deriving DecidableEq, Repr

/-- The closed set of events (R221). -/
inductive Event where
  /-- `EV_OVERFLOW(b)`, R204. -/
  | overflow (b : Byte)
  /-- `EV_DROP(b)`, R181 and R183. -/
  | drop (b : Byte)
  /-- `EV_ETX_LOST`, R180. -/
  | etxLost
  /-- `EV_MSG_READY(n)`, R180: the payload length. -/
  | msgReady (n : Nat)
  /-- `EV_TX_REJECTED(link)`, R131. -/
  | txRejected (link : Link)
  /-- `EV_TX_DONE(F)`, R134: the frame count. -/
  | txDone (frames : Nat)
  /-- `EV_BAIL(link)`, R173. -/
  | bail (link : Link)
  /-- `EV_RX_TIMEOUT`, R157. -/
  | rxTimeout
  deriving DecidableEq, Repr

/-- An entry of `TRACE`: the event with its tick and its instance (R221). -/
structure TraceEntry where
  tick : Nat
  instId : Nat
  event : Event
  deriving DecidableEq, Repr

/-- What a consumer command returns (R90). -/
inductive Result where
  /-- The one bit of IS_DATA_AVAILABLE. -/
  | bit (b : Bool)
  /-- The list of bytes of READ_AND_CLEAR. -/
  | bytes (l : List Byte)
  deriving DecidableEq, Repr

/-- What the consumer does next. The command word is raw: decoding it is the block's (R224). -/
inductive ConsumerAction where
  /-- The consumer issues nothing for one tick (`WAIT 1`, R92). -/
  | idle
  /-- The consumer issues a command word with the operand beside it (R90). -/
  | issue (cmd : CmdWord) (operand : List Byte)
  deriving DecidableEq, Repr

/-- The model's own record of what lies outside the instance and feeds it: the tick, the instance's number in a
system, the consumer's commands still to come, the levels of the RX line in the ticks to come, and the draws
(log entries 3 and 6). None of it is an element of R23. -/
@[ext]
structure Env where
  /-- The number of the tick that runs next (R7). -/
  tick : Nat
  /-- The instance's number, with which its trace entries and its draws are labelled (R221). -/
  instId : Nat
  /-- The commands the consumer has still to issue, next first (R20, R92). -/
  consumer : List ConsumerAction
  /-- What the RX line carries in the coming ticks, next first (R35, R92). -/
  rxSchedule : List Drive
  /-- What the RX line carries once `rxSchedule` is used up. -/
  rxRest : Drive
  /-- Draws supplied to the run, next first (R12: a draw is a free input of the step). -/
  draws : List Nat
  /-- How many draws have been taken from the free values `Config.freeDraw`. -/
  drawCount : Nat
  deriving DecidableEq, Repr

/-! ## The outcomes that are no next state -/

/-- Why the machine stops. The block itself never stops: its own faults (R222) are the state element `FAULTED`. -/
inductive Fault where
  /-- Raised by READ_AND_CLEAR (R203) on a slot index outside `0..N-1`, which does not exist (R60). Safe: it takes a
  `CURSOR` above N, which R44 rules out after INIT. -/
  | noSuchSlot (index : Nat)
  deriving DecidableEq, Repr

/-- Why the model gives an instruction no meaning. -/
inductive Refusal where
  /-- Raised by `exec` for an instruction without a meaning, by its mnemonic. Safe: nothing is claimed of it. -/
  | notModelled (mnemonic : String)
  deriving DecidableEq, Repr

end Sys2Proof.Machine

namespace Sys2Proof.Machine

/-! ## The state -/

/-- The complete state of one instance: the elements S0 to S16 of R23, then the model's own fields. -/
@[ext]
structure State where
  /-- S0 `LINK` (R24). -/
  link : Link
  /-- S1 `START_SEEN` (R25). -/
  startSeen : Bool
  /-- S2 `DATA_AVAIL` (R26). -/
  dataAvail : Bool
  /-- S3 `OVF` (R27). -/
  ovf : Bool
  /-- S4 `EDGE_PEND` (R28). -/
  edgePend : Bool
  /-- S5 `EDGE_IE` (R29). -/
  edgeIE : Bool
  /-- S6 `INIT_DONE` (R30). -/
  initDone : Bool
  /-- S7 `CURSOR`, 0..N (R31). -/
  cursor : Nat
  /-- S8 `BUF`, the written slots by index (R32, R60); every other slot holds a free value (`slotValue`). -/
  buf : List Host.Cell
  /-- S9 `RX_ACTIVE` (R33). -/
  rxActive : Bool
  /-- S9 `RX_ACC` (R33). -/
  rxAcc : Byte
  /-- S9 `RX_BIT`, 0..8 (R33). -/
  rxBit : Nat
  /-- S9 `RX_TIMER` (R33, R11). -/
  rxTimer : Nat
  /-- S9 `RX_WAITED` (R33). -/
  rxWaited : Nat
  /-- S10 `TX_ACTIVE` (R34). -/
  txActive : Bool
  /-- S10 `TX_FRAMES`, head first (R34). -/
  txFrames : List Frame
  /-- S10 `TX_BIT`, 0..9 (R34). -/
  txBit : Nat
  /-- S10 `TX_TIMER` (R34, R11). -/
  txTimer : Nat
  /-- S10 `TX_GAP` (R34). R23's table types it a counter, R34 and R133 use only 0 and 1; that it is one bit here is the
  model's choice (log entry 21, DESIGN CHOICE). -/
  txGap : Bool
  /-- S11 `TX_PIN` (R35). -/
  txPin : Drive
  /-- S12 `RX_PIN` of the latest tick (R35). -/
  rxPin : Level
  /-- S12 `RX_PREV` (R35). -/
  rxPrev : Level
  /-- S13 `INVALID_INPUT`, sticky (R36). -/
  invalidInput : Bool
  /-- S14 `FAULTED` (R36). -/
  faulted : Option FaultKind
  /-- S15 `RX_IDLE_TICKS`, used only with a watchdog (R37). -/
  rxIdleTicks : Nat
  /-- S16 `TRACE`, oldest first (R38). -/
  trace : List TraceEntry
  /-- The model's own: F of the SEND in flight, which `EV_TX_DONE(F)` names (R134; log entry 7). -/
  txTotal : Nat
  /-- The model's own: what commands have returned to the consumer, oldest first (R88; log entry 8). -/
  results : List Result
  /-- The model's own: the configuration, which no operation changes (R47; log entry 1). -/
  cfg : Config
  /-- The model's own: what lies outside the instance. -/
  env : Env
  deriving DecidableEq, Repr

/-- The surroundings in which an instance is powered up: tick 0, an idle consumer, and an RX line that nothing
drives. -/
def Env.fresh (instId : Nat) : Env :=
  { tick := 0, instId := instId, consumer := [], rxSchedule := [], rxRest := .undriven, draws := [], drawCount := 0 }

/-- An instance after a hardware reset (R46, R250), for any configuration and surroundings. The elements R46 calls
unspecified hold zero here (log entry 9). -/
def State.powerOn (c : Config) (e : Env) : State :=
  { link := .idle
    startSeen := false
    dataAvail := false
    ovf := false
    edgePend := false
    edgeIE := false
    initDone := false
    cursor := 0
    buf := []
    rxActive := false
    rxAcc := 0
    rxBit := 0
    rxTimer := 0
    rxWaited := 0
    txActive := false
    txFrames := []
    txBit := 0
    txTimer := 0
    txGap := false
    txPin := .undriven
    rxPin := false
    rxPrev := false
    invalidInput := false
    faulted := none
    rxIdleTicks := 0
    trace := []
    txTotal := 0
    results := []
    cfg := c
    env := e }

/-- The machine right after reset. -/
def State.reset : State := State.powerOn Config.platform (Env.fresh 0)

end Sys2Proof.Machine
end

