-- ==== Sys2Proof/Machine/Ops.lean ====
section
/-! DEFINITION. The named operations the meanings and the engines share: outcomes, draws, events, the Receive
Buffer, the faulted condition, the hold, and the entry and return of the receive handler. -/

namespace Sys2Proof.Machine

/-- The outcome of a step of this machine. -/
abbrev Out := Host.Outcome State Fault Refusal

/-- One phase after another: the next phase runs on the state the first answers. -/
def andThen (o : Out) (f : State → Out) : Out :=
  match o with
  | .next s => f s
  | .fault r => .fault r
  | .refused r => .refused r

/-! ## Events and draws -/

/-- `emit EV_X(args)`: the event with the current tick and the instance, appended to `TRACE` (R12, R221). -/
def emit (e : Event) (s : State) : State :=
  { s with trace := s.trace ++ [{ tick := s.env.tick, instId := s.env.instId, event := e }] }

/-- The value of `draw d in [0, bound]` (R12): 0 where the range holds nothing else, else the next supplied draw, else
a free value; brought into the range (log entry 3). -/
def drawValue (bound : Nat) (e : Env) : Nat :=
  if bound = 0 then 0
  else match e.draws with
    | d :: _ => min d bound
    | [] => Config.freeDraw e.instId e.drawCount % (bound + 1)

/-- The supply of draws after that draw: one is used up, unless the range left no choice. -/
def drawEnv (bound : Nat) (e : Env) : Env :=
  if bound = 0 then e
  else match e.draws with
    | _ :: rest => { e with draws := rest }
    | [] => { e with drawCount := e.drawCount + 1 }

/-! ## The Receive Buffer: `MemRead`, `MemWrite`, TRY_PUSH, CLEAR_BUFFER, REPORT_OVERFLOW -/

/-- The byte last written to a slot, `none` where nothing has been written. -/
def slotRead : List Host.Cell → Nat → Option Byte
  | [], _ => none
  | (a, b) :: m, i => if a = i then some b else slotRead m i

/-- `BUF[i] <- v`, keeping the list's addresses strictly rising. -/
def slotWrite : List Host.Cell → Nat → Byte → List Host.Cell
  | [], i, v => [(i, v)]
  | (a, b) :: m, i, v =>
    if i < a then (i, v) :: (a, b) :: m
    else if i = a then (i, v) :: m
    else (a, b) :: slotWrite m i v

/-- The canonical form of the buffer's memory: addresses strictly rising. A listed slot is a written one, so no entry
says what an unlisted slot says (log entry 10). -/
def Memory.wf : List Host.Cell → Bool
  | [] => true
  | [_] => true
  | (a, _) :: (b, v) :: m => decide (a < b) && Memory.wf ((b, v) :: m)

/-- What a slot holds (R32, R67): the byte last written to it, and a free value where nothing has written it. -/
def slotValue (s : State) (i : Nat) : Byte :=
  match slotRead s.buf i with
  | some b => b
  | none => Config.freeSlot s.env.instId i

/-- `MemRead(i, 1)` (R12, R60): what the slot holds, and a fault outside `0..N-1`, where there is no slot. -/
def memRead (s : State) (i : Nat) : Except Fault Byte :=
  if i < s.cfg.rxCapacity then .ok (slotValue s i) else .error (.noSuchSlot i)

/-- `[MemRead(0, 1), ..., MemRead(k - 1, 1)]` (R203), in index order (R62). -/
def memReadList (s : State) : Nat → Except Fault (List Byte)
  | 0 => .ok []
  | k + 1 =>
    match memReadList s k with
    | .error r => .error r
    | .ok l =>
      match memRead s k with
      | .error r => .error r
      | .ok b => .ok (l ++ [b])

/-- The result bit of TRY_PUSH (R201): a push succeeds while `CURSOR < N`. -/
def pushFits (s : State) : Bool := decide (s.cursor < s.cfg.rxCapacity)

/-- TRY_PUSH (R201): store the byte at `CURSOR` and advance it, or write nothing when the buffer is full. -/
def tryPush (b : Byte) (s : State) : State :=
  if pushFits s then { s with buf := slotWrite s.buf s.cursor b, cursor := s.cursor + 1 } else s

/-- CLEAR_BUFFER (R200): the slots are not overwritten. -/
def clearBuffer (s : State) : State := { s with cursor := 0, dataAvail := false, ovf := false }

/-- REPORT_OVERFLOW (R204). -/
def reportOverflow (b : Byte) (s : State) : State := emit (.overflow b) { s with ovf := true }

/-! ## The faulted condition and the hold -/

/-- `raise Fault(kind)` (R223): the first fault is kept. This is all the machine does on a fault: there is no vector,
nothing is saved, and there is no return but the hardware reset. -/
def raiseFault (k : FaultKind) (s : State) : State :=
  if s.faulted = none then { s with faulted := some k } else s

/-- `FAULTED` is not `none`: no agent changes any state (R223). -/
def isFaulted (s : State) : Bool := s.faulted.isSome

/-- The command word of an operation and the operand beside it, as a consumer issues it; no consumer issues a frame. -/
def asIssued (i : Instr) : List ConsumerAction :=
  match encode i with
  | .command cmd operand => [.issue cmd operand]
  | .frame _ => []

/-- `hold` (R12, R228): the command is not performed, and the consumer issues it again in its next tick. -/
def hold (i : Instr) (s : State) : State :=
  { s with env := { s.env with consumer := asIssued i ++ s.env.consumer } }

/-- The command word that a fault records (R222). -/
def commandWord (i : Instr) : CmdWord :=
  match encode i with
  | .command cmd _ => cmd
  | .frame _ => 0

/-- The checks of R224 for a command other than INIT, in their order: faulted, uninitialised, hold, then the command's
own rule. (The decode check comes before an operation exists: `consumerStep`.) -/
def commandGate (i : Instr) (run : State → Out) (s : State) : Out :=
  if isFaulted s then .next s
  else if s.initDone = false then .next (raiseFault (.uninit (commandWord i)) s)
  else if s.rxActive then .next (hold i s)
  else run s

/-- The same for INIT, the one command accepted before INIT (R151, R224). -/
def initGate (i : Instr) (run : State → Out) (s : State) : Out :=
  if isFaulted s then .next s
  else if s.rxActive then .next (hold i s)
  else run s

/-- What a command hands back to its consumer (R88). -/
def giveResult (r : Result) (s : State) : State := { s with results := s.results ++ [r] }

/-! ## The receive handler's entry and return (R230, R231) -/

/-- Whether an activation bails: `LINK` is `TX_IN_PROGRESS` or `DISABLED` (R173). -/
def mustBail (s : State) : Bool := s.link = .txInProgress || s.link = .disabled

/-- ACTIVATE, bail case (R173): the flag is cleared and nothing else changes. -/
def handlerBail (s : State) : State := emit (.bail s.link) { s with edgePend := false }

/-- ACTIVATE, start case (R174): the first wait is 1.5 bit-periods and a stretch. -/
def handlerStart (s : State) : State :=
  { s with
    edgePend := false
    rxActive := true
    rxAcc := 0x00
    rxBit := 0
    rxTimer := 3 * s.cfg.ticksPerBit / 2 + drawValue s.cfg.rxStretchMax s.env
    env := drawEnv s.cfg.rxStretchMax s.env }

/-- ACTIVATE (R173, R174): taking the one interrupt of the block. No program counter or status is saved (R230). -/
def handlerEntry (s : State) : State := if mustBail s then handlerBail s else handlerStart s

/-- The return of a receive that did not bail (R176, R231): the flag is cleared again and the engine is idle. Nothing
is restored. -/
def handlerReturn (s : State) : State := { s with edgePend := false, rxActive := false }

end Sys2Proof.Machine
end

