-- ==== Sys2Proof/Machine/Buffer.lean ====
section
/-! DEFINITION. The consumer commands on the Receive Buffer (spec/44_receive_buffer.md): CLEAR, IS_DATA_AVAILABLE and
READ_AND_CLEAR. -/

namespace Sys2Proof.Machine

/-- CLEAR (R200). -/
def execClear (s : State) : Out := commandGate .clear (fun s => .next (clearBuffer s)) s

/-- IS_DATA_AVAILABLE (R202): writes nothing and returns `DATA_AVAIL`. -/
def execIsDataAvailable (s : State) : Out :=
  commandGate .isDataAvailable (fun s => .next (giveResult (.bit s.dataAvail) s)) s

/-- How many bytes READ_AND_CLEAR returns (R203): the terminator is dropped. -/
def payloadLength (s : State) : Nat := if s.dataAvail then s.cursor - 1 else s.cursor

/-- READ_AND_CLEAR once its checks are passed (R203). -/
def runReadAndClear (s : State) : Out :=
  match memReadList s (payloadLength s) with
  | .ok l => .next (giveResult (.bytes l) (clearBuffer s))
  | .error r => .fault r

/-- READ_AND_CLEAR (R203). -/
def execReadAndClear (s : State) : Out := commandGate .readAndClear runReadAndClear s

end Sys2Proof.Machine
end

