-- ==== Sys2Proof/Machine/LinkState.lean ====
section
/-! DEFINITION. The Link State arbiter (spec/42_link_state.md): INIT, DISABLE, ENABLE and the optional watchdog. -/

namespace Sys2Proof.Machine

/-- INIT once its checks are passed (R151). -/
def runInit (s : State) : Out :=
  .next
    { s with
      initDone := true
      edgeIE := true
      edgePend := false
      rxWaited := 0
      link := .idle
      startSeen := false
      cursor := 0
      dataAvail := false
      ovf := false
      rxActive := false
      txActive := false
      txFrames := []
      rxIdleTicks := 0 }

/-- INIT (R151, R254). -/
def execInit (s : State) : Out := initGate .init runInit s

/-- DISABLE (R152): a partial receive is abandoned; the buffer is not touched. -/
def execDisable (s : State) : Out :=
  commandGate .disable (fun s => .next { s with link := .disabled, startSeen := false }) s

/-- ENABLE (R153): the exit from `DISABLED`, without effect in any other state. -/
def execEnable (s : State) : Out :=
  commandGate .enable (fun s => .next { s with link := if s.link = .disabled then .idle else s.link }) s

/-- WATCHDOG for a length of `k` bit-periods (R157). -/
def watchdogStep (k : Nat) (s : State) : State :=
  if s.link = .rxInProgress ∧ s.rxActive = false then
    if k * s.cfg.ticksPerBit ≤ s.rxIdleTicks + 1 then
      emit .rxTimeout { s with link := .idle, startSeen := false, rxIdleTicks := 0 }
    else { s with rxIdleTicks := s.rxIdleTicks + 1 }
  else { s with rxIdleTicks := 0 }

/-- Phase 7: only with a watchdog, after INIT, and unless faulted (R157). -/
def watchdogPhase (s : State) : State :=
  match s.cfg.rxTimeoutBits with
  | none => s
  | some k => if isFaulted s || !s.initDone then s else watchdogStep k s

end Sys2Proof.Machine
end

