-- ==== Sys2Proof/Machine/Receiver.lean ====
section
/-! DEFINITION. The Receiver (spec/43_receiver.md): the edge detector, the waits and samples of the RX engine, and the
meaning of each received-frame class. -/

namespace Sys2Proof.Machine

/-! ## The received-frame classes (R178 to R183) -/

/-- Every rule begins with this check: a faulted instance changes nothing (R223). -/
def receiveGate (run : State → State) (s : State) : Out := if isFaulted s then .next s else .next (run s)

/-- RX_STX (R179): a start marker clears the buffer and starts, or restarts, a message. -/
def rxStx (s : State) : State := { clearBuffer s with link := .rxInProgress, startSeen := true }

/-- The end of a message, whether or not its terminator was stored (R180). -/
def endMessage (s : State) : State := { s with startSeen := false, link := .idle }

/-- RX_ETX (R180): push the terminator; `DATA_AVAIL` only when it was stored. -/
def rxEtx (s : State) : State :=
  let s1 := tryPush s.cfg.terminator s
  if pushFits s then endMessage (emit (.msgReady (s1.cursor - 1)) { s1 with dataAvail := true })
  else endMessage (emit .etxLost s1)

/-- RX_DATA (R182): store the byte, or drop it with an overflow report. -/
def rxData (b : Byte) (s : State) : State :=
  if pushFits s then tryPush b s else reportOverflow b (tryPush b s)

/-- RX_DROP and RX_ETX_DROP (R181, R183): no state changes but the trace. -/
def rxDrop (b : Byte) (s : State) : State := emit (.drop b) s

/-- FRAME_STX: RX_STX (R179). -/
def execFrameStx (s : State) : Out := receiveGate rxStx s

/-- FRAME_ETX: RX_ETX with `START_SEEN` = 1 (R180), else RX_ETX_DROP (R181). -/
def execFrameEtx (s : State) : Out :=
  receiveGate (fun s => if s.startSeen then rxEtx s else rxDrop etx s) s

/-- FRAME_DATA: RX_DATA with `START_SEEN` = 1 (R182), else RX_DROP (R183). -/
def execFrameData (b : Byte) (s : State) : Out :=
  receiveGate (fun s => if s.startSeen then rxData b s else rxDrop b s) s

/-! ## The edge detector and the waits of the RX engine -/

/-- EDGE_DETECT, phase 3 (R170): `RX_PREV` follows the pin whether or not `EDGE_IE` is 1. -/
def edgeDetect (s : State) : State :=
  if isFaulted s then s
  else
    { s with
      edgePend := s.edgePend || (s.edgeIE && !s.rxPrev && s.rxPin)
      rxPrev := s.rxPin }

/-- Whether the RX engine takes the pending edge in this tick (R172): it may wait while `RX_WAITED` is below
`RX_LATENCY_MAX`, by a draw in 0..1, and must activate after that. -/
def takesEdge (s : State) : Bool :=
  if s.rxWaited < s.cfg.rxLatencyMax then drawValue 1 s.env = 1 else true

/-- The state after that choice was drawn. -/
def afterEdgeDraw (s : State) : State :=
  if s.rxWaited < s.cfg.rxLatencyMax then { s with env := drawEnv 1 s.env } else s

/-- RX_WAIT_OR_ACTIVATE (R172). -/
def waitOrActivate (s : State) : State :=
  if takesEdge s then handlerEntry { afterEdgeDraw s with rxWaited := 0 }
  else { afterEdgeDraw s with rxWaited := s.rxWaited + 1 }

/-- `RX_ACC[k] <- v` (R115, R175): bit `k` of the byte under reconstruction, the others unchanged. -/
def putBit (acc : Byte) (k : Nat) (v : Level) : Byte :=
  if v then acc ||| (1#8 <<< k) else acc &&& ~~~(1#8 <<< k)

/-- One sample (R175): the pin's level as it is (R35), then a wait of one bit-period and a stretch. -/
def takeSample (s : State) : State :=
  { s with
    rxAcc := putBit s.rxAcc s.rxBit s.rxPin
    rxBit := s.rxBit + 1
    rxTimer := s.cfg.ticksPerBit + drawValue s.cfg.rxStretchMax s.env
    env := drawEnv s.cfg.rxStretchMax s.env }

end Sys2Proof.Machine
end

