-- ==== Sys2Proof/Machine/Operands.lean ====
section
/-! DEFINITION. The one operand of the block, SEND's message, and what SEND makes of it (spec/41_transmitter.md
R132, R135, R136). -/

namespace Sys2Proof.Machine

/-- `body` (R130, R135): the first M bytes of the message; the rest is dropped without a word. -/
def sendBody (c : Config) (msg : List Byte) : List Byte := msg.take (min msg.length c.maxTransmitLen)

/-- The frame list (R132): the start marker, one frame per byte of the body, the end marker. -/
def sendFrames (c : Config) (msg : List Byte) : List Frame :=
  [encodeByte stx] ++ (sendBody c msg).map encodeByte ++ [encodeByte etx]

/-- Some byte of the message, before truncation, is reserved (R136). -/
def holdsMarker (msg : List Byte) : Bool := msg.any isMarker

end Sys2Proof.Machine
end

