-- ==== Sys2Proof/Machine/Transmitter.lean ====
section
/-! DEFINITION. The Transmitter (spec/41_transmitter.md): SEND and the TX engine. -/

namespace Sys2Proof.Machine

/-! ## SEND -/

/-- SEND is rejected while the link receives or transmits (R131). -/
def sendRejected (s : State) : Bool := s.link = .rxInProgress || s.link = .txInProgress

/-- The sticky mark of R136: set, never cleared, when the message holds a reserved byte. -/
def markInput (msg : List Byte) (s : State) : State :=
  { s with invalidInput := s.invalidInput || holdsMarker msg }

/-- Start holding a bit: `draw d in [0, TX_STRETCH_MAX]; TX_TIMER <- P + d` (R112, R133). -/
def armTxTimer (s : State) : State :=
  { s with
    txTimer := s.cfg.ticksPerBit + drawValue s.cfg.txStretchMax s.env
    env := drawEnv s.cfg.txStretchMax s.env }

/-- An admitted SEND (R130): the frames are queued, `DISABLED` stays (R140), and bit 0 is armed. -/
def admitSend (msg : List Byte) (s : State) : State :=
  let frames := sendFrames s.cfg msg
  armTxTimer
    { markInput msg s with
      txFrames := frames
      txTotal := frames.length
      link := if s.link = .idle then .txInProgress else s.link
      txActive := true
      txBit := 0
      txGap := false }

/-- SEND once the checks of R224 are passed. -/
def runSend (msg : List Byte) (s : State) : Out :=
  if sendRejected s then .next (emit (.txRejected s.link) s) else .next (admitSend msg s)

/-- SEND (R130). -/
def execSend (msg : List Byte) (s : State) : Out := commandGate (.send msg) (runSend msg) s

/-! ## The TX engine -/

/-- Phase 1, the level of `TX_PIN(t)` (R133 part (a)): not driven before INIT, the current bit of the head frame during
a frame, and the idle level else. -/
def txDrive (s : State) : Drive :=
  if s.initDone = false then .undriven
  else if s.txActive && !s.txGap then
    match s.txFrames with
    | f :: _ => .driven (f.getLsbD s.txBit)
    | [] => .driven idleLevel
  else .driven idleLevel

/-- Phase 1 of a tick; a faulted instance keeps the last driven level (R223). -/
def drivePhase (s : State) : State := if isFaulted s then s else { s with txPin := txDrive s }

/-- TX_COMPLETE (R134): `LINK` returns to `IDLE`, but a `DISABLED` link stays. -/
def txComplete (s : State) : State :=
  emit (.txDone s.txTotal)
    { s with txActive := false, link := if s.link = .txInProgress then .idle else s.link }

/-- The stop bit of the head frame has ended (R114, R133): the frame is dropped, and the next one, a gap or the
completion follows. -/
def txFrameEnd (s : State) : State :=
  let rest := s.txFrames.tail
  if rest = [] then txComplete { s with txFrames := rest }
  else if 0 < s.cfg.txGapBits then
    { s with txFrames := rest, txGap := true, txTimer := s.cfg.txGapBits * s.cfg.ticksPerBit }
  else armTxTimer { s with txFrames := rest, txBit := 0 }

/-- TX_STEP (R133 part (b)). -/
def txStep (s : State) : State :=
  let s1 := { s with txTimer := s.txTimer - 1 }
  if s1.txTimer = 0 then
    if s1.txGap then armTxTimer { s1 with txGap := false, txBit := 0 }
    else if s1.txBit < 9 then armTxTimer { s1 with txBit := s1.txBit + 1 }
    else txFrameEnd s1
  else s1

/-- Phase 6: TX_STEP in every tick that began its consumer phase with `TX_ACTIVE` = 1, so not in the tick in which a
SEND is admitted (R133). -/
def txPhase (wasActive : Bool) (s : State) : State :=
  if isFaulted s then s else if wasActive && s.txActive then txStep s else s

end Sys2Proof.Machine
end

