-- ==== Sys2Proof/Machine/Dispatch.lean ====
section
/-! DEFINITION. The meaning of every row of spec/opcode_table.json. -/

namespace Sys2Proof.Machine

def exec (i : Instr) (s : State) : Host.Outcome State Fault Refusal :=
  match i with
  | .init => Sys2Proof.Machine.execInit s
  | .send msg => Sys2Proof.Machine.execSend msg s
  | .isDataAvailable => Sys2Proof.Machine.execIsDataAvailable s
  | .readAndClear => Sys2Proof.Machine.execReadAndClear s
  | .clear => Sys2Proof.Machine.execClear s
  | .disable => Sys2Proof.Machine.execDisable s
  | .enable => Sys2Proof.Machine.execEnable s
  | .frameStx => Sys2Proof.Machine.execFrameStx s
  | .frameEtx => Sys2Proof.Machine.execFrameEtx s
  | .frameData b => Sys2Proof.Machine.execFrameData b s

end Sys2Proof.Machine
end

