-- ==== Sys2Proof/Machine/Engine.lean ====
section
/-! DEFINITION. One tick of an instance, phase by phase (spec/20_memory.md R70): the line, the RX engine with its
completion, the consumer, and the order of the phases; and where an instruction is placed so that the next tick runs
it. -/

namespace Sys2Proof.Machine

/-! ## Phase 2: the line -/

/-- Set `RX_PIN(t)` from what the line carries: a level, or a draw in 0..1 where nothing drives it (R35, R237). -/
def setLine (d : Drive) (s : State) : State :=
  match d with
  | .driven v => { s with rxPin := v }
  | .undriven => { s with rxPin := decide (drawValue 1 s.env = 1), env := drawEnv 1 s.env }

/-- What the surroundings put on the line of an instance modelled alone (R237, third case). -/
def lineDrive (s : State) : Drive := s.env.rxSchedule.headD s.env.rxRest

/-- Phase 2 of an instance modelled alone: the schedule moves on by one tick. -/
def linePhase (s : State) : State :=
  setLine (lineDrive s) { s with env := { s.env with rxSchedule := s.env.rxSchedule.tail } }

/-! ## Phase 4: the RX engine -/

/-- RX_COMPLETE (R176): the handler returns, then the byte is classified (R178) and its class runs. -/
def rxComplete (s : State) : Out := exec (classify s.rxAcc) (handlerReturn s)

/-- RX_STEP (R175). -/
def rxStep (s : State) : Out :=
  let s1 := { s with rxTimer := s.rxTimer - 1 }
  if s1.rxTimer = 0 then
    if s1.rxBit < 8 then .next (takeSample s1) else rxComplete s1
  else .next s1

/-- Phase 4: a receive under way goes on (R175), else a pending edge waits or activates the engine (R172). -/
def rxPhase (s : State) : Out :=
  if isFaulted s then .next s
  else if s.rxActive then rxStep s
  else if s.edgePend && s.initDone then .next (waitOrActivate s)
  else .next s

/-! ## Phase 5: the consumer -/

/-- A command word reaches the block: decode, then the command (R224). An illegal word raises `ILLEGAL_COMMAND` and
changes nothing else (R89). -/
def issueCommand (cmd : CmdWord) (operand : List Byte) (s : State) : Out :=
  match decode (.command cmd operand) with
  | .ok i => exec i s
  | .error (.illegalCommand w) => .next (raiseFault (.illegalCommand w) s)

/-- The consumer moves on to its next action. -/
def popConsumer (s : State) : State := { s with env := { s.env with consumer := s.env.consumer.tail } }

/-- Phase 5: at most one command, and none while the consumer is blocked by its own SEND (R70, R137). -/
def consumerPhase (s : State) : Out :=
  if s.txActive then .next s
  else
    match s.env.consumer with
    | [] => .next s
    | .idle :: _ => .next (popConsumer s)
    | .issue cmd operand :: _ => issueCommand cmd operand (popConsumer s)

/-! ## The tick -/

/-- The tick is over. -/
def endTick (s : State) : State := { s with env := { s.env with tick := s.env.tick + 1 } }

/-- Phases 6 and 7 and the end of the tick, `wasActive` being `TX_ACTIVE` before phase 5. -/
def afterConsumer (wasActive : Bool) (s : State) : State := endTick (watchdogPhase (txPhase wasActive s))

/-- Phases 3 to 7, once the line has its level. -/
def afterLine (s : State) : Out :=
  andThen (rxPhase (edgeDetect s)) fun s4 =>
    andThen (consumerPhase s4) fun s5 => .next (afterConsumer s4.txActive s5)

/-- One tick of an instance modelled alone (R70). -/
def runTick (s : State) : Out := afterLine (linePhase (drivePhase s))

/-! ## The transaction-level reading -/

/-- `RX_FRAME(b)` (R189): a whole frame as one event. It is classified when the link accepts it, and does nothing in
`TX_IN_PROGRESS` or `DISABLED`, before INIT, or in the faulted condition. -/
def rxFrame (b : Byte) (s : State) : Out :=
  if isFaulted s || !s.initDone || mustBail s then .next s else exec (classify b) s

/-- Whole frames one after the other, as R189 reads them. -/
def rxFrames (l : List Byte) (s : State) : Out := l.foldl (fun o b => andThen o (rxFrame b)) (.next s)

/-! ## Placing an instruction -/

/-- The consumer issues this command in the next tick, and no edge, receive or SEND is in its way. -/
def placeCommand (cmd : CmdWord) (operand : List Byte) (s : State) : State :=
  { s with
    edgePend := false
    rxActive := false
    txActive := false
    env := { s.env with consumer := [.issue cmd operand], rxSchedule := [.driven false] } }

/-- The RX engine completes with this frame's data byte in the next tick, while the line carries its stop bit, and the
consumer issues nothing in it. -/
def placeFrame (raw : Frame) (s : State) : State :=
  { s with
    rxActive := true
    rxAcc := frameByte raw
    rxBit := 8
    rxTimer := 1
    txActive := false
    env := { s.env with consumer := [], rxSchedule := [.driven (raw.getLsbD 9)] } }

/-- An encoded operation in the place where the next tick takes it up. -/
def placeEncoded (e : Encoded) (s : State) : State :=
  match e with
  | .command cmd operand => placeCommand cmd operand s
  | .frame raw => placeFrame raw s

end Sys2Proof.Machine
end

