-- ==== Sys2Proof/Machine/Step.lean ====
section
/-! DEFINITION. The step of the machine, one tick of one instance (spec/20_memory.md R70), and where the host places
an instruction. -/

namespace Sys2Proof.Machine

/-- One step is one tick (R7, R70). -/
def step (s : State) : Host.Outcome State Fault Refusal := runTick s

/-- The state whose next tick runs the operation that the table's word `w` stands for (log entry 5). -/
def State.withFetchWord (s : State) (nbits w : Nat) : State := placeEncoded (tableEncoding nbits w) s

end Sys2Proof.Machine
end

