-- ==== Sys2Proof/Machine/Bench.lean ====
section
/-! DEFINITION. The test bench's directives (spec/30_encoding.md R92, R93): they are no operations of the block, and
drive what lies outside an instance. -/

namespace Sys2Proof.Machine

/-- The environment directives of R92 and the pseudo-instructions of R93. -/
inductive Directive where
  /-- `WAIT n`. -/
  | wait (n : Nat)
  /-- `RXFRAME b`. -/
  | rxFrame (b : Byte)
  /-- `RXLEVEL v n`. -/
  | rxLevel (v : Level) (n : Nat)
  /-- `RXGAP n`. -/
  | rxGap (n : Nat)
  /-- `RXMSG [b0, ...]`. -/
  | rxMsg (l : List Byte)
  /-- `RXBYTE b`. -/
  | rxByte (b : Byte)
  deriving DecidableEq, Repr

/-- One level held for `n` ticks. -/
def holdLevel (v : Level) (n : Nat) : List Drive := List.replicate n (.driven v)

/-- A frame on the line, bit 0 first, each bit for `p` ticks (R92, R111). -/
def frameWave (p : Nat) (raw : Frame) : List Drive := (wireBits raw).flatMap fun v => holdLevel v p

/-- Frames back to back (R93). -/
def framesWave (p : Nat) (l : List Frame) : List Drive := l.flatMap (frameWave p)

/-- The levels a directive puts on the line, for `p` ticks a bit-period; a `RXMSG` is a start marker, its bytes and an
end marker, with no gap (R93). -/
def directiveWave (p : Nat) : Directive → List Drive
  | .wait _ => []
  | .rxFrame b => frameWave p (encodeByte b)
  | .rxLevel v n => holdLevel v n
  | .rxGap n => holdLevel idleLevel (n * p)
  | .rxMsg l => framesWave p (([stx] ++ l ++ [etx]).map encodeByte)
  | .rxByte b => frameWave p (encodeByte b)

/-- The ticks in which a directive has the consumer issue nothing (R92). -/
def directiveWait : Directive → List ConsumerAction
  | .wait n => List.replicate n .idle
  | _ => []

/-- Levels that follow what the line still has to carry, from the next tick on at the earliest; after them the line is
left at 0 (R92). -/
def feedLine (wave : List Drive) (s : State) : State :=
  if wave = [] then s
  else
    { s with env :=
      { s.env with
        rxSchedule := (if s.env.rxSchedule = [] then [s.env.rxRest] else s.env.rxSchedule) ++ wave
        rxRest := .driven idleLevel } }

/-- Actions the consumer takes after those it still has before it. -/
def feedConsumer (l : List ConsumerAction) (s : State) : State :=
  { s with env := { s.env with consumer := s.env.consumer ++ l } }

/-- A directive given in the tick that runs next. -/
def feedDirective (d : Directive) (s : State) : State :=
  match d with
  | .wait n => feedConsumer (directiveWait (.wait n)) s
  | d => feedLine (directiveWave s.cfg.ticksPerBit d) s

/-- A command given to the consumer. -/
def feedCommand (i : Instr) (s : State) : State := feedConsumer (asIssued i) s

end Sys2Proof.Machine
end

