-- ==== Sys2Proof/Machine/Assembler.lean ====
section
/-! DEFINITION. The textual syntax of commands and directives, one a line (spec/30_encoding.md R91 to R93). -/

namespace Sys2Proof.Machine

/-! ## Tokens -/

/-- A token of a line. -/
inductive Token where
  /-- A mnemonic, a label or a number. -/
  | word (w : List Char)
  /-- A string literal, without its quotes. -/
  | text (w : List Char)
  /-- Any other character that is no blank. -/
  | mark (c : Char)
  deriving DecidableEq, Repr

/-- Where the tokenizer stands: between or in a word, in a string literal, or past the `;` of a comment. -/
inductive LexMode where
  | plain
  | quoted
  | comment
  deriving DecidableEq, Repr

/-- The tokenizer's state; the current word and the tokens so far are held newest first. -/
structure Lex where
  mode : LexMode
  current : List Char
  done : List Token
  deriving DecidableEq, Repr

/-- A character of a word. -/
def isWordChar (c : Char) : Bool := c.isAlphanum || c = '_'

/-- Close the word that was being read. -/
def Lex.flush (x : Lex) : Lex :=
  if x.current = [] then x else { x with current := [], done := .word x.current.reverse :: x.done }

/-- Read one character. -/
def Lex.read (x : Lex) (c : Char) : Lex :=
  match x.mode with
  | .comment => x
  | .quoted =>
    if c = '"' then { mode := .plain, current := [], done := .text x.current.reverse :: x.done }
    else { x with current := c :: x.current }
  | .plain =>
    if isWordChar c then { x with current := c :: x.current }
    else if c = '"' then { x.flush with mode := .quoted }
    else if c = ';' then { x.flush with mode := .comment }
    else if c.isWhitespace then x.flush
    else { x.flush with done := .mark c :: x.flush.done }

/-- The tokens of a line; `none` when a string literal is left open. -/
def tokens (line : List Char) : Option (List Token) :=
  let x := (line.foldl Lex.read { mode := .plain, current := [], done := [] }).flush
  if x.mode = .quoted then none else some x.done.reverse

/-! ## Operands -/

/-- The value of a digit in a base of at most 16. -/
def digitValue (base : Nat) (c : Char) : Option Nat :=
  let v :=
    if '0'.toNat ≤ c.toNat ∧ c.toNat ≤ '9'.toNat then c.toNat - '0'.toNat
    else if 'a'.toNat ≤ c.toNat ∧ c.toNat ≤ 'f'.toNat then c.toNat - 'a'.toNat + 10
    else if 'A'.toNat ≤ c.toNat ∧ c.toNat ≤ 'F'.toNat then c.toNat - 'A'.toNat + 10
    else 16
  if v < base then some v else none

/-- The value of a run of digits after `acc`. -/
def digitsValue (base : Nat) : Nat → List Char → Option Nat
  | acc, [] => some acc
  | acc, c :: cs =>
    match digitValue base c with
    | some v => digitsValue base (acc * base + v) cs
    | none => none

/-- A number: hexadecimal after `0x`, else decimal (R12, R91). -/
def number : List Char → Option Nat
  | [] => none
  | '0' :: 'x' :: c :: cs => digitsValue 16 0 (c :: cs)
  | cs => digitsValue 10 0 cs

/-- A number that is a byte. -/
def byteNumber (w : List Char) : Option Byte :=
  match number w with
  | some n => if n < 256 then some (BitVec.ofNat 8 n) else none
  | none => none

/-- A string literal as the list of its characters' ASCII codes (R91). -/
def asciiBytes : List Char → Option (List Byte)
  | [] => some []
  | c :: cs =>
    if c.toNat < 128 then (asciiBytes cs).map fun l => BitVec.ofNat 8 c.toNat :: l else none

/-- The bytes of a list after its `[` and its first byte, up to the `]`, and the tokens after it. -/
def byteListRest : List Token → Option (List Byte × List Token)
  | .mark ']' :: rest => some ([], rest)
  | .mark ',' :: .word w :: rest =>
    match byteNumber w, byteListRest rest with
    | some b, some (l, rest') => some (b :: l, rest')
    | _, _ => none
  | _ => none

/-- A byte list `[0x48, 0x49]`, possibly empty, or a string literal (R91), and the tokens after it. -/
def byteOperand : List Token → Option (List Byte × List Token)
  | .text w :: rest => (asciiBytes w).map fun l => (l, rest)
  | .mark '[' :: .mark ']' :: rest => some ([], rest)
  | .mark '[' :: .word w :: rest =>
    match byteNumber w, byteListRest rest with
    | some b, some (l, rest') => some (b :: l, rest')
    | _, _ => none
  | _ => none

/-! ## Lines -/

/-- What a line asks for: a command of the block, or a directive of the bench. -/
inductive BenchOp where
  | command (i : Instr)
  | directive (d : Directive)
  deriving DecidableEq, Repr

/-- A line: its label, its operation, and the result written after `->` (R91). -/
structure BenchLine where
  label : Option (List Char)
  op : BenchOp
  expected : Option Result
  deriving DecidableEq, Repr

/-- The commands that take no operand, by mnemonic (R88). -/
def plainCommand (w : List Char) : Option Instr :=
  [Instr.init, .isDataAvailable, .readAndClear, .clear, .disable, .enable].find? fun i =>
    decide (i.mnemonic.toList = w)

/-- A line level. -/
def levelNumber (w : List Char) : Option Level :=
  match number w with
  | some 0 => some false
  | some 1 => some true
  | _ => none

/-- An operation and the tokens after it. -/
def operation : List Token → Option (BenchOp × List Token)
  | .word m :: rest =>
    if m = "SEND".toList then (byteOperand rest).map fun r => (.command (.send r.1), r.2)
    else if m = "RXMSG".toList then (byteOperand rest).map fun r => (.directive (.rxMsg r.1), r.2)
    else
      match plainCommand m, rest with
      | some i, rest => some (.command i, rest)
      | none, .word w :: rest' =>
        if m = "WAIT".toList then (number w).map fun n => (.directive (.wait n), rest')
        else if m = "RXGAP".toList then (number w).map fun n => (.directive (.rxGap n), rest')
        else if m = "RXFRAME".toList then (byteNumber w).map fun b => (.directive (.rxFrame b), rest')
        else if m = "RXBYTE".toList then (byteNumber w).map fun b => (.directive (.rxByte b), rest')
        else if m = "RXLEVEL".toList then
          match levelNumber w, rest' with
          | some v, .word k :: rest'' => (number k).map fun n => (.directive (.rxLevel v n), rest'')
          | _, _ => none
        else none
      | none, _ => none
  | _ => none

/-- What may follow an operation: nothing, or `->` and a result of the kind the command returns (R90, R91). -/
def expectation (op : BenchOp) : List Token → Option (Option Result)
  | [] => some none
  | .mark '-' :: .mark '>' :: rest =>
    match op, rest with
    | .command .isDataAvailable, [.word w] => (levelNumber w).map fun b => some (.bit b)
    | .command .readAndClear, rest =>
      match byteOperand rest with
      | some (l, []) => some (some (.bytes l))
      | _ => none
    | _, _ => none
  | _ => none

/-- A line's label, `A:` or `B:`, and the tokens after it. -/
def splitLabel : List Token → Option (List Char) × List Token
  | .word w :: .mark ':' :: rest => (some w, rest)
  | l => (none, l)

/-- Read one line of a program (R91). -/
def parseLine (line : String) : Option BenchLine :=
  match tokens line.toList with
  | none => none
  | some ts =>
    match splitLabel ts with
    | (label, rest) =>
      if label = none ∨ label = some ['A'] ∨ label = some ['B'] then
        match operation rest with
        | none => none
        | some (op, rest') => (expectation op rest').map fun e => { label := label, op := op, expected := e }
      else none

/-- Give a line to an instance. -/
def feedLineOp (op : BenchOp) (s : State) : State :=
  match op with
  | .command i => feedCommand i s
  | .directive d => feedDirective d s

end Sys2Proof.Machine
end

