-- ==== Sys2Proof/Machine/Flags.lean ====
section
/-! DEFINITION. The register view (spec/10_state.md R23, R39, R40): the `LINK` code, the STATUS word, and the
elements by number. It is read-only, and no command reads it; a test and a claim observe the state by it. -/

namespace Sys2Proof.Machine

/-- The code of `LINK` (R24). -/
def linkCode : Link → BitVec 2
  | .idle => 0b00
  | .rxInProgress => 0b01
  | .txInProgress => 0b10
  | .disabled => 0b11

/-- One flag at its place in the STATUS word. -/
def statusBit (b : Bool) (place : Nat) : BitVec 16 := (BitVec.ofBool b).setWidth 16 <<< place

/-- The STATUS word (R39): `LINK` in bits 1:0, one flag a bit from 2 to 11, and bits 15:12 read 0. -/
def statusWord (s : State) : BitVec 16 :=
  (linkCode s.link).setWidth 16
    ||| statusBit s.startSeen 2
    ||| statusBit s.dataAvail 3
    ||| statusBit s.ovf 4
    ||| statusBit s.edgePend 5
    ||| statusBit s.edgeIE 6
    ||| statusBit s.initDone 7
    ||| statusBit s.rxActive 8
    ||| statusBit s.txActive 9
    ||| statusBit s.invalidInput 10
    ||| statusBit (isFaulted s) 11

/-- What a numbered element of R23 reads as. -/
inductive ElementValue where
  | link (code : BitVec 2)
  | flag (b : Bool)
  | count (n : Nat)
  /-- The slots `0..N-1`; one that nothing has written holds a free value (R32, R67). -/
  | slots (l : List Byte)
  | rxEngine (active : Bool) (acc : Byte) (bit timer waited : Nat)
  /-- `gap` is `TX_GAP` as one bit, where R23's table types it a counter (log entry 21, DESIGN CHOICE). -/
  | txEngine (active : Bool) (frames : List Frame) (bit timer : Nat) (gap : Bool)
  | outputPin (d : Drive)
  | inputPin (now prev : Level)
  | faultKind (k : Option FaultKind)
  | events (l : List TraceEntry)
  deriving DecidableEq, Repr

/-- The element S`n` (R23); S15 exists only with a watchdog (R37), and no number above 16 is an element. -/
def readElement (s : State) (n : Nat) : Option ElementValue :=
  match n with
  | 0 => some (.link (linkCode s.link))
  | 1 => some (.flag s.startSeen)
  | 2 => some (.flag s.dataAvail)
  | 3 => some (.flag s.ovf)
  | 4 => some (.flag s.edgePend)
  | 5 => some (.flag s.edgeIE)
  | 6 => some (.flag s.initDone)
  | 7 => some (.count s.cursor)
  | 8 => some (.slots ((List.range s.cfg.rxCapacity).map (slotValue s)))
  | 9 => some (.rxEngine s.rxActive s.rxAcc s.rxBit s.rxTimer s.rxWaited)
  | 10 => some (.txEngine s.txActive s.txFrames s.txBit s.txTimer s.txGap)
  | 11 => some (.outputPin s.txPin)
  | 12 => some (.inputPin s.rxPin s.rxPrev)
  | 13 => some (.flag s.invalidInput)
  | 14 => some (.faultKind s.faulted)
  | 15 => if s.cfg.rxTimeoutBits = none then none else some (.count s.rxIdleTicks)
  | 16 => some (.events s.trace)
  | _ => none

end Sys2Proof.Machine
end

