-- ==== Sys2Proof/Machine/Pair.lean ====
section
/-! DEFINITION. Two instances that make a link (spec/60_exceptions.md R236, R237; spec/20_memory.md R70, R75): both
run each phase of a tick before either runs the next, and the only thing they share is the line. -/

namespace Sys2Proof.Machine

/-- Two instances, A and B. -/
structure Pair where
  a : State
  b : State
  deriving DecidableEq, Repr

/-- What the one wire of the `SHARED` reading carries: the common value of the driven pins, and nothing determined
where they disagree or none is driven (R237). -/
def sharedWire (x y : Drive) : Drive :=
  match x, y with
  | .driven u, .driven v => if u = v then .driven u else .undriven
  | .driven u, .undriven => .driven u
  | .undriven, d => d

/-- Phase 2 of a pair (R237). `DEDICATED`: each RX pin sees the other's TX pin. `SHARED`: both see the wire, with one
draw for both where it carries nothing determined. Propagation is immediate (R75). -/
def Pair.linePhase (y : Pair) : Pair :=
  match y.a.cfg.lineTopology with
  | .dedicated => { a := setLine y.b.txPin y.a, b := setLine y.a.txPin y.b }
  | .shared =>
    let a' := setLine (sharedWire y.a.txPin y.b.txPin) y.a
    { a := a', b := { y.b with rxPin := a'.rxPin } }

/-- Phase 1 of both, phase 2 of the line. -/
def Pair.lined (y : Pair) : Pair := Pair.linePhase { a := drivePhase y.a, b := drivePhase y.b }

/-- One tick of a pair (R70). After phase 2 nothing passes between the instances (R75), so the order of their later
phases does not matter. -/
def Pair.step (y : Pair) : Host.Outcome Pair Fault Refusal :=
  match afterLine y.lined.a with
  | .fault r => .fault r
  | .refused r => .refused r
  | .next a' =>
    match afterLine y.lined.b with
    | .fault r => .fault r
    | .refused r => .refused r
    | .next b' => .next { a := a', b := b' }

/-- `k` ticks of a pair. -/
def Pair.run : Nat → Pair → Host.Outcome Pair Fault Refusal
  | 0, y => .next y
  | k + 1, y =>
    match y.step with
    | .next y' => Pair.run k y'
    | .fault r => .fault r
    | .refused r => .refused r

/-- Both instances after a hardware reset, with one configuration for both (R10, R236). -/
def Pair.powerOn (c : Config) : Pair :=
  { a := State.powerOn c (Env.fresh 0), b := State.powerOn c (Env.fresh 1) }

/-- Both peers are built alike where the protocol asks for it (R10), and are wired in one way. -/
abbrev Pair.matched (y : Pair) : Prop :=
  y.a.cfg.ticksPerBit = y.b.cfg.ticksPerBit ∧ y.a.cfg.bitPeriod = y.b.cfg.bitPeriod
    ∧ y.a.cfg.lineTopology = y.b.cfg.lineTopology

end Sys2Proof.Machine
end

