-- ==== Sys2Proof/Machine/Timing.lean ====
section
/-! DEFINITION. The spec's timing in ticks: sample instants (spec/40_frame_codec.md R116), durations
(spec/41_transmitter.md R139, spec/43_receiver.md R185, spec/60_exceptions.md R228,
spec/70_reset_and_hazards.md R273) and the sampling-window condition (R272). -/

namespace Sys2Proof.Machine

/-- The tick of sample `k` of a receive activated in tick `a`, with no stretch (R116, R175). -/
def sampleTick (p a k : Nat) : Nat := a + 3 * p / 2 + k * p

/-- The completion tick of a receive activated in tick `a`, with no stretch (R116, R185). -/
def completionTick (p a : Nat) : Nat := a + 19 * p / 2

/-- F, the number of frames of an admitted SEND (R132). -/
def sendFrameCount (c : Config) (msg : List Byte) : Nat := min msg.length c.maxTransmitLen + 2

/-- The ticks from the SEND to its completion, with no stretch (R139). -/
def sendDuration (c : Config) (frames : Nat) : Nat :=
  10 * c.ticksPerBit * frames + c.txGapBits * c.ticksPerBit * (frames - 1)

/-- The most ticks a held command waits after the activation (R228). -/
def holdBound (c : Config) : Nat := 19 * c.ticksPerBit / 2 + 9 * c.rxStretchMax

/-- `B_j`, where bit `j` begins, for the bit lengths the sender used (R272). -/
def bitStart (lengths : List Nat) (j : Nat) : Nat := (lengths.take j).sum

/-- `s_k`, where sample `k` falls after the activation (and `s_8` the completion), for a receiver with `p` ticks a
bit-period and the stretches `d` (R272). -/
def sampleOffset (p : Nat) (d : List Nat) (k : Nat) : Nat := 3 * p / 2 + k * p + (d.take (k + 1)).sum

/-- The sampling-window condition of R272 for one frame: every sample lies in the data bit it stands for, and the
completion comes before the start edge of the next frame, if one follows at `next`. -/
def samplingWindow (lengths : List Nat) (p latency : Nat) (d : List Nat) (next : Option Nat) : Bool :=
  (List.range 8).all (fun k =>
      decide (bitStart lengths (k + 1) ≤ latency + sampleOffset p d k)
        && decide (latency + sampleOffset p d k + 1 ≤ bitStart lengths (k + 2)))
    && (match next with
      | none => true
      | some e => decide (latency + sampleOffset p d 8 + 1 ≤ e))

end Sys2Proof.Machine
end

