-- ==== Sys2Proof/Safety.lean ====
section
/-! DEFINITION. What counts as a safe run, and the invariants and conditions that claims are stated in
(spec/10_state.md R11, R41 to R44; spec/60_exceptions.md R223, R225). -/

namespace Sys2Proof.Machine

/-- A run a claim may be made of: no model fault and no contract broken by the consumer (R223, R225). -/
abbrev State.safe (s : State) : Prop := s.faulted = none ∧ s.invalidInput = false

/-- A consumer command issued now runs its own rule: every check of R224 is passed. -/
abbrev State.ready (s : State) : Prop := s.faulted = none ∧ s.initDone = true ∧ s.rxActive = false

/-- The link accepts an inbound frame (R173, R174). -/
abbrev State.listening (s : State) : Prop := s.link = .idle ∨ s.link = .rxInProgress

/-- What the line carries `n` ticks from now in an instance modelled alone. -/
def lineAt (s : State) (n : Nat) : Drive := s.env.rxSchedule.getD n s.env.rxRest

/-- Before INIT nothing runs (R251). -/
structure Quiet (s : State) : Prop where
  noEdgeEnable : s.edgeIE = false
  noEdge : s.edgePend = false
  noReceive : s.rxActive = false
  noSend : s.txActive = false
  noFrames : s.txFrames = []

/-- What holds after INIT: R41 to R44, the ranges of R11, R33 and R34, and that the slots below `CURSOR` have been
written (R32). -/
structure Running (s : State) : Prop where
  /-- R29. -/
  edgeEnabled : s.edgeIE = true
  /-- R41. -/
  startSeen_iff : s.startSeen = true ↔ s.link = .rxInProgress
  /-- R42, first half. -/
  txLink_active : s.link = .txInProgress → s.txActive = true
  /-- R42, second half. -/
  txActive_link : s.txActive = true → s.link = .txInProgress ∨ s.link = .disabled
  /-- R42: the engines never run together. -/
  exclusive : ¬ (s.txActive = true ∧ s.rxActive = true)
  /-- A receive under way belongs to a link that accepts it (R173, R174, R228). -/
  rxActive_link : s.rxActive = true → s.link = .idle ∨ s.link = .rxInProgress
  /-- R43. -/
  dataAvail_terminator : s.dataAvail = true →
    1 ≤ s.cursor ∧ slotRead s.buf (s.cursor - 1) = some s.cfg.terminator ∧ s.startSeen = false
  /-- R44. -/
  cursor_le : s.cursor ≤ s.cfg.rxCapacity
  /-- R32: the slots below the cursor hold the bytes stored since the last clear. -/
  slots_written : ∀ i, i < s.cursor → (slotRead s.buf i).isSome = true
  /-- R11, R33. -/
  rxRanges : s.rxActive = true →
    s.rxBit ≤ 8 ∧ 1 ≤ s.rxTimer ∧ s.rxTimer ≤ 3 * s.cfg.ticksPerBit / 2 + s.cfg.rxStretchMax
  /-- R172. -/
  rxWaited_le : s.rxWaited ≤ s.cfg.rxLatencyMax
  /-- R11, R34; a gap is held for `TX_GAP_BITS` bit-periods. -/
  txRanges : s.txActive = true →
    s.txFrames ≠ [] ∧ s.txBit ≤ 9 ∧ 1 ≤ s.txTimer
      ∧ (s.txGap = false → s.txTimer ≤ s.cfg.ticksPerBit + s.cfg.txStretchMax)
      ∧ (s.txGap = true → s.txTimer ≤ s.cfg.txGapBits * s.cfg.ticksPerBit)
  /-- R157: a watchdog has not yet run out. -/
  idleTicks_lt : ∀ k, s.cfg.rxTimeoutBits = some k → s.rxIdleTicks < k * s.cfg.ticksPerBit

/-- The invariant of the machine: the configuration is one R8 allows, the buffer's memory is canonical and holds
nothing outside `0..N-1` (R60), and the instance is quiet before INIT and keeps R41 to R44 after it. -/
structure Inv (s : State) : Prop where
  cfgWf : s.cfg.wf
  canonical : Memory.wf s.buf = true
  inRange : ∀ i, (slotRead s.buf i).isSome = true → i < s.cfg.rxCapacity
  beforeInit : s.initDone = false → Quiet s
  afterInit : s.initDone = true → Running s

end Sys2Proof.Machine
end

