-- ==== Sys2Proof/Certificates/Slice0/Obligations.lean ====
section
/-! DEFINITION. The statements for the provers, one `def Obligations.<Name> : Prop` each; OBLIGATIONS.json lists them.
A statement that describes a next state by `with` says that every element it does not name is unchanged: that is its
frame. -/

open Sys2Proof Sys2Proof.Machine

/-! ## Encodings -/

/-- R82: the frame of a byte, bit by bit, and its value. -/
def Obligations.EncodeLaysOutTheFrame : Prop :=
  ∀ b : Byte,
    (encodeByte b).toNat = 2 * b.toNat + 1
      ∧ (encodeByte b).getLsbD 0 = true
      ∧ (∀ k, k < 8 → (encodeByte b).getLsbD (k + 1) = b.getLsbD k)
      ∧ (encodeByte b).getLsbD 9 = false

/-- R83, R61: on the wire the start bit comes first, then data bits 0 to 7, then the stop bit. -/
def Obligations.WireOrderIsLeastSignificantFirst : Prop :=
  ∀ b : Byte,
    wireBits (encodeByte b) = true :: ((List.range 8).map (fun k => b.getLsbD k) ++ [false])

/-- R84: frames that agree in bits 8:1 are received alike, whatever their start and stop bits are. -/
def Obligations.StartAndStopBitsAreNotRead : Prop :=
  ∀ raw raw' : Frame, (∀ k, 1 ≤ k → k ≤ 8 → raw.getLsbD k = raw'.getLsbD k) →
    decode (.frame raw) = decode (.frame raw')

/-- R85, R178: decoding a frame by the table's match and mask is classifying the byte that was sampled, and a frame
sent for a byte is received as that byte's class. -/
def Obligations.FrameDecodeIsClassification : Prop :=
  (∀ raw : Frame, decode (.frame raw) = .ok (classify (frameByte raw)))
    ∧ ∀ b : Byte, decode (.frame (encodeByte b)) = .ok (classify b)

/-- Decode and encode agree on every well-formed operation. -/
def Obligations.DecodeOfEncode : Prop :=
  ∀ i : Instr, i.wellFormed = true → decode (encode i) = .ok i

/-- R88, R89: exactly the words 0x01 to 0x07 are commands, and a command keeps its own word. -/
def Obligations.CommandWordsAreOneToSeven : Prop :=
  ∀ (cmd : CmdWord) (operand : List Byte),
    ((∃ i, decode (.command cmd operand) = .ok i) ↔ 1 ≤ cmd.toNat ∧ cmd.toNat ≤ 7)
      ∧ ∀ i, decode (.command cmd operand) = .ok i → i.wellFormed = true ∧ commandWord i = cmd

/-- A few words written out from the spec's encodings (R85, R88): command words and frames decode to their operations.
How the opcode table numbers them is the model's choice (log entry 5, DESIGN CHOICE): an 8-bit word 1 to 7 is a command
with an empty message, every other word a frame. The last six clauses hold under that choice. -/
def Obligations.TableWordsDecode : Prop :=
  (∀ msg, decode (.command 0b00000010 msg) = .ok (.send msg))
    ∧ decode (.command 0b00000001 []) = .ok .init
    ∧ decode (.command 0b00000111 []) = .ok .enable
    ∧ decode (.frame 0b0000000101) = .ok .frameStx
    ∧ decode (.frame 0b0000000111) = .ok .frameEtx
    ∧ decode (.frame 0b0010001101) = .ok (.frameData 0x46)
    ∧ decodeTableWord 8 0b00000001 = some .init
    ∧ decodeTableWord 8 0b00000010 = some (.send [])
    ∧ decodeTableWord 8 0b00000111 = some .enable
    ∧ decodeTableWord 16 0b0000000101 = some .frameStx
    ∧ decodeTableWord 16 0b0000000111 = some .frameEtx
    ∧ decodeTableWord 16 0b0010001101 = some (.frameData 0x46)

/-- R89: an illegal command word raises `ILLEGAL_COMMAND` with the word recorded, and changes nothing else. -/
def Obligations.IllegalCommandFaults : Prop :=
  ∀ (s : State) (cmd : CmdWord) (operand : List Byte), s.faulted = none →
    (cmd = 0x00 ∨ 0x08 ≤ cmd.toNat) →
      issueCommand cmd operand s = .next { s with faulted := some (.illegalCommand cmd) }

/-! ## The consumer commands -/

/-- R151: INIT, before the first INIT as after it. -/
def Obligations.InitResetsTheLink : Prop :=
  ∀ s : State, s.faulted = none → s.rxActive = false →
    exec .init s = .next
      { s with
        initDone := true
        edgeIE := true
        edgePend := false
        rxWaited := 0
        link := .idle
        startSeen := false
        cursor := 0
        dataAvail := false
        ovf := false
        rxActive := false
        txActive := false
        txFrames := []
        rxIdleTicks := 0 }

/-- R130, R132, R135, R136, R140: an admitted SEND queues its frames, marks reserved bytes, takes the link unless it is
disabled, and arms the first bit for P ticks and a draw. -/
def Obligations.AdmittedSendQueuesItsFrames : Prop :=
  ∀ (s : State) (msg : List Byte), s.ready → (s.link = .idle ∨ s.link = .disabled) →
    exec (.send msg) s = .next
      { s with
        invalidInput := s.invalidInput || msg.any (fun b => b == 0x02 || b == 0x03)
        txFrames := encodeByte 0x02 :: ((msg.take s.cfg.maxTransmitLen).map encodeByte ++ [encodeByte 0x03])
        txTotal := min msg.length s.cfg.maxTransmitLen + 2
        link := if s.link = .idle then .txInProgress else .disabled
        txActive := true
        txBit := 0
        txGap := false
        txTimer := s.cfg.ticksPerBit + drawValue s.cfg.txStretchMax s.env
        env := drawEnv s.cfg.txStretchMax s.env }

/-- R131: a SEND is rejected exactly in `RX_IN_PROGRESS` and `TX_IN_PROGRESS`; then it transmits nothing and changes no
state but the trace. -/
def Obligations.SendRejectedUnlessIdleOrDisabled : Prop :=
  ∀ (s : State) (msg : List Byte), s.ready →
    ((s.link = .rxInProgress ∨ s.link = .txInProgress) →
      exec (.send msg) s = .next
        { s with trace := s.trace ++ [⟨s.env.tick, s.env.instId, .txRejected s.link⟩] })
    ∧ ((s.link = .idle ∨ s.link = .disabled) →
      ∃ t, exec (.send msg) s = .next t ∧ t.txActive = true ∧ t.trace = s.trace)

/-- R202: IS_DATA_AVAILABLE returns `DATA_AVAIL` and writes nothing. -/
def Obligations.IsDataAvailableReturnsTheFlag : Prop :=
  ∀ s : State, s.ready →
    exec .isDataAvailable s = .next { s with results := s.results ++ [.bit s.dataAvail] }

/-- R203, R62: READ_AND_CLEAR returns the bytes of the first slots in index order, the terminator left out, and clears.
A slot that nothing has written holds some byte (R67), which the result has in that place; nothing more is said of
it. -/
def Obligations.ReadAndClearReturnsThePayload : Prop :=
  ∀ s : State, s.ready →
    let k := if s.dataAvail then s.cursor - 1 else s.cursor
    k ≤ s.cfg.rxCapacity →
      ∃ l : List Byte, l.length = k
        ∧ (∀ i b, i < k → slotRead s.buf i = some b → l[i]? = some b)
        ∧ exec .readAndClear s = .next
          { s with
            cursor := 0
            dataAvail := false
            ovf := false
            results := s.results ++ [.bytes l] }

/-- The model's choice (log entry 10): READ_AND_CLEAR stops at index N when it would have to read past the last slot,
since the slots are those from 0 to N - 1 (R60) and there is no other. -/
def Obligations.ReadAndClearStopsAtAnUnreadableSlot : Prop :=
  ∀ s : State, s.ready →
    s.cfg.rxCapacity < (if s.dataAvail then s.cursor - 1 else s.cursor) →
      exec .readAndClear s = .fault (.noSuchSlot s.cfg.rxCapacity)

/-- R66: two READ_AND_CLEAR in a row return the message (as many bytes as were stored, each written slot's byte in its
place) and then the empty list, and the second changes nothing more. -/
def Obligations.SecondReadReturnsNothing : Prop :=
  ∀ s t : State, s.ready → exec .readAndClear s = .next t →
    let k := if s.dataAvail then s.cursor - 1 else s.cursor
    (∃ l : List Byte, l.length = k
      ∧ (∀ i b, i < k → slotRead s.buf i = some b → l[i]? = some b)
      ∧ t.results = s.results ++ [.bytes l])
    ∧ exec .readAndClear t = .next { t with results := t.results ++ [.bytes []] }

/-- R200: CLEAR. -/
def Obligations.ClearEmptiesTheBuffer : Prop :=
  ∀ s : State, s.ready →
    exec .clear s = .next { s with cursor := 0, dataAvail := false, ovf := false }

/-- R66: CLEAR twice leaves the state that CLEAR once leaves. -/
def Obligations.ClearIsIdempotent : Prop :=
  ∀ s t : State, s.ready → exec .clear s = .next t → exec .clear t = .next t

/-- R152: DISABLE, from any state of the link. -/
def Obligations.DisableAbandonsTheReceive : Prop :=
  ∀ s : State, s.ready →
    exec .disable s = .next { s with link := .disabled, startSeen := false }

/-- R153: ENABLE leaves `DISABLED` for `IDLE` and does nothing in any other state of the link. -/
def Obligations.EnableOnlyLeavesDisabled : Prop :=
  ∀ s : State, s.ready →
    (s.link = .disabled → exec .enable s = .next { s with link := .idle })
      ∧ (s.link ≠ .disabled → exec .enable s = .next s)

/-- R222, R224: before INIT every other command raises `UNINIT` with its word recorded, and changes nothing else. -/
def Obligations.CommandsBeforeInitFault : Prop :=
  ∀ (s : State) (msg : List Byte), s.faulted = none → s.initDone = false →
    exec (.send msg) s = .next { s with faulted := some (.uninit 0x02) }
      ∧ exec .isDataAvailable s = .next { s with faulted := some (.uninit 0x03) }
      ∧ exec .readAndClear s = .next { s with faulted := some (.uninit 0x04) }
      ∧ exec .clear s = .next { s with faulted := some (.uninit 0x05) }
      ∧ exec .disable s = .next { s with faulted := some (.uninit 0x06) }
      ∧ exec .enable s = .next { s with faulted := some (.uninit 0x07) }

/-- While `RX_ACTIVE` = 1 no command is performed (R228), and the hold ends. First part: each command stays the
consumer's next. Second part: from the state an activation leaves, with a command to come, the completion comes 19P/2
to 19P/2 + 9 RX_STRETCH_MAX ticks after the activation (R228, R185); until then nothing is performed, and in the tick
of the completion itself the command is. That the command is the consumer's NEXT action again, and so runs in that very
tick, is the model's choice (log entry 6, DESIGN CHOICE: R228 only says a later tick); that it comes back without a
surplus operand is log entry 4 (DEDUCED). -/
def Obligations.CommandsAreHeldDuringAReceive : Prop :=
  (∀ (s : State) (msg : List Byte), s.faulted = none → s.initDone = true → s.rxActive = true →
    let held (cmd : CmdWord) (operand : List Byte) : State :=
      { s with env := { s.env with consumer := .issue cmd operand :: s.env.consumer } }
    exec .init s = .next (held 0x01 [])
      ∧ exec (.send msg) s = .next (held 0x02 msg)
      ∧ exec .isDataAvailable s = .next (held 0x03 [])
      ∧ exec .readAndClear s = .next (held 0x04 [])
      ∧ exec .clear s = .next (held 0x05 [])
      ∧ exec .disable s = .next (held 0x06 [])
      ∧ exec .enable s = .next (held 0x07 []))
  ∧ ∀ (s : State) (cmd : CmdWord) (operand : List Byte) (rest : List ConsumerAction) (i : Instr),
    s.faulted = none → s.initDone = true → s.rxActive = true → s.txActive = false → s.rxBit = 0 →
    3 * s.cfg.ticksPerBit / 2 ≤ s.rxTimer → s.rxTimer ≤ 3 * s.cfg.ticksPerBit / 2 + s.cfg.rxStretchMax → s.cfg.wf →
    s.env.consumer = .issue cmd operand :: rest → decode (.command cmd operand) = .ok i →
      ∃ n u s4, 19 * s.cfg.ticksPerBit / 2 ≤ n + 1 ∧ n + 1 ≤ holdBound s.cfg
        ∧ (∀ m, m ≤ n → ∃ v, Host.Core.run Sys2Proof.core m s = .next v
            ∧ v.rxActive = true ∧ v.txActive = false ∧ v.link = s.link ∧ v.cursor = s.cursor
            ∧ v.dataAvail = s.dataAvail ∧ v.results = s.results)
        ∧ Host.Core.run Sys2Proof.core n s = .next u
        ∧ rxPhase (edgeDetect (linePhase (drivePhase u))) = .next s4
        ∧ s4.ready ∧ s4.env.consumer = asIssued i ++ rest
        ∧ step u = andThen (exec i { s4 with env := { s4.env with consumer := rest } })
            (fun s5 => .next (endTick (watchdogPhase (txPhase false s5))))

/-- R223: in the faulted condition no operation changes any state. -/
def Obligations.FaultedInstanceRunsNoOperation : Prop :=
  ∀ (i : Instr) (s : State), s.faulted ≠ none → exec i s = .next s

/-! ## The received-frame classes -/

/-- R179: a start marker clears the buffer and starts a message, whether or not one was under way. -/
def Obligations.StartMarkerStartsAMessage : Prop :=
  ∀ s : State, s.faulted = none →
    exec .frameStx s = .next
      { s with
        cursor := 0
        dataAvail := false
        ovf := false
        link := .rxInProgress
        startSeen := true }

/-- R180: an end marker with `START_SEEN` = 1 ends the message; with room it stores the terminator and makes the message
available, with a full buffer it does neither. -/
def Obligations.EndMarkerEndsTheMessage : Prop :=
  ∀ s : State, s.faulted = none → s.startSeen = true →
    (s.cursor < s.cfg.rxCapacity →
      ∃ t, exec .frameEtx s = .next t
        ∧ t = { s with
            buf := t.buf
            cursor := s.cursor + 1
            dataAvail := true
            trace := s.trace ++ [⟨s.env.tick, s.env.instId, .msgReady s.cursor⟩]
            startSeen := false
            link := .idle }
        ∧ slotRead t.buf s.cursor = some s.cfg.terminator
        ∧ ∀ i, i ≠ s.cursor → slotRead t.buf i = slotRead s.buf i)
    ∧ (s.cfg.rxCapacity ≤ s.cursor →
      exec .frameEtx s = .next
        { s with
          trace := s.trace ++ [⟨s.env.tick, s.env.instId, .etxLost⟩]
          startSeen := false
          link := .idle })

/-- R181: an end marker with `START_SEEN` = 0 changes nothing but the trace. -/
def Obligations.StrayEndMarkerIsDropped : Prop :=
  ∀ s : State, s.faulted = none → s.startSeen = false →
    exec .frameEtx s = .next { s with trace := s.trace ++ [⟨s.env.tick, s.env.instId, .drop 0x03⟩] }

/-- R182, R204: a payload byte of a message is stored at `CURSOR`, or dropped with an overflow when the buffer is
full. -/
def Obligations.PayloadByteIsStoredOrOverflows : Prop :=
  ∀ (s : State) (b : Byte), s.faulted = none → s.startSeen = true →
    (s.cursor < s.cfg.rxCapacity →
      ∃ t, exec (.frameData b) s = .next t
        ∧ t = { s with buf := t.buf, cursor := s.cursor + 1 }
        ∧ slotRead t.buf s.cursor = some b
        ∧ ∀ i, i ≠ s.cursor → slotRead t.buf i = slotRead s.buf i)
    ∧ (s.cfg.rxCapacity ≤ s.cursor →
      exec (.frameData b) s = .next
        { s with ovf := true, trace := s.trace ++ [⟨s.env.tick, s.env.instId, .overflow b⟩] })

/-- R183: a byte outside a message changes nothing but the trace. -/
def Obligations.ByteOutsideAMessageIsDropped : Prop :=
  ∀ (s : State) (b : Byte), s.faulted = none → s.startSeen = false →
    exec (.frameData b) s = .next { s with trace := s.trace ++ [⟨s.env.tick, s.env.instId, .drop b⟩] }

/-- From R189, R203, R205 and R206 (derived): a whole message, frame by frame as R189 reads it. At most N bytes are
kept, each further one overflows once, the message is delivered exactly when its terminator fits too, and reading it
then returns what was kept. -/
def Obligations.MessageIsDeliveredIfItFits : Prop :=
  ∀ (s : State) (l : List Byte), s.ready → s.listening →
    (∀ b, b ∈ l → b ≠ stx ∧ b ≠ etx) →
      ∃ t, rxFrames ([stx] ++ l ++ [etx]) s = .next t
        ∧ t.link = .idle ∧ t.startSeen = false
        ∧ t.cursor = min (l.length + 1) s.cfg.rxCapacity
        ∧ t.dataAvail = decide (l.length + 1 ≤ s.cfg.rxCapacity)
        ∧ t.ovf = decide (s.cfg.rxCapacity < l.length)
        ∧ t.trace = s.trace
            ++ (l.drop s.cfg.rxCapacity).map (fun b => ⟨s.env.tick, s.env.instId, .overflow b⟩)
            ++ [⟨s.env.tick, s.env.instId,
                if l.length + 1 ≤ s.cfg.rxCapacity then .msgReady l.length else .etxLost⟩]
        ∧ exec .readAndClear t = .next
            { t with
              cursor := 0
              dataAvail := false
              ovf := false
              results := t.results ++ [.bytes (l.take s.cfg.rxCapacity)] }

/-! ## The engines -/

/-- R133 part (a): the level of `TX_PIN(t)`. -/
def Obligations.TxPinCarriesTheCurrentBit : Prop :=
  ∀ s : State, s.faulted = none →
    (s.initDone = false → (drivePhase s) = { s with txPin := .undriven })
      ∧ (∀ f rest, s.initDone = true → s.txActive = true → s.txGap = false → s.txFrames = f :: rest →
          drivePhase s = { s with txPin := .driven (f.getLsbD s.txBit) })
      ∧ (s.initDone = true → (s.txActive = false ∨ s.txGap = true) →
          drivePhase s = { s with txPin := .driven false })

/-- R170, V43.12: after a tick `RX_PREV` is the pin's level in that tick, whatever else the tick did, and before INIT no
edge is latched. -/
def Obligations.PreviousLevelFollowsThePin : Prop :=
  ∀ s t : State, s.faulted = none → step s = .next t →
    t.rxPrev = t.rxPin ∧ (s.edgeIE = false → t.edgePend = true → s.edgePend = true)

/-- R170: the edge detector. -/
def Obligations.EdgeDetectorLatchesRisingEdges : Prop :=
  ∀ s : State, s.faulted = none →
    ((s.edgeIE = true ∧ s.rxPrev = false ∧ s.rxPin = true) →
      edgeDetect s = { s with edgePend := true, rxPrev := s.rxPin })
    ∧ (¬ (s.edgeIE = true ∧ s.rxPrev = false ∧ s.rxPin = true) →
      edgeDetect s = { s with rxPrev := s.rxPin })

/-- R172, R173: an edge taken in `TX_IN_PROGRESS` or `DISABLED` bails and changes nothing but the flag and the trace. -/
def Obligations.EdgeBailsWhileSendingOrDisabled : Prop :=
  ∀ s : State, s.faulted = none → s.initDone = true → s.rxActive = false → s.edgePend = true →
    s.cfg.rxLatencyMax ≤ s.rxWaited → (s.link = .txInProgress ∨ s.link = .disabled) →
      rxPhase s = .next
        { s with
          edgePend := false
          rxWaited := 0
          trace := s.trace ++ [⟨s.env.tick, s.env.instId, .bail s.link⟩] }

/-- R172, R174: an edge taken in `IDLE` or `RX_IN_PROGRESS` starts a receive and arms a wait of 1.5 bit-periods and a
draw. -/
def Obligations.EdgeStartsAReceive : Prop :=
  ∀ s : State, s.faulted = none → s.initDone = true → s.rxActive = false → s.edgePend = true →
    s.cfg.rxLatencyMax ≤ s.rxWaited → s.listening →
      rxPhase s = .next
        { s with
          edgePend := false
          rxWaited := 0
          rxActive := true
          rxAcc := 0x00
          rxBit := 0
          rxTimer := 3 * s.cfg.ticksPerBit / 2 + drawValue s.cfg.rxStretchMax s.env
          env := drawEnv s.cfg.rxStretchMax s.env }

/-- R172: below the latency bound an edge either waits one tick more or is taken, and nothing else happens to it. -/
def Obligations.PendingEdgeWaitsOrIsTaken : Prop :=
  ∀ s : State, s.faulted = none → s.initDone = true → s.rxActive = false → s.edgePend = true →
    s.rxWaited < s.cfg.rxLatencyMax →
      (drawValue 1 s.env = 0 →
        rxPhase s = .next { s with rxWaited := s.rxWaited + 1, env := drawEnv 1 s.env })
      ∧ (drawValue 1 s.env = 1 →
        rxPhase s = .next (handlerEntry { s with rxWaited := 0, env := drawEnv 1 s.env }))

/-- R115, R175: a sample writes the pin's level to its own bit of the byte and to no other. -/
def Obligations.SampleWritesItsOwnBit : Prop :=
  ∀ s : State, s.faulted = none → s.rxActive = true → s.rxTimer = 1 → s.rxBit < 8 →
    ∃ t, rxPhase s = .next t
      ∧ t = { s with
          rxAcc := t.rxAcc
          rxBit := s.rxBit + 1
          rxTimer := s.cfg.ticksPerBit + drawValue s.cfg.rxStretchMax s.env
          env := drawEnv s.cfg.rxStretchMax s.env }
      ∧ ∀ j, j < 8 → t.rxAcc.getLsbD j = (if j = s.rxBit then s.rxPin else s.rxAcc.getLsbD j)

/-- R115, R116, R175, R176, R185: with no latency and no stretch, a receive whose edge comes in this tick takes its
samples 1.5, 2.5, … 8.5 bit-periods later and completes 9.5 bit-periods later, not sooner; the byte is made of the eight
sampled levels, whatever the line carried in between, and its class has run. -/
def Obligations.ReceiveSamplesEightMidCellLevels : Prop :=
  ∀ (s : State) (v : Nat → Level),
    s.ready → s.edgeIE = true → s.edgePend = false → s.txActive = false → s.listening → s.rxPrev = false →
    s.cfg.wf → s.cfg.rxLatencyMax = 0 → s.cfg.rxStretchMax = 0 → s.env.consumer = [] →
    lineAt s 0 = .driven true →
    (∀ k, k < 8 → lineAt s (3 * s.cfg.ticksPerBit / 2 + k * s.cfg.ticksPerBit) = .driven (v k)) →
      (∀ n, n < 19 * s.cfg.ticksPerBit / 2 →
        ∃ u, Host.Core.run Sys2Proof.core (n + 1) s = .next u ∧ u.rxActive = true)
      ∧ ∃ t u, Host.Core.run Sys2Proof.core (19 * s.cfg.ticksPerBit / 2 + 1) s = .next t
        ∧ t.rxActive = false ∧ t.edgePend = false
        ∧ (∀ k, k < 8 → t.rxAcc.getLsbD k = v k)
        ∧ exec (classify t.rxAcc) s = .next u
        ∧ t.link = u.link ∧ t.startSeen = u.startSeen ∧ t.dataAvail = u.dataAvail ∧ t.ovf = u.ovf
        ∧ t.cursor = u.cursor ∧ t.buf = u.buf

/-- TX_STEP and the levels it gives (R111, R112, R113, R114, R133). First part, phase 6 outside the tick of the
admission: the timer counts down, and when it runs out the next bit, the first bit of the next frame (with no gap) or
the first bit after a gap is armed for P ticks and a draw, a gap for G * P. Second part: from the state an admission
leaves, each of the 10 F bits is on `TX_PIN` for its own length, between P and P + TX_STRETCH_MAX ticks, in order, and
each gap is at 0 for G * P ticks, whatever the RX line does. -/
def Obligations.SendHoldsEachBitForItsPeriod : Prop :=
  (∀ s : State, s.faulted = none → s.txActive = true →
    let armed := s.cfg.ticksPerBit + drawValue s.cfg.txStretchMax s.env
    let env' := drawEnv s.cfg.txStretchMax s.env
    txPhase false s = s
      ∧ (1 < s.txTimer → txPhase true s = { s with txTimer := s.txTimer - 1 })
      ∧ (s.txTimer = 1 → s.txGap = true →
          txPhase true s = { s with txGap := false, txBit := 0, txTimer := armed, env := env' })
      ∧ (s.txTimer = 1 → s.txGap = false → s.txBit < 9 →
          txPhase true s = { s with txBit := s.txBit + 1, txTimer := armed, env := env' })
      ∧ ∀ f g rest, s.txTimer = 1 → s.txGap = false → s.txBit = 9 → s.txFrames = f :: g :: rest →
          (s.cfg.txGapBits = 0 →
            txPhase true s = { s with txFrames := g :: rest, txBit := 0, txTimer := armed, env := env' })
          ∧ (0 < s.cfg.txGapBits →
            txPhase true s =
              { s with
                txFrames := g :: rest
                txGap := true
                txTimer := s.cfg.txGapBits * s.cfg.ticksPerBit }))
  ∧ ∀ s : State,
    s.faulted = none → s.initDone = true → s.rxActive = false → s.txActive = true →
    (s.link = .txInProgress ∨ s.link = .disabled) → s.txGap = false → s.txBit = 0 →
    s.cfg.ticksPerBit ≤ s.txTimer → s.txTimer ≤ s.cfg.ticksPerBit + s.cfg.txStretchMax → s.cfg.wf →
      let gap := s.cfg.txGapBits * s.cfg.ticksPerBit
      ∃ lengths : List Nat, lengths.length = 10 * s.txFrames.length
        ∧ (∀ d, d ∈ lengths → s.cfg.ticksPerBit ≤ d ∧ d ≤ s.cfg.ticksPerBit + s.cfg.txStretchMax)
        ∧ (∀ j k d f, lengths[j]? = some d → k < d → s.txFrames[j / 10]? = some f →
            ∃ t, Host.Core.run Sys2Proof.core (bitStart lengths j + j / 10 * gap + k + 1) s = .next t
              ∧ t.txPin = .driven (f.getLsbD (j % 10)))
        ∧ ∀ i k, i + 1 < s.txFrames.length → k < gap →
            ∃ t, Host.Core.run Sys2Proof.core (bitStart lengths (10 * (i + 1)) + i * gap + k + 1) s = .next t
              ∧ t.txPin = .driven false

/-- R134, R137, R139, R140: a SEND of F frames in flight occupies the engine for its duration, and at most
TX_STRETCH_MAX ticks more for each of its 10 F bits, during which the consumer issues nothing; at its end the link is
idle again, unless it is disabled, and `EV_TX_DONE(F)` is emitted. That the model's own `txTotal` is F is what an
admission leaves (log entry 7; AdmittedSendQueuesItsFrames). -/
def Obligations.SendCompletesAfterItsDuration : Prop :=
  ∀ s : State,
    s.faulted = none → s.initDone = true → s.rxActive = false → s.txActive = true →
    (s.link = .txInProgress ∨ s.link = .disabled) → s.txGap = false → s.txBit = 0 →
    s.cfg.ticksPerBit ≤ s.txTimer → s.txTimer ≤ s.cfg.ticksPerBit + s.cfg.txStretchMax → s.cfg.wf →
    s.txFrames ≠ [] → s.txTotal = s.txFrames.length →
      ∃ n, sendDuration s.cfg s.txFrames.length ≤ n
        ∧ n ≤ sendDuration s.cfg s.txFrames.length + 10 * s.txFrames.length * s.cfg.txStretchMax
        ∧ (∀ m, m < n → ∃ u, Host.Core.run Sys2Proof.core m s = .next u ∧ u.txActive = true ∧ u.link = s.link
            ∧ u.env.consumer = s.env.consumer)
        ∧ ∃ t, Host.Core.run Sys2Proof.core n s = .next t
          ∧ t.txActive = false
          ∧ t.link = (if s.link = .txInProgress then .idle else .disabled)
          ∧ t.env.consumer = s.env.consumer
          ∧ (⟨s.env.tick + n - 1, s.env.instId, .txDone s.txFrames.length⟩ : TraceEntry) ∈ t.trace

/-- R157: the watchdog counts the ticks in which `RX_IN_PROGRESS` is idle, forces `IDLE` when k bit-periods are
reached, and is at 0 in every other tick. -/
def Obligations.WatchdogForcesIdleAfterItsTime : Prop :=
  ∀ (s : State) (k : Nat), s.faulted = none → s.initDone = true → s.cfg.rxTimeoutBits = some k →
    ((s.link = .rxInProgress ∧ s.rxActive = false) →
      (k * s.cfg.ticksPerBit ≤ s.rxIdleTicks + 1 →
        watchdogPhase s =
          { s with
            link := .idle
            startSeen := false
            rxIdleTicks := 0
            trace := s.trace ++ [⟨s.env.tick, s.env.instId, .rxTimeout⟩] })
      ∧ (s.rxIdleTicks + 1 < k * s.cfg.ticksPerBit →
        watchdogPhase s = { s with rxIdleTicks := s.rxIdleTicks + 1 }))
    ∧ (¬ (s.link = .rxInProgress ∧ s.rxActive = false) → watchdogPhase s = { s with rxIdleTicks := 0 })

/-- R156: without a watchdog, a receive whose end marker never comes stays `RX_IN_PROGRESS` for as long as the line stays
at 0 and the consumer issues nothing. -/
def Obligations.StuckReceiveStaysStuck : Prop :=
  ∀ (s : State) (n : Nat),
    s.faulted = none → s.initDone = true → s.link = .rxInProgress →
    s.rxActive = false → s.edgePend = false → s.txActive = false →
    s.cfg.rxTimeoutBits = none → s.env.consumer = [] → (∀ k, lineAt s k = .driven false) →
      ∃ t, Host.Core.run Sys2Proof.core n s = .next t
        ∧ t.link = .rxInProgress ∧ t.startSeen = s.startSeen ∧ t.cursor = s.cursor ∧ t.buf = s.buf
        ∧ t.trace = s.trace

/-- R272, for the defaults: with equal bit-periods and no stretch or gap, the sampling window is kept exactly when the
latency is at most half a bit-period less one tick. -/
def Obligations.SamplingWindowAtTheDefaults : Prop :=
  ∀ p latency : Nat, p % 2 = 0 → 2 ≤ p →
    (samplingWindow (List.replicate 10 p) p latency (List.replicate 9 0) (some (10 * p)) = true
      ↔ latency ≤ p / 2 - 1)

/-! ## The step -/

/-- A tick runs the command the consumer issues: when the word issued after phase 4 decodes to an operation and no SEND
blocks the consumer, the tick is that operation and then phases 6 and 7. -/
def Obligations.StepRunsTheIssuedCommand : Prop :=
  ∀ (s s4 : State) (cmd : CmdWord) (operand : List Byte) (rest : List ConsumerAction) (i : Instr),
    rxPhase (edgeDetect (linePhase (drivePhase s))) = .next s4 →
    s4.txActive = false → s4.env.consumer = .issue cmd operand :: rest →
    decode (.command cmd operand) = .ok i →
      step s = andThen (exec i { s4 with env := { s4.env with consumer := rest } })
        (fun s5 => .next (endTick (watchdogPhase (txPhase false s5))))

/-- A tick runs the frame whose receive completes in it: the byte is classified and its class runs before the
consumer's phase. -/
def Obligations.StepRunsTheReceivedFrame : Prop :=
  ∀ s : State, s.faulted = none → s.rxActive = true → s.rxTimer = 1 → s.rxBit = 8 →
    step s = andThen
      (exec (classify s.rxAcc)
        { edgeDetect (linePhase (drivePhase s)) with rxTimer := 0, rxActive := false, edgePend := false })
      (fun s4 => andThen (consumerPhase s4)
        (fun s5 => .next (endTick (watchdogPhase (txPhase s4.txActive s5)))))

/-- R229, V60.2: an edge taken in the same tick as a command comes first; a receive that starts holds the command
(R228), so nothing is returned. That the command is the consumer's next action again is the model's choice (log entry
6, DESIGN CHOICE: R228 only says a later tick), and that `asIssued` drops a surplus operand is log entry 4
(DEDUCED). -/
def Obligations.EdgeTakenFirstHoldsTheCommand : Prop :=
  ∀ (s : State) (cmd : CmdWord) (operand : List Byte) (rest : List ConsumerAction) (i : Instr),
    s.ready → s.edgeIE = true → s.txActive = false → s.listening → s.rxPrev = false →
    s.cfg.rxLatencyMax = 0 → lineAt s 0 = .driven true →
    s.env.consumer = .issue cmd operand :: rest → decode (.command cmd operand) = .ok i →
      ∃ t, step s = .next t ∧ t.rxActive = true ∧ t.rxBit = 0 ∧ t.link = s.link
        ∧ t.env.consumer = asIssued i ++ rest ∧ t.results = s.results

/-- R223: a tick of a faulted instance changes nothing but what lies outside it. -/
def Obligations.FaultedInstanceIsFrozen : Prop :=
  ∀ s : State, s.faulted ≠ none →
    ∃ t, step s = .next t ∧ t = { s with rxPin := t.rxPin, env := t.env } ∧ t.env.tick = s.env.tick + 1

/-- R47: no step changes the configuration. -/
def Obligations.ConfigurationNeverChanges : Prop :=
  ∀ s t : State, step s = .next t → t.cfg = s.cfg

/-- R36: no step clears `INVALID_INPUT` or `FAULTED`, nor replaces the first fault. -/
def Obligations.StickyMarksStay : Prop :=
  ∀ s t : State, step s = .next t →
    (s.invalidInput = true → t.invalidInput = true) ∧ (∀ k, s.faulted = some k → t.faulted = some k)

/-- R221: a tick only appends to the trace, and what it appends carries that tick and the instance. -/
def Obligations.TraceOnlyGrows : Prop :=
  ∀ s t : State, step s = .next t →
    ∃ l, t.trace = s.trace ++ l ∧ ∀ e, e ∈ l → e.tick = s.env.tick ∧ e.instId = s.env.instId

/-- R44: a tick never lowers `CURSOR` except to 0. -/
def Obligations.CursorFallsOnlyToZero : Prop :=
  ∀ s t : State, step s = .next t → t.cursor = 0 ∨ s.cursor ≤ t.cursor

/-- R150, R152: `DISABLED` is left only for `IDLE`, and only in a tick whose command is ENABLE or INIT. -/
def Obligations.DisabledIsLeftOnlyByCommand : Prop :=
  ∀ s t : State, Inv s → s.link = .disabled → step s = .next t → t.link ≠ .disabled →
    t.link = .idle
      ∧ ∃ operand rest, s.env.consumer = .issue 0x07 operand :: rest ∨ s.env.consumer = .issue 0x01 operand :: rest

/-- R134, R150: `TX_IN_PROGRESS` is left only for `IDLE`, and only in the last tick of the last stop bit. -/
def Obligations.TransmittingEndsOnlyAtCompletion : Prop :=
  ∀ s t : State, Inv s → s.initDone = true → s.link = .txInProgress → step s = .next t →
    (t.link = .txInProgress ∧ t.txActive = true)
    ∨ (t.link = .idle ∧ t.txActive = false
        ∧ s.txTimer = 1 ∧ s.txGap = false ∧ s.txBit = 9 ∧ s.txFrames.length = 1)

/-- R137, R154: while a SEND is in flight every tick completes, no byte is stored or classified, no receive runs, and the
consumer neither issues a command nor gets a result. -/
def Obligations.SendingExcludesReceiving : Prop :=
  ∀ s : State, Inv s → s.initDone = true → s.txActive = true →
    ∃ t, step s = .next t
      ∧ t.rxActive = false ∧ t.buf = s.buf ∧ t.cursor = s.cursor ∧ t.dataAvail = s.dataAvail ∧ t.ovf = s.ovf
      ∧ t.startSeen = s.startSeen ∧ t.env.consumer = s.env.consumer ∧ t.results = s.results

/-! ## Reset and the invariant -/

/-- R250: the values the spec gives for reset. -/
def Obligations.ResetValues : Prop :=
  State.reset.initDone = false ∧ State.reset.edgeIE = false ∧ State.reset.edgePend = false
    ∧ State.reset.rxActive = false ∧ State.reset.txActive = false ∧ State.reset.txFrames = []
    ∧ State.reset.invalidInput = false ∧ State.reset.faulted = none ∧ State.reset.trace = []
    ∧ State.reset.txPin = .undriven

/-- The invariant holds after reset, for the platform's configuration and for every other that R8 allows. -/
def Obligations.InvariantHoldsAtReset : Prop :=
  Inv State.reset ∧ ∀ (c : Config) (e : Env), c.wf → Inv (State.powerOn c e)

/-- R11, R41 to R44: every step keeps the invariant. -/
def Obligations.StepKeepsTheInvariant : Prop :=
  ∀ s t : State, Inv s → step s = .next t → Inv t

/-- R44, R60: in a state that keeps the invariant no step stops; READ_AND_CLEAR only ever reads slots that exist. -/
def Obligations.StepCompletesUnderTheInvariant : Prop :=
  ∀ s : State, Inv s → ∃ t, step s = .next t

/-- R39: the fields of the STATUS word. -/
def Obligations.StatusWordFields : Prop :=
  ∀ s : State,
    (statusWord s).extractLsb' 0 2 = linkCode s.link
      ∧ (statusWord s).getLsbD 2 = s.startSeen ∧ (statusWord s).getLsbD 3 = s.dataAvail
      ∧ (statusWord s).getLsbD 4 = s.ovf ∧ (statusWord s).getLsbD 5 = s.edgePend
      ∧ (statusWord s).getLsbD 6 = s.edgeIE ∧ (statusWord s).getLsbD 7 = s.initDone
      ∧ (statusWord s).getLsbD 8 = s.rxActive ∧ (statusWord s).getLsbD 9 = s.txActive
      ∧ (statusWord s).getLsbD 10 = s.invalidInput ∧ (statusWord s).getLsbD 11 = decide (s.faulted ≠ none)
      ∧ (statusWord s).extractLsb' 12 4 = 0

/-! ## Two instances -/

/-- R75, R236: over a dedicated link an instance's tick depends on its peer only through the peer's TX pin. -/
def Obligations.PeerIsSeenOnlyThroughItsPin : Prop :=
  ∀ y y' z z' : Pair, y.a = y'.a → y.a.cfg.lineTopology = .dedicated →
    (drivePhase y.b).txPin = (drivePhase y'.b).txPin →
    y.step = .next z → y'.step = .next z' → z.a = z'.a

/-- R237: what an RX pin carries in a tick. -/
def Obligations.LineCarriesWhatIsDriven : Prop :=
  ∀ y z : Pair, y.step = .next z →
    (y.a.cfg.lineTopology = .dedicated →
      (∀ v, z.a.txPin = .driven v → z.b.rxPin = v) ∧ (∀ v, z.b.txPin = .driven v → z.a.rxPin = v))
    ∧ (y.a.cfg.lineTopology = .shared →
      z.a.rxPin = z.b.rxPin
        ∧ (∀ v, z.a.txPin = .driven v → (z.b.txPin = .driven v ∨ z.b.txPin = .undriven) → z.a.rxPin = v)
        ∧ (∀ v, z.b.txPin = .driven v → z.a.txPin = .undriven → z.a.rxPin = v))

/-- R117, R139, R203 and the source's round trip: over a dedicated link with equal bit-periods and no latency, stretch or
gap, a message without reserved bytes that fits both ends is delivered whole, and the peer's READ_AND_CLEAR returns
exactly it. -/
def Obligations.MessageCrossesTheLink : Prop :=
  ∀ (y : Pair) (msg : List Byte) (rest : List ConsumerAction),
    y.a.cfg.lineTopology = .dedicated → y.a.cfg.wf → y.b.cfg.wf → y.a.cfg.ticksPerBit = y.b.cfg.ticksPerBit →
    y.a.cfg.txStretchMax = 0 → y.a.cfg.txGapBits = 0 → y.b.cfg.rxLatencyMax = 0 → y.b.cfg.rxStretchMax = 0 →
    y.a.ready → y.a.link = .idle → y.a.edgePend = false → y.a.txActive = false →
    y.a.env.consumer = .issue 0x02 msg :: rest →
    y.b.ready → y.b.listening → y.b.edgeIE = true → y.b.edgePend = false → y.b.txActive = false →
    y.b.env.consumer = [] →
    (∀ b, b ∈ msg → b ≠ stx ∧ b ≠ etx) → msg.length ≤ y.a.cfg.maxTransmitLen →
    msg.length + 1 ≤ y.b.cfg.rxCapacity →
      ∃ z w, Pair.run (10 * y.a.cfg.ticksPerBit * (msg.length + 2) + 1) y = .next z
        ∧ z.a.txActive = false ∧ z.a.link = .idle ∧ z.a.env.consumer = rest
        ∧ z.b.dataAvail = true ∧ z.b.link = .idle
        ∧ exec .readAndClear z.b = .next w ∧ w.results = y.b.results ++ [.bytes msg]
end

