-- ==== Sys2Proof/Laws/Memory.lean ====
section
/-! SUPPORT. The Receive Buffer's memory: reading after writing, the canonical form, and the list of slots that
READ_AND_CLEAR reads. -/

namespace Sys2Proof.Machine

/-! ## One slot -/

/-- A slot reads as what was written to it. -/
@[simp] theorem slotRead_slotWrite_same (m : List Host.Cell) (i : Nat) (v : Byte) :
    slotRead (slotWrite m i v) i = some v := by
  induction m with
  | nil => simp [slotWrite, slotRead]
  | cons c m ih =>
    obtain ⟨a, b⟩ := c
    unfold slotWrite
    split
    · simp [slotRead]
    · split
      · simp [slotRead]
      · rename_i h1 h2
        simp [slotRead, ih, Ne.symm h2]

/-- Writing a slot leaves every other slot alone. -/
theorem slotRead_slotWrite_other (m : List Host.Cell) (i j : Nat) (v : Byte) (h : j ≠ i) :
    slotRead (slotWrite m i v) j = slotRead m j := by
  induction m with
  | nil => simp [slotWrite, slotRead, Ne.symm h]
  | cons c m ih =>
    obtain ⟨a, b⟩ := c
    unfold slotWrite
    split
    · simp [slotRead, Ne.symm h]
    · split
      · rename_i h1 h2
        subst h2
        simp [slotRead, Ne.symm h]
      · simp only [slotRead, ih]

/-- Both cases at once. -/
theorem slotRead_slotWrite (m : List Host.Cell) (i j : Nat) (v : Byte) :
    slotRead (slotWrite m i v) j = if j = i then some v else slotRead m j := by
  by_cases h : j = i
  · simp [h]
  · simp [h, slotRead_slotWrite_other]

/-! ## The canonical form -/

/-- The canonical form of a longer list. -/
theorem Memory.wf_cons (a : Nat) (b : Byte) (m : List Host.Cell) :
    Memory.wf ((a, b) :: m) = true ↔ (∀ c ∈ m.head?, a < c.1) ∧ Memory.wf m = true := by
  cases m with
  | nil => simp [Memory.wf]
  | cons c m => obtain ⟨a', b'⟩ := c; simp [Memory.wf]

/-- The first address after a write is the written one or the old first one. -/
theorem slotWrite_head (m : List Host.Cell) (i : Nat) (v : Byte) :
    ∀ c ∈ (slotWrite m i v).head?, c.1 = i ∨ ∃ d ∈ m.head?, c.1 = d.1 := by
  cases m with
  | nil => simp [slotWrite]
  | cons c m =>
    obtain ⟨a, b⟩ := c
    unfold slotWrite
    split
    · simp
    · split <;> simp

/-- A write keeps the canonical form. -/
theorem slotWrite_wf (m : List Host.Cell) (i : Nat) (v : Byte) (h : Memory.wf m = true) :
    Memory.wf (slotWrite m i v) = true := by
  induction m with
  | nil => rfl
  | cons c m ih =>
    obtain ⟨a, b⟩ := c
    have hm := (Memory.wf_cons a b m).1 h
    unfold slotWrite
    split
    · rw [Memory.wf_cons]
      exact ⟨by simpa using ‹i < a›, h⟩
    · split
      · rename_i h1 h2
        rw [Memory.wf_cons, h2]
        exact hm
      · rename_i h1 h2
        rw [Memory.wf_cons]
        refine ⟨fun c hc => ?_, ih hm.2⟩
        rcases slotWrite_head m i v c hc with h3 | ⟨d, hd, h3⟩
        · omega
        · rw [h3]; exact hm.1 d hd

/-- The addresses of a canonical list after its first are above it. -/
theorem slotRead_below (a : Nat) (b : Byte) (m : List Host.Cell) (h : Memory.wf ((a, b) :: m) = true) (i : Nat)
    (hi : i ≤ a) : slotRead m i = none := by
  induction m generalizing a b with
  | nil => rfl
  | cons c m ih =>
    obtain ⟨a', b'⟩ := c
    have h' := (Memory.wf_cons a b _).1 h
    have h1 : a < a' := h'.1 (a', b') (by simp)
    simp only [slotRead, if_neg (show ¬ a' = i by omega)]
    exact ih a' b' h'.2 (by omega)

/-- Equal memories are equal data: two canonical lists that read alike everywhere are the same list. -/
theorem slotRead_ext (m n : List Host.Cell) (hm : Memory.wf m = true) (hn : Memory.wf n = true)
    (h : ∀ i, slotRead m i = slotRead n i) : m = n := by
  induction m generalizing n with
  | nil =>
    cases n with
    | nil => rfl
    | cons c n => obtain ⟨a, b⟩ := c; have := h a; simp [slotRead] at this
  | cons c m ih =>
    obtain ⟨a, b⟩ := c
    cases n with
    | nil => have := h a; simp [slotRead] at this
    | cons d n =>
      obtain ⟨a', b'⟩ := d
      have haa : a = a' := by
        rcases Nat.lt_trichotomy a a' with hlt | heq | hgt
        · have := h a
          rw [show slotRead ((a', b') :: n) a = slotRead n a by simp [slotRead, show ¬ a' = a by omega],
            slotRead_below a' b' n hn a (by omega)] at this
          simp [slotRead] at this
        · exact heq
        · have := h a'
          rw [show slotRead ((a, b) :: m) a' = slotRead m a' by simp [slotRead, show ¬ a = a' by omega],
            slotRead_below a b m hm a' (by omega)] at this
          simp [slotRead] at this
      subst haa
      have hbb : b = b' := by have := h a; simpa [slotRead] using this
      subst hbb
      congr 1
      refine ih n ((Memory.wf_cons _ _ _).1 hm).2 ((Memory.wf_cons _ _ _).1 hn).2 fun i => ?_
      by_cases hi : a = i
      · subst hi
        rw [slotRead_below a b m hm a (le_refl a), slotRead_below a b n hn a (le_refl a)]
      · have := h i
        simpa [slotRead, hi] using this

/-! ## The slots READ_AND_CLEAR reads -/

/-- A written slot holds what was written to it (R32). -/
theorem slotValue_written (s : State) (i : Nat) (b : Byte) (h : slotRead s.buf i = some b) : slotValue s i = b := by
  simp [slotValue, h]

/-- What `memRead` answers: a slot below N always has a value (R60, R67). -/
theorem memRead_ok (s : State) (i : Nat) (b : Byte) :
    memRead s i = .ok b ↔ i < s.cfg.rxCapacity ∧ slotValue s i = b := by
  unfold memRead
  split <;> simp [*]

/-- `memReadList` answers the bytes of the first `k` slots, in index order, exactly when each of them exists. -/
theorem memReadList_ok (s : State) (k : Nat) (l : List Byte) :
    memReadList s k = .ok l ↔ l.length = k ∧ ∀ i (h : i < l.length), memRead s i = .ok l[i] := by
  induction k generalizing l with
  | zero =>
    cases l with
    | nil => simp [memReadList]
    | cons b l => simp [memReadList]
  | succ k ih =>
    unfold memReadList
    cases hl : memReadList s k with
    | error r =>
      simp only [reduceCtorEq, false_iff, not_and]
      intro hlen hall
      have : memReadList s k = .ok (l.take k) := (ih _).2
        ⟨by simp; omega, fun i h => by
          rw [List.getElem_take]; exact hall i (by simp at h; omega)⟩
      simp [hl] at this
    | ok l0 =>
      have h0 := (ih l0).1 hl
      simp only
      cases hb : memRead s k with
      | error r =>
        simp only [reduceCtorEq, false_iff, not_and]
        intro hlen hall
        have := hall k (by omega)
        simp [hb] at this
      | ok b =>
        simp only [Except.ok.injEq]
        constructor
        · rintro rfl
          refine ⟨by simp [h0.1], fun i h => ?_⟩
          by_cases hi : i < l0.length
          · rw [List.getElem_append_left hi]; exact h0.2 i hi
          · have hik : i = k := by simp at h; omega
            subst hik
            rw [List.getElem_append_right (by omega)]
            simpa using hb
        · rintro ⟨hlen, hall⟩
          apply List.ext_getElem
          · simp [h0.1, hlen]
          · intro i h1 h2
            have hi := hall i h2
            by_cases hi0 : i < l0.length
            · rw [List.getElem_append_left hi0]
              have := h0.2 i hi0
              rw [hi] at this
              exact (Except.ok.inj this).symm
            · have hik : i = k := by omega
              subst hik
              rw [List.getElem_append_right (by omega)]
              rw [hi] at hb
              simpa using (Except.ok.inj hb).symm

/-- A prefix of the slots that exist is read whole (R203). -/
theorem memReadList_eq (s : State) (k : Nat) (h : k ≤ s.cfg.rxCapacity) :
    memReadList s k = .ok ((List.range k).map (slotValue s)) := by
  refine (memReadList_ok _ _ _).2 ⟨by simp, fun i hi => ?_⟩
  simp only [List.length_map, List.length_range] at hi
  exact (memRead_ok _ _ _).2 ⟨by omega, by simp⟩

/-- A prefix longer than the buffer stops at the first index that is no slot (R60). -/
theorem memReadList_past (s : State) (k : Nat) (h : s.cfg.rxCapacity < k) :
    memReadList s k = .error (.noSuchSlot s.cfg.rxCapacity) := by
  induction k with
  | zero => omega
  | succ k ih =>
    by_cases hk : s.cfg.rxCapacity < k
    · simp [memReadList, ih hk]
    · have hk : k = s.cfg.rxCapacity := by omega
      subst hk
      simp [memReadList, memReadList_eq s _ (Nat.le_refl _), memRead]

end Sys2Proof.Machine
end

