-- ==== Sys2Proof/Laws/State.lean ====
section
/-! SUPPORT. For each update of the state, the value of each field after it. -/

namespace Sys2Proof.Machine

variable (s : State)


/-! ### `emit` -/

@[simp] theorem emit_link (e : Event) : (emit e s).link = s.link := rfl
@[simp] theorem emit_startSeen (e : Event) : (emit e s).startSeen = s.startSeen := rfl
@[simp] theorem emit_dataAvail (e : Event) : (emit e s).dataAvail = s.dataAvail := rfl
@[simp] theorem emit_ovf (e : Event) : (emit e s).ovf = s.ovf := rfl
@[simp] theorem emit_edgePend (e : Event) : (emit e s).edgePend = s.edgePend := rfl
@[simp] theorem emit_edgeIE (e : Event) : (emit e s).edgeIE = s.edgeIE := rfl
@[simp] theorem emit_initDone (e : Event) : (emit e s).initDone = s.initDone := rfl
@[simp] theorem emit_cursor (e : Event) : (emit e s).cursor = s.cursor := rfl
@[simp] theorem emit_buf (e : Event) : (emit e s).buf = s.buf := rfl
@[simp] theorem emit_rxActive (e : Event) : (emit e s).rxActive = s.rxActive := rfl
@[simp] theorem emit_rxAcc (e : Event) : (emit e s).rxAcc = s.rxAcc := rfl
@[simp] theorem emit_rxBit (e : Event) : (emit e s).rxBit = s.rxBit := rfl
@[simp] theorem emit_rxTimer (e : Event) : (emit e s).rxTimer = s.rxTimer := rfl
@[simp] theorem emit_rxWaited (e : Event) : (emit e s).rxWaited = s.rxWaited := rfl
@[simp] theorem emit_txActive (e : Event) : (emit e s).txActive = s.txActive := rfl
@[simp] theorem emit_txFrames (e : Event) : (emit e s).txFrames = s.txFrames := rfl
@[simp] theorem emit_txBit (e : Event) : (emit e s).txBit = s.txBit := rfl
@[simp] theorem emit_txTimer (e : Event) : (emit e s).txTimer = s.txTimer := rfl
@[simp] theorem emit_txGap (e : Event) : (emit e s).txGap = s.txGap := rfl
@[simp] theorem emit_txPin (e : Event) : (emit e s).txPin = s.txPin := rfl
@[simp] theorem emit_rxPin (e : Event) : (emit e s).rxPin = s.rxPin := rfl
@[simp] theorem emit_rxPrev (e : Event) : (emit e s).rxPrev = s.rxPrev := rfl
@[simp] theorem emit_invalidInput (e : Event) : (emit e s).invalidInput = s.invalidInput := rfl
@[simp] theorem emit_faulted (e : Event) : (emit e s).faulted = s.faulted := rfl
@[simp] theorem emit_rxIdleTicks (e : Event) : (emit e s).rxIdleTicks = s.rxIdleTicks := rfl
@[simp] theorem emit_trace (e : Event) : (emit e s).trace = s.trace ++ [{ tick := s.env.tick, instId := s.env.instId, event := e }] := rfl
@[simp] theorem emit_txTotal (e : Event) : (emit e s).txTotal = s.txTotal := rfl
@[simp] theorem emit_results (e : Event) : (emit e s).results = s.results := rfl
@[simp] theorem emit_cfg (e : Event) : (emit e s).cfg = s.cfg := rfl
@[simp] theorem emit_env (e : Event) : (emit e s).env = s.env := rfl

/-! ### `clearBuffer` -/

@[simp] theorem clearBuffer_link : (clearBuffer s).link = s.link := rfl
@[simp] theorem clearBuffer_startSeen : (clearBuffer s).startSeen = s.startSeen := rfl
@[simp] theorem clearBuffer_dataAvail : (clearBuffer s).dataAvail = false := rfl
@[simp] theorem clearBuffer_ovf : (clearBuffer s).ovf = false := rfl
@[simp] theorem clearBuffer_edgePend : (clearBuffer s).edgePend = s.edgePend := rfl
@[simp] theorem clearBuffer_edgeIE : (clearBuffer s).edgeIE = s.edgeIE := rfl
@[simp] theorem clearBuffer_initDone : (clearBuffer s).initDone = s.initDone := rfl
@[simp] theorem clearBuffer_cursor : (clearBuffer s).cursor = 0 := rfl
@[simp] theorem clearBuffer_buf : (clearBuffer s).buf = s.buf := rfl
@[simp] theorem clearBuffer_rxActive : (clearBuffer s).rxActive = s.rxActive := rfl
@[simp] theorem clearBuffer_rxAcc : (clearBuffer s).rxAcc = s.rxAcc := rfl
@[simp] theorem clearBuffer_rxBit : (clearBuffer s).rxBit = s.rxBit := rfl
@[simp] theorem clearBuffer_rxTimer : (clearBuffer s).rxTimer = s.rxTimer := rfl
@[simp] theorem clearBuffer_rxWaited : (clearBuffer s).rxWaited = s.rxWaited := rfl
@[simp] theorem clearBuffer_txActive : (clearBuffer s).txActive = s.txActive := rfl
@[simp] theorem clearBuffer_txFrames : (clearBuffer s).txFrames = s.txFrames := rfl
@[simp] theorem clearBuffer_txBit : (clearBuffer s).txBit = s.txBit := rfl
@[simp] theorem clearBuffer_txTimer : (clearBuffer s).txTimer = s.txTimer := rfl
@[simp] theorem clearBuffer_txGap : (clearBuffer s).txGap = s.txGap := rfl
@[simp] theorem clearBuffer_txPin : (clearBuffer s).txPin = s.txPin := rfl
@[simp] theorem clearBuffer_rxPin : (clearBuffer s).rxPin = s.rxPin := rfl
@[simp] theorem clearBuffer_rxPrev : (clearBuffer s).rxPrev = s.rxPrev := rfl
@[simp] theorem clearBuffer_invalidInput : (clearBuffer s).invalidInput = s.invalidInput := rfl
@[simp] theorem clearBuffer_faulted : (clearBuffer s).faulted = s.faulted := rfl
@[simp] theorem clearBuffer_rxIdleTicks : (clearBuffer s).rxIdleTicks = s.rxIdleTicks := rfl
@[simp] theorem clearBuffer_trace : (clearBuffer s).trace = s.trace := rfl
@[simp] theorem clearBuffer_txTotal : (clearBuffer s).txTotal = s.txTotal := rfl
@[simp] theorem clearBuffer_results : (clearBuffer s).results = s.results := rfl
@[simp] theorem clearBuffer_cfg : (clearBuffer s).cfg = s.cfg := rfl
@[simp] theorem clearBuffer_env : (clearBuffer s).env = s.env := rfl

/-! ### `giveResult` -/

@[simp] theorem giveResult_link (r : Result) : (giveResult r s).link = s.link := rfl
@[simp] theorem giveResult_startSeen (r : Result) : (giveResult r s).startSeen = s.startSeen := rfl
@[simp] theorem giveResult_dataAvail (r : Result) : (giveResult r s).dataAvail = s.dataAvail := rfl
@[simp] theorem giveResult_ovf (r : Result) : (giveResult r s).ovf = s.ovf := rfl
@[simp] theorem giveResult_edgePend (r : Result) : (giveResult r s).edgePend = s.edgePend := rfl
@[simp] theorem giveResult_edgeIE (r : Result) : (giveResult r s).edgeIE = s.edgeIE := rfl
@[simp] theorem giveResult_initDone (r : Result) : (giveResult r s).initDone = s.initDone := rfl
@[simp] theorem giveResult_cursor (r : Result) : (giveResult r s).cursor = s.cursor := rfl
@[simp] theorem giveResult_buf (r : Result) : (giveResult r s).buf = s.buf := rfl
@[simp] theorem giveResult_rxActive (r : Result) : (giveResult r s).rxActive = s.rxActive := rfl
@[simp] theorem giveResult_rxAcc (r : Result) : (giveResult r s).rxAcc = s.rxAcc := rfl
@[simp] theorem giveResult_rxBit (r : Result) : (giveResult r s).rxBit = s.rxBit := rfl
@[simp] theorem giveResult_rxTimer (r : Result) : (giveResult r s).rxTimer = s.rxTimer := rfl
@[simp] theorem giveResult_rxWaited (r : Result) : (giveResult r s).rxWaited = s.rxWaited := rfl
@[simp] theorem giveResult_txActive (r : Result) : (giveResult r s).txActive = s.txActive := rfl
@[simp] theorem giveResult_txFrames (r : Result) : (giveResult r s).txFrames = s.txFrames := rfl
@[simp] theorem giveResult_txBit (r : Result) : (giveResult r s).txBit = s.txBit := rfl
@[simp] theorem giveResult_txTimer (r : Result) : (giveResult r s).txTimer = s.txTimer := rfl
@[simp] theorem giveResult_txGap (r : Result) : (giveResult r s).txGap = s.txGap := rfl
@[simp] theorem giveResult_txPin (r : Result) : (giveResult r s).txPin = s.txPin := rfl
@[simp] theorem giveResult_rxPin (r : Result) : (giveResult r s).rxPin = s.rxPin := rfl
@[simp] theorem giveResult_rxPrev (r : Result) : (giveResult r s).rxPrev = s.rxPrev := rfl
@[simp] theorem giveResult_invalidInput (r : Result) : (giveResult r s).invalidInput = s.invalidInput := rfl
@[simp] theorem giveResult_faulted (r : Result) : (giveResult r s).faulted = s.faulted := rfl
@[simp] theorem giveResult_rxIdleTicks (r : Result) : (giveResult r s).rxIdleTicks = s.rxIdleTicks := rfl
@[simp] theorem giveResult_trace (r : Result) : (giveResult r s).trace = s.trace := rfl
@[simp] theorem giveResult_txTotal (r : Result) : (giveResult r s).txTotal = s.txTotal := rfl
@[simp] theorem giveResult_results (r : Result) : (giveResult r s).results = s.results ++ [r] := rfl
@[simp] theorem giveResult_cfg (r : Result) : (giveResult r s).cfg = s.cfg := rfl
@[simp] theorem giveResult_env (r : Result) : (giveResult r s).env = s.env := rfl

/-! ### `reportOverflow` -/

@[simp] theorem reportOverflow_link (b : Byte) : (reportOverflow b s).link = s.link := rfl
@[simp] theorem reportOverflow_startSeen (b : Byte) : (reportOverflow b s).startSeen = s.startSeen := rfl
@[simp] theorem reportOverflow_dataAvail (b : Byte) : (reportOverflow b s).dataAvail = s.dataAvail := rfl
@[simp] theorem reportOverflow_ovf (b : Byte) : (reportOverflow b s).ovf = true := rfl
@[simp] theorem reportOverflow_edgePend (b : Byte) : (reportOverflow b s).edgePend = s.edgePend := rfl
@[simp] theorem reportOverflow_edgeIE (b : Byte) : (reportOverflow b s).edgeIE = s.edgeIE := rfl
@[simp] theorem reportOverflow_initDone (b : Byte) : (reportOverflow b s).initDone = s.initDone := rfl
@[simp] theorem reportOverflow_cursor (b : Byte) : (reportOverflow b s).cursor = s.cursor := rfl
@[simp] theorem reportOverflow_buf (b : Byte) : (reportOverflow b s).buf = s.buf := rfl
@[simp] theorem reportOverflow_rxActive (b : Byte) : (reportOverflow b s).rxActive = s.rxActive := rfl
@[simp] theorem reportOverflow_rxAcc (b : Byte) : (reportOverflow b s).rxAcc = s.rxAcc := rfl
@[simp] theorem reportOverflow_rxBit (b : Byte) : (reportOverflow b s).rxBit = s.rxBit := rfl
@[simp] theorem reportOverflow_rxTimer (b : Byte) : (reportOverflow b s).rxTimer = s.rxTimer := rfl
@[simp] theorem reportOverflow_rxWaited (b : Byte) : (reportOverflow b s).rxWaited = s.rxWaited := rfl
@[simp] theorem reportOverflow_txActive (b : Byte) : (reportOverflow b s).txActive = s.txActive := rfl
@[simp] theorem reportOverflow_txFrames (b : Byte) : (reportOverflow b s).txFrames = s.txFrames := rfl
@[simp] theorem reportOverflow_txBit (b : Byte) : (reportOverflow b s).txBit = s.txBit := rfl
@[simp] theorem reportOverflow_txTimer (b : Byte) : (reportOverflow b s).txTimer = s.txTimer := rfl
@[simp] theorem reportOverflow_txGap (b : Byte) : (reportOverflow b s).txGap = s.txGap := rfl
@[simp] theorem reportOverflow_txPin (b : Byte) : (reportOverflow b s).txPin = s.txPin := rfl
@[simp] theorem reportOverflow_rxPin (b : Byte) : (reportOverflow b s).rxPin = s.rxPin := rfl
@[simp] theorem reportOverflow_rxPrev (b : Byte) : (reportOverflow b s).rxPrev = s.rxPrev := rfl
@[simp] theorem reportOverflow_invalidInput (b : Byte) : (reportOverflow b s).invalidInput = s.invalidInput := rfl
@[simp] theorem reportOverflow_faulted (b : Byte) : (reportOverflow b s).faulted = s.faulted := rfl
@[simp] theorem reportOverflow_rxIdleTicks (b : Byte) : (reportOverflow b s).rxIdleTicks = s.rxIdleTicks := rfl
@[simp] theorem reportOverflow_trace (b : Byte) : (reportOverflow b s).trace = s.trace ++ [{ tick := s.env.tick, instId := s.env.instId, event := .overflow b }] := rfl
@[simp] theorem reportOverflow_txTotal (b : Byte) : (reportOverflow b s).txTotal = s.txTotal := rfl
@[simp] theorem reportOverflow_results (b : Byte) : (reportOverflow b s).results = s.results := rfl
@[simp] theorem reportOverflow_cfg (b : Byte) : (reportOverflow b s).cfg = s.cfg := rfl
@[simp] theorem reportOverflow_env (b : Byte) : (reportOverflow b s).env = s.env := rfl

/-! ### `hold` -/

@[simp] theorem hold_link (i : Instr) : (hold i s).link = s.link := rfl
@[simp] theorem hold_startSeen (i : Instr) : (hold i s).startSeen = s.startSeen := rfl
@[simp] theorem hold_dataAvail (i : Instr) : (hold i s).dataAvail = s.dataAvail := rfl
@[simp] theorem hold_ovf (i : Instr) : (hold i s).ovf = s.ovf := rfl
@[simp] theorem hold_edgePend (i : Instr) : (hold i s).edgePend = s.edgePend := rfl
@[simp] theorem hold_edgeIE (i : Instr) : (hold i s).edgeIE = s.edgeIE := rfl
@[simp] theorem hold_initDone (i : Instr) : (hold i s).initDone = s.initDone := rfl
@[simp] theorem hold_cursor (i : Instr) : (hold i s).cursor = s.cursor := rfl
@[simp] theorem hold_buf (i : Instr) : (hold i s).buf = s.buf := rfl
@[simp] theorem hold_rxActive (i : Instr) : (hold i s).rxActive = s.rxActive := rfl
@[simp] theorem hold_rxAcc (i : Instr) : (hold i s).rxAcc = s.rxAcc := rfl
@[simp] theorem hold_rxBit (i : Instr) : (hold i s).rxBit = s.rxBit := rfl
@[simp] theorem hold_rxTimer (i : Instr) : (hold i s).rxTimer = s.rxTimer := rfl
@[simp] theorem hold_rxWaited (i : Instr) : (hold i s).rxWaited = s.rxWaited := rfl
@[simp] theorem hold_txActive (i : Instr) : (hold i s).txActive = s.txActive := rfl
@[simp] theorem hold_txFrames (i : Instr) : (hold i s).txFrames = s.txFrames := rfl
@[simp] theorem hold_txBit (i : Instr) : (hold i s).txBit = s.txBit := rfl
@[simp] theorem hold_txTimer (i : Instr) : (hold i s).txTimer = s.txTimer := rfl
@[simp] theorem hold_txGap (i : Instr) : (hold i s).txGap = s.txGap := rfl
@[simp] theorem hold_txPin (i : Instr) : (hold i s).txPin = s.txPin := rfl
@[simp] theorem hold_rxPin (i : Instr) : (hold i s).rxPin = s.rxPin := rfl
@[simp] theorem hold_rxPrev (i : Instr) : (hold i s).rxPrev = s.rxPrev := rfl
@[simp] theorem hold_invalidInput (i : Instr) : (hold i s).invalidInput = s.invalidInput := rfl
@[simp] theorem hold_faulted (i : Instr) : (hold i s).faulted = s.faulted := rfl
@[simp] theorem hold_rxIdleTicks (i : Instr) : (hold i s).rxIdleTicks = s.rxIdleTicks := rfl
@[simp] theorem hold_trace (i : Instr) : (hold i s).trace = s.trace := rfl
@[simp] theorem hold_txTotal (i : Instr) : (hold i s).txTotal = s.txTotal := rfl
@[simp] theorem hold_results (i : Instr) : (hold i s).results = s.results := rfl
@[simp] theorem hold_cfg (i : Instr) : (hold i s).cfg = s.cfg := rfl
@[simp] theorem hold_env (i : Instr) : (hold i s).env = { s.env with consumer := asIssued i ++ s.env.consumer } := rfl

/-! ### `popConsumer` -/

@[simp] theorem popConsumer_link : (popConsumer s).link = s.link := rfl
@[simp] theorem popConsumer_startSeen : (popConsumer s).startSeen = s.startSeen := rfl
@[simp] theorem popConsumer_dataAvail : (popConsumer s).dataAvail = s.dataAvail := rfl
@[simp] theorem popConsumer_ovf : (popConsumer s).ovf = s.ovf := rfl
@[simp] theorem popConsumer_edgePend : (popConsumer s).edgePend = s.edgePend := rfl
@[simp] theorem popConsumer_edgeIE : (popConsumer s).edgeIE = s.edgeIE := rfl
@[simp] theorem popConsumer_initDone : (popConsumer s).initDone = s.initDone := rfl
@[simp] theorem popConsumer_cursor : (popConsumer s).cursor = s.cursor := rfl
@[simp] theorem popConsumer_buf : (popConsumer s).buf = s.buf := rfl
@[simp] theorem popConsumer_rxActive : (popConsumer s).rxActive = s.rxActive := rfl
@[simp] theorem popConsumer_rxAcc : (popConsumer s).rxAcc = s.rxAcc := rfl
@[simp] theorem popConsumer_rxBit : (popConsumer s).rxBit = s.rxBit := rfl
@[simp] theorem popConsumer_rxTimer : (popConsumer s).rxTimer = s.rxTimer := rfl
@[simp] theorem popConsumer_rxWaited : (popConsumer s).rxWaited = s.rxWaited := rfl
@[simp] theorem popConsumer_txActive : (popConsumer s).txActive = s.txActive := rfl
@[simp] theorem popConsumer_txFrames : (popConsumer s).txFrames = s.txFrames := rfl
@[simp] theorem popConsumer_txBit : (popConsumer s).txBit = s.txBit := rfl
@[simp] theorem popConsumer_txTimer : (popConsumer s).txTimer = s.txTimer := rfl
@[simp] theorem popConsumer_txGap : (popConsumer s).txGap = s.txGap := rfl
@[simp] theorem popConsumer_txPin : (popConsumer s).txPin = s.txPin := rfl
@[simp] theorem popConsumer_rxPin : (popConsumer s).rxPin = s.rxPin := rfl
@[simp] theorem popConsumer_rxPrev : (popConsumer s).rxPrev = s.rxPrev := rfl
@[simp] theorem popConsumer_invalidInput : (popConsumer s).invalidInput = s.invalidInput := rfl
@[simp] theorem popConsumer_faulted : (popConsumer s).faulted = s.faulted := rfl
@[simp] theorem popConsumer_rxIdleTicks : (popConsumer s).rxIdleTicks = s.rxIdleTicks := rfl
@[simp] theorem popConsumer_trace : (popConsumer s).trace = s.trace := rfl
@[simp] theorem popConsumer_txTotal : (popConsumer s).txTotal = s.txTotal := rfl
@[simp] theorem popConsumer_results : (popConsumer s).results = s.results := rfl
@[simp] theorem popConsumer_cfg : (popConsumer s).cfg = s.cfg := rfl
@[simp] theorem popConsumer_env : (popConsumer s).env = { s.env with consumer := s.env.consumer.tail } := rfl

/-! ### `endTick` -/

@[simp] theorem endTick_link : (endTick s).link = s.link := rfl
@[simp] theorem endTick_startSeen : (endTick s).startSeen = s.startSeen := rfl
@[simp] theorem endTick_dataAvail : (endTick s).dataAvail = s.dataAvail := rfl
@[simp] theorem endTick_ovf : (endTick s).ovf = s.ovf := rfl
@[simp] theorem endTick_edgePend : (endTick s).edgePend = s.edgePend := rfl
@[simp] theorem endTick_edgeIE : (endTick s).edgeIE = s.edgeIE := rfl
@[simp] theorem endTick_initDone : (endTick s).initDone = s.initDone := rfl
@[simp] theorem endTick_cursor : (endTick s).cursor = s.cursor := rfl
@[simp] theorem endTick_buf : (endTick s).buf = s.buf := rfl
@[simp] theorem endTick_rxActive : (endTick s).rxActive = s.rxActive := rfl
@[simp] theorem endTick_rxAcc : (endTick s).rxAcc = s.rxAcc := rfl
@[simp] theorem endTick_rxBit : (endTick s).rxBit = s.rxBit := rfl
@[simp] theorem endTick_rxTimer : (endTick s).rxTimer = s.rxTimer := rfl
@[simp] theorem endTick_rxWaited : (endTick s).rxWaited = s.rxWaited := rfl
@[simp] theorem endTick_txActive : (endTick s).txActive = s.txActive := rfl
@[simp] theorem endTick_txFrames : (endTick s).txFrames = s.txFrames := rfl
@[simp] theorem endTick_txBit : (endTick s).txBit = s.txBit := rfl
@[simp] theorem endTick_txTimer : (endTick s).txTimer = s.txTimer := rfl
@[simp] theorem endTick_txGap : (endTick s).txGap = s.txGap := rfl
@[simp] theorem endTick_txPin : (endTick s).txPin = s.txPin := rfl
@[simp] theorem endTick_rxPin : (endTick s).rxPin = s.rxPin := rfl
@[simp] theorem endTick_rxPrev : (endTick s).rxPrev = s.rxPrev := rfl
@[simp] theorem endTick_invalidInput : (endTick s).invalidInput = s.invalidInput := rfl
@[simp] theorem endTick_faulted : (endTick s).faulted = s.faulted := rfl
@[simp] theorem endTick_rxIdleTicks : (endTick s).rxIdleTicks = s.rxIdleTicks := rfl
@[simp] theorem endTick_trace : (endTick s).trace = s.trace := rfl
@[simp] theorem endTick_txTotal : (endTick s).txTotal = s.txTotal := rfl
@[simp] theorem endTick_results : (endTick s).results = s.results := rfl
@[simp] theorem endTick_cfg : (endTick s).cfg = s.cfg := rfl
@[simp] theorem endTick_env : (endTick s).env = { s.env with tick := s.env.tick + 1 } := rfl

/-! ### `handlerReturn` -/

@[simp] theorem handlerReturn_link : (handlerReturn s).link = s.link := rfl
@[simp] theorem handlerReturn_startSeen : (handlerReturn s).startSeen = s.startSeen := rfl
@[simp] theorem handlerReturn_dataAvail : (handlerReturn s).dataAvail = s.dataAvail := rfl
@[simp] theorem handlerReturn_ovf : (handlerReturn s).ovf = s.ovf := rfl
@[simp] theorem handlerReturn_edgePend : (handlerReturn s).edgePend = false := rfl
@[simp] theorem handlerReturn_edgeIE : (handlerReturn s).edgeIE = s.edgeIE := rfl
@[simp] theorem handlerReturn_initDone : (handlerReturn s).initDone = s.initDone := rfl
@[simp] theorem handlerReturn_cursor : (handlerReturn s).cursor = s.cursor := rfl
@[simp] theorem handlerReturn_buf : (handlerReturn s).buf = s.buf := rfl
@[simp] theorem handlerReturn_rxActive : (handlerReturn s).rxActive = false := rfl
@[simp] theorem handlerReturn_rxAcc : (handlerReturn s).rxAcc = s.rxAcc := rfl
@[simp] theorem handlerReturn_rxBit : (handlerReturn s).rxBit = s.rxBit := rfl
@[simp] theorem handlerReturn_rxTimer : (handlerReturn s).rxTimer = s.rxTimer := rfl
@[simp] theorem handlerReturn_rxWaited : (handlerReturn s).rxWaited = s.rxWaited := rfl
@[simp] theorem handlerReturn_txActive : (handlerReturn s).txActive = s.txActive := rfl
@[simp] theorem handlerReturn_txFrames : (handlerReturn s).txFrames = s.txFrames := rfl
@[simp] theorem handlerReturn_txBit : (handlerReturn s).txBit = s.txBit := rfl
@[simp] theorem handlerReturn_txTimer : (handlerReturn s).txTimer = s.txTimer := rfl
@[simp] theorem handlerReturn_txGap : (handlerReturn s).txGap = s.txGap := rfl
@[simp] theorem handlerReturn_txPin : (handlerReturn s).txPin = s.txPin := rfl
@[simp] theorem handlerReturn_rxPin : (handlerReturn s).rxPin = s.rxPin := rfl
@[simp] theorem handlerReturn_rxPrev : (handlerReturn s).rxPrev = s.rxPrev := rfl
@[simp] theorem handlerReturn_invalidInput : (handlerReturn s).invalidInput = s.invalidInput := rfl
@[simp] theorem handlerReturn_faulted : (handlerReturn s).faulted = s.faulted := rfl
@[simp] theorem handlerReturn_rxIdleTicks : (handlerReturn s).rxIdleTicks = s.rxIdleTicks := rfl
@[simp] theorem handlerReturn_trace : (handlerReturn s).trace = s.trace := rfl
@[simp] theorem handlerReturn_txTotal : (handlerReturn s).txTotal = s.txTotal := rfl
@[simp] theorem handlerReturn_results : (handlerReturn s).results = s.results := rfl
@[simp] theorem handlerReturn_cfg : (handlerReturn s).cfg = s.cfg := rfl
@[simp] theorem handlerReturn_env : (handlerReturn s).env = s.env := rfl

/-! ### `handlerBail` -/

@[simp] theorem handlerBail_link : (handlerBail s).link = s.link := rfl
@[simp] theorem handlerBail_startSeen : (handlerBail s).startSeen = s.startSeen := rfl
@[simp] theorem handlerBail_dataAvail : (handlerBail s).dataAvail = s.dataAvail := rfl
@[simp] theorem handlerBail_ovf : (handlerBail s).ovf = s.ovf := rfl
@[simp] theorem handlerBail_edgePend : (handlerBail s).edgePend = false := rfl
@[simp] theorem handlerBail_edgeIE : (handlerBail s).edgeIE = s.edgeIE := rfl
@[simp] theorem handlerBail_initDone : (handlerBail s).initDone = s.initDone := rfl
@[simp] theorem handlerBail_cursor : (handlerBail s).cursor = s.cursor := rfl
@[simp] theorem handlerBail_buf : (handlerBail s).buf = s.buf := rfl
@[simp] theorem handlerBail_rxActive : (handlerBail s).rxActive = s.rxActive := rfl
@[simp] theorem handlerBail_rxAcc : (handlerBail s).rxAcc = s.rxAcc := rfl
@[simp] theorem handlerBail_rxBit : (handlerBail s).rxBit = s.rxBit := rfl
@[simp] theorem handlerBail_rxTimer : (handlerBail s).rxTimer = s.rxTimer := rfl
@[simp] theorem handlerBail_rxWaited : (handlerBail s).rxWaited = s.rxWaited := rfl
@[simp] theorem handlerBail_txActive : (handlerBail s).txActive = s.txActive := rfl
@[simp] theorem handlerBail_txFrames : (handlerBail s).txFrames = s.txFrames := rfl
@[simp] theorem handlerBail_txBit : (handlerBail s).txBit = s.txBit := rfl
@[simp] theorem handlerBail_txTimer : (handlerBail s).txTimer = s.txTimer := rfl
@[simp] theorem handlerBail_txGap : (handlerBail s).txGap = s.txGap := rfl
@[simp] theorem handlerBail_txPin : (handlerBail s).txPin = s.txPin := rfl
@[simp] theorem handlerBail_rxPin : (handlerBail s).rxPin = s.rxPin := rfl
@[simp] theorem handlerBail_rxPrev : (handlerBail s).rxPrev = s.rxPrev := rfl
@[simp] theorem handlerBail_invalidInput : (handlerBail s).invalidInput = s.invalidInput := rfl
@[simp] theorem handlerBail_faulted : (handlerBail s).faulted = s.faulted := rfl
@[simp] theorem handlerBail_rxIdleTicks : (handlerBail s).rxIdleTicks = s.rxIdleTicks := rfl
@[simp] theorem handlerBail_trace : (handlerBail s).trace = s.trace ++ [{ tick := s.env.tick, instId := s.env.instId, event := .bail s.link }] := rfl
@[simp] theorem handlerBail_txTotal : (handlerBail s).txTotal = s.txTotal := rfl
@[simp] theorem handlerBail_results : (handlerBail s).results = s.results := rfl
@[simp] theorem handlerBail_cfg : (handlerBail s).cfg = s.cfg := rfl
@[simp] theorem handlerBail_env : (handlerBail s).env = s.env := rfl

/-! ### `endMessage` -/

@[simp] theorem endMessage_link : (endMessage s).link = .idle := rfl
@[simp] theorem endMessage_startSeen : (endMessage s).startSeen = false := rfl
@[simp] theorem endMessage_dataAvail : (endMessage s).dataAvail = s.dataAvail := rfl
@[simp] theorem endMessage_ovf : (endMessage s).ovf = s.ovf := rfl
@[simp] theorem endMessage_edgePend : (endMessage s).edgePend = s.edgePend := rfl
@[simp] theorem endMessage_edgeIE : (endMessage s).edgeIE = s.edgeIE := rfl
@[simp] theorem endMessage_initDone : (endMessage s).initDone = s.initDone := rfl
@[simp] theorem endMessage_cursor : (endMessage s).cursor = s.cursor := rfl
@[simp] theorem endMessage_buf : (endMessage s).buf = s.buf := rfl
@[simp] theorem endMessage_rxActive : (endMessage s).rxActive = s.rxActive := rfl
@[simp] theorem endMessage_rxAcc : (endMessage s).rxAcc = s.rxAcc := rfl
@[simp] theorem endMessage_rxBit : (endMessage s).rxBit = s.rxBit := rfl
@[simp] theorem endMessage_rxTimer : (endMessage s).rxTimer = s.rxTimer := rfl
@[simp] theorem endMessage_rxWaited : (endMessage s).rxWaited = s.rxWaited := rfl
@[simp] theorem endMessage_txActive : (endMessage s).txActive = s.txActive := rfl
@[simp] theorem endMessage_txFrames : (endMessage s).txFrames = s.txFrames := rfl
@[simp] theorem endMessage_txBit : (endMessage s).txBit = s.txBit := rfl
@[simp] theorem endMessage_txTimer : (endMessage s).txTimer = s.txTimer := rfl
@[simp] theorem endMessage_txGap : (endMessage s).txGap = s.txGap := rfl
@[simp] theorem endMessage_txPin : (endMessage s).txPin = s.txPin := rfl
@[simp] theorem endMessage_rxPin : (endMessage s).rxPin = s.rxPin := rfl
@[simp] theorem endMessage_rxPrev : (endMessage s).rxPrev = s.rxPrev := rfl
@[simp] theorem endMessage_invalidInput : (endMessage s).invalidInput = s.invalidInput := rfl
@[simp] theorem endMessage_faulted : (endMessage s).faulted = s.faulted := rfl
@[simp] theorem endMessage_rxIdleTicks : (endMessage s).rxIdleTicks = s.rxIdleTicks := rfl
@[simp] theorem endMessage_trace : (endMessage s).trace = s.trace := rfl
@[simp] theorem endMessage_txTotal : (endMessage s).txTotal = s.txTotal := rfl
@[simp] theorem endMessage_results : (endMessage s).results = s.results := rfl
@[simp] theorem endMessage_cfg : (endMessage s).cfg = s.cfg := rfl
@[simp] theorem endMessage_env : (endMessage s).env = s.env := rfl

/-! ### `rxStx` -/

@[simp] theorem rxStx_link : (rxStx s).link = .rxInProgress := rfl
@[simp] theorem rxStx_startSeen : (rxStx s).startSeen = true := rfl
@[simp] theorem rxStx_dataAvail : (rxStx s).dataAvail = false := rfl
@[simp] theorem rxStx_ovf : (rxStx s).ovf = false := rfl
@[simp] theorem rxStx_edgePend : (rxStx s).edgePend = s.edgePend := rfl
@[simp] theorem rxStx_edgeIE : (rxStx s).edgeIE = s.edgeIE := rfl
@[simp] theorem rxStx_initDone : (rxStx s).initDone = s.initDone := rfl
@[simp] theorem rxStx_cursor : (rxStx s).cursor = 0 := rfl
@[simp] theorem rxStx_buf : (rxStx s).buf = s.buf := rfl
@[simp] theorem rxStx_rxActive : (rxStx s).rxActive = s.rxActive := rfl
@[simp] theorem rxStx_rxAcc : (rxStx s).rxAcc = s.rxAcc := rfl
@[simp] theorem rxStx_rxBit : (rxStx s).rxBit = s.rxBit := rfl
@[simp] theorem rxStx_rxTimer : (rxStx s).rxTimer = s.rxTimer := rfl
@[simp] theorem rxStx_rxWaited : (rxStx s).rxWaited = s.rxWaited := rfl
@[simp] theorem rxStx_txActive : (rxStx s).txActive = s.txActive := rfl
@[simp] theorem rxStx_txFrames : (rxStx s).txFrames = s.txFrames := rfl
@[simp] theorem rxStx_txBit : (rxStx s).txBit = s.txBit := rfl
@[simp] theorem rxStx_txTimer : (rxStx s).txTimer = s.txTimer := rfl
@[simp] theorem rxStx_txGap : (rxStx s).txGap = s.txGap := rfl
@[simp] theorem rxStx_txPin : (rxStx s).txPin = s.txPin := rfl
@[simp] theorem rxStx_rxPin : (rxStx s).rxPin = s.rxPin := rfl
@[simp] theorem rxStx_rxPrev : (rxStx s).rxPrev = s.rxPrev := rfl
@[simp] theorem rxStx_invalidInput : (rxStx s).invalidInput = s.invalidInput := rfl
@[simp] theorem rxStx_faulted : (rxStx s).faulted = s.faulted := rfl
@[simp] theorem rxStx_rxIdleTicks : (rxStx s).rxIdleTicks = s.rxIdleTicks := rfl
@[simp] theorem rxStx_trace : (rxStx s).trace = s.trace := rfl
@[simp] theorem rxStx_txTotal : (rxStx s).txTotal = s.txTotal := rfl
@[simp] theorem rxStx_results : (rxStx s).results = s.results := rfl
@[simp] theorem rxStx_cfg : (rxStx s).cfg = s.cfg := rfl
@[simp] theorem rxStx_env : (rxStx s).env = s.env := rfl

/-! ### `rxDrop` -/

@[simp] theorem rxDrop_link (b : Byte) : (rxDrop b s).link = s.link := rfl
@[simp] theorem rxDrop_startSeen (b : Byte) : (rxDrop b s).startSeen = s.startSeen := rfl
@[simp] theorem rxDrop_dataAvail (b : Byte) : (rxDrop b s).dataAvail = s.dataAvail := rfl
@[simp] theorem rxDrop_ovf (b : Byte) : (rxDrop b s).ovf = s.ovf := rfl
@[simp] theorem rxDrop_edgePend (b : Byte) : (rxDrop b s).edgePend = s.edgePend := rfl
@[simp] theorem rxDrop_edgeIE (b : Byte) : (rxDrop b s).edgeIE = s.edgeIE := rfl
@[simp] theorem rxDrop_initDone (b : Byte) : (rxDrop b s).initDone = s.initDone := rfl
@[simp] theorem rxDrop_cursor (b : Byte) : (rxDrop b s).cursor = s.cursor := rfl
@[simp] theorem rxDrop_buf (b : Byte) : (rxDrop b s).buf = s.buf := rfl
@[simp] theorem rxDrop_rxActive (b : Byte) : (rxDrop b s).rxActive = s.rxActive := rfl
@[simp] theorem rxDrop_rxAcc (b : Byte) : (rxDrop b s).rxAcc = s.rxAcc := rfl
@[simp] theorem rxDrop_rxBit (b : Byte) : (rxDrop b s).rxBit = s.rxBit := rfl
@[simp] theorem rxDrop_rxTimer (b : Byte) : (rxDrop b s).rxTimer = s.rxTimer := rfl
@[simp] theorem rxDrop_rxWaited (b : Byte) : (rxDrop b s).rxWaited = s.rxWaited := rfl
@[simp] theorem rxDrop_txActive (b : Byte) : (rxDrop b s).txActive = s.txActive := rfl
@[simp] theorem rxDrop_txFrames (b : Byte) : (rxDrop b s).txFrames = s.txFrames := rfl
@[simp] theorem rxDrop_txBit (b : Byte) : (rxDrop b s).txBit = s.txBit := rfl
@[simp] theorem rxDrop_txTimer (b : Byte) : (rxDrop b s).txTimer = s.txTimer := rfl
@[simp] theorem rxDrop_txGap (b : Byte) : (rxDrop b s).txGap = s.txGap := rfl
@[simp] theorem rxDrop_txPin (b : Byte) : (rxDrop b s).txPin = s.txPin := rfl
@[simp] theorem rxDrop_rxPin (b : Byte) : (rxDrop b s).rxPin = s.rxPin := rfl
@[simp] theorem rxDrop_rxPrev (b : Byte) : (rxDrop b s).rxPrev = s.rxPrev := rfl
@[simp] theorem rxDrop_invalidInput (b : Byte) : (rxDrop b s).invalidInput = s.invalidInput := rfl
@[simp] theorem rxDrop_faulted (b : Byte) : (rxDrop b s).faulted = s.faulted := rfl
@[simp] theorem rxDrop_rxIdleTicks (b : Byte) : (rxDrop b s).rxIdleTicks = s.rxIdleTicks := rfl
@[simp] theorem rxDrop_trace (b : Byte) : (rxDrop b s).trace = s.trace ++ [{ tick := s.env.tick, instId := s.env.instId, event := .drop b }] := rfl
@[simp] theorem rxDrop_txTotal (b : Byte) : (rxDrop b s).txTotal = s.txTotal := rfl
@[simp] theorem rxDrop_results (b : Byte) : (rxDrop b s).results = s.results := rfl
@[simp] theorem rxDrop_cfg (b : Byte) : (rxDrop b s).cfg = s.cfg := rfl
@[simp] theorem rxDrop_env (b : Byte) : (rxDrop b s).env = s.env := rfl

/-! ### `markInput` -/

@[simp] theorem markInput_link (m : List Byte) : (markInput m s).link = s.link := rfl
@[simp] theorem markInput_startSeen (m : List Byte) : (markInput m s).startSeen = s.startSeen := rfl
@[simp] theorem markInput_dataAvail (m : List Byte) : (markInput m s).dataAvail = s.dataAvail := rfl
@[simp] theorem markInput_ovf (m : List Byte) : (markInput m s).ovf = s.ovf := rfl
@[simp] theorem markInput_edgePend (m : List Byte) : (markInput m s).edgePend = s.edgePend := rfl
@[simp] theorem markInput_edgeIE (m : List Byte) : (markInput m s).edgeIE = s.edgeIE := rfl
@[simp] theorem markInput_initDone (m : List Byte) : (markInput m s).initDone = s.initDone := rfl
@[simp] theorem markInput_cursor (m : List Byte) : (markInput m s).cursor = s.cursor := rfl
@[simp] theorem markInput_buf (m : List Byte) : (markInput m s).buf = s.buf := rfl
@[simp] theorem markInput_rxActive (m : List Byte) : (markInput m s).rxActive = s.rxActive := rfl
@[simp] theorem markInput_rxAcc (m : List Byte) : (markInput m s).rxAcc = s.rxAcc := rfl
@[simp] theorem markInput_rxBit (m : List Byte) : (markInput m s).rxBit = s.rxBit := rfl
@[simp] theorem markInput_rxTimer (m : List Byte) : (markInput m s).rxTimer = s.rxTimer := rfl
@[simp] theorem markInput_rxWaited (m : List Byte) : (markInput m s).rxWaited = s.rxWaited := rfl
@[simp] theorem markInput_txActive (m : List Byte) : (markInput m s).txActive = s.txActive := rfl
@[simp] theorem markInput_txFrames (m : List Byte) : (markInput m s).txFrames = s.txFrames := rfl
@[simp] theorem markInput_txBit (m : List Byte) : (markInput m s).txBit = s.txBit := rfl
@[simp] theorem markInput_txTimer (m : List Byte) : (markInput m s).txTimer = s.txTimer := rfl
@[simp] theorem markInput_txGap (m : List Byte) : (markInput m s).txGap = s.txGap := rfl
@[simp] theorem markInput_txPin (m : List Byte) : (markInput m s).txPin = s.txPin := rfl
@[simp] theorem markInput_rxPin (m : List Byte) : (markInput m s).rxPin = s.rxPin := rfl
@[simp] theorem markInput_rxPrev (m : List Byte) : (markInput m s).rxPrev = s.rxPrev := rfl
@[simp] theorem markInput_invalidInput (m : List Byte) : (markInput m s).invalidInput = (s.invalidInput || holdsMarker m) := rfl
@[simp] theorem markInput_faulted (m : List Byte) : (markInput m s).faulted = s.faulted := rfl
@[simp] theorem markInput_rxIdleTicks (m : List Byte) : (markInput m s).rxIdleTicks = s.rxIdleTicks := rfl
@[simp] theorem markInput_trace (m : List Byte) : (markInput m s).trace = s.trace := rfl
@[simp] theorem markInput_txTotal (m : List Byte) : (markInput m s).txTotal = s.txTotal := rfl
@[simp] theorem markInput_results (m : List Byte) : (markInput m s).results = s.results := rfl
@[simp] theorem markInput_cfg (m : List Byte) : (markInput m s).cfg = s.cfg := rfl
@[simp] theorem markInput_env (m : List Byte) : (markInput m s).env = s.env := rfl

/-! ### `raiseFault` -/

@[simp] theorem raiseFault_link (k : FaultKind) : (raiseFault k s).link = s.link := by unfold raiseFault; split <;> rfl
@[simp] theorem raiseFault_startSeen (k : FaultKind) : (raiseFault k s).startSeen = s.startSeen := by unfold raiseFault; split <;> rfl
@[simp] theorem raiseFault_dataAvail (k : FaultKind) : (raiseFault k s).dataAvail = s.dataAvail := by unfold raiseFault; split <;> rfl
@[simp] theorem raiseFault_ovf (k : FaultKind) : (raiseFault k s).ovf = s.ovf := by unfold raiseFault; split <;> rfl
@[simp] theorem raiseFault_edgePend (k : FaultKind) : (raiseFault k s).edgePend = s.edgePend := by unfold raiseFault; split <;> rfl
@[simp] theorem raiseFault_edgeIE (k : FaultKind) : (raiseFault k s).edgeIE = s.edgeIE := by unfold raiseFault; split <;> rfl
@[simp] theorem raiseFault_initDone (k : FaultKind) : (raiseFault k s).initDone = s.initDone := by unfold raiseFault; split <;> rfl
@[simp] theorem raiseFault_cursor (k : FaultKind) : (raiseFault k s).cursor = s.cursor := by unfold raiseFault; split <;> rfl
@[simp] theorem raiseFault_buf (k : FaultKind) : (raiseFault k s).buf = s.buf := by unfold raiseFault; split <;> rfl
@[simp] theorem raiseFault_rxActive (k : FaultKind) : (raiseFault k s).rxActive = s.rxActive := by unfold raiseFault; split <;> rfl
@[simp] theorem raiseFault_rxAcc (k : FaultKind) : (raiseFault k s).rxAcc = s.rxAcc := by unfold raiseFault; split <;> rfl
@[simp] theorem raiseFault_rxBit (k : FaultKind) : (raiseFault k s).rxBit = s.rxBit := by unfold raiseFault; split <;> rfl
@[simp] theorem raiseFault_rxTimer (k : FaultKind) : (raiseFault k s).rxTimer = s.rxTimer := by unfold raiseFault; split <;> rfl
@[simp] theorem raiseFault_rxWaited (k : FaultKind) : (raiseFault k s).rxWaited = s.rxWaited := by unfold raiseFault; split <;> rfl
@[simp] theorem raiseFault_txActive (k : FaultKind) : (raiseFault k s).txActive = s.txActive := by unfold raiseFault; split <;> rfl
@[simp] theorem raiseFault_txFrames (k : FaultKind) : (raiseFault k s).txFrames = s.txFrames := by unfold raiseFault; split <;> rfl
@[simp] theorem raiseFault_txBit (k : FaultKind) : (raiseFault k s).txBit = s.txBit := by unfold raiseFault; split <;> rfl
@[simp] theorem raiseFault_txTimer (k : FaultKind) : (raiseFault k s).txTimer = s.txTimer := by unfold raiseFault; split <;> rfl
@[simp] theorem raiseFault_txGap (k : FaultKind) : (raiseFault k s).txGap = s.txGap := by unfold raiseFault; split <;> rfl
@[simp] theorem raiseFault_txPin (k : FaultKind) : (raiseFault k s).txPin = s.txPin := by unfold raiseFault; split <;> rfl
@[simp] theorem raiseFault_rxPin (k : FaultKind) : (raiseFault k s).rxPin = s.rxPin := by unfold raiseFault; split <;> rfl
@[simp] theorem raiseFault_rxPrev (k : FaultKind) : (raiseFault k s).rxPrev = s.rxPrev := by unfold raiseFault; split <;> rfl
@[simp] theorem raiseFault_invalidInput (k : FaultKind) : (raiseFault k s).invalidInput = s.invalidInput := by unfold raiseFault; split <;> rfl
@[simp] theorem raiseFault_rxIdleTicks (k : FaultKind) : (raiseFault k s).rxIdleTicks = s.rxIdleTicks := by unfold raiseFault; split <;> rfl
@[simp] theorem raiseFault_trace (k : FaultKind) : (raiseFault k s).trace = s.trace := by unfold raiseFault; split <;> rfl
@[simp] theorem raiseFault_txTotal (k : FaultKind) : (raiseFault k s).txTotal = s.txTotal := by unfold raiseFault; split <;> rfl
@[simp] theorem raiseFault_results (k : FaultKind) : (raiseFault k s).results = s.results := by unfold raiseFault; split <;> rfl
@[simp] theorem raiseFault_cfg (k : FaultKind) : (raiseFault k s).cfg = s.cfg := by unfold raiseFault; split <;> rfl
@[simp] theorem raiseFault_env (k : FaultKind) : (raiseFault k s).env = s.env := by unfold raiseFault; split <;> rfl

/-! ### `tryPush` -/

@[simp] theorem tryPush_link (b : Byte) : (tryPush b s).link = s.link := by unfold tryPush; split <;> rfl
@[simp] theorem tryPush_startSeen (b : Byte) : (tryPush b s).startSeen = s.startSeen := by unfold tryPush; split <;> rfl
@[simp] theorem tryPush_dataAvail (b : Byte) : (tryPush b s).dataAvail = s.dataAvail := by unfold tryPush; split <;> rfl
@[simp] theorem tryPush_ovf (b : Byte) : (tryPush b s).ovf = s.ovf := by unfold tryPush; split <;> rfl
@[simp] theorem tryPush_edgePend (b : Byte) : (tryPush b s).edgePend = s.edgePend := by unfold tryPush; split <;> rfl
@[simp] theorem tryPush_edgeIE (b : Byte) : (tryPush b s).edgeIE = s.edgeIE := by unfold tryPush; split <;> rfl
@[simp] theorem tryPush_initDone (b : Byte) : (tryPush b s).initDone = s.initDone := by unfold tryPush; split <;> rfl
@[simp] theorem tryPush_rxActive (b : Byte) : (tryPush b s).rxActive = s.rxActive := by unfold tryPush; split <;> rfl
@[simp] theorem tryPush_rxAcc (b : Byte) : (tryPush b s).rxAcc = s.rxAcc := by unfold tryPush; split <;> rfl
@[simp] theorem tryPush_rxBit (b : Byte) : (tryPush b s).rxBit = s.rxBit := by unfold tryPush; split <;> rfl
@[simp] theorem tryPush_rxTimer (b : Byte) : (tryPush b s).rxTimer = s.rxTimer := by unfold tryPush; split <;> rfl
@[simp] theorem tryPush_rxWaited (b : Byte) : (tryPush b s).rxWaited = s.rxWaited := by unfold tryPush; split <;> rfl
@[simp] theorem tryPush_txActive (b : Byte) : (tryPush b s).txActive = s.txActive := by unfold tryPush; split <;> rfl
@[simp] theorem tryPush_txFrames (b : Byte) : (tryPush b s).txFrames = s.txFrames := by unfold tryPush; split <;> rfl
@[simp] theorem tryPush_txBit (b : Byte) : (tryPush b s).txBit = s.txBit := by unfold tryPush; split <;> rfl
@[simp] theorem tryPush_txTimer (b : Byte) : (tryPush b s).txTimer = s.txTimer := by unfold tryPush; split <;> rfl
@[simp] theorem tryPush_txGap (b : Byte) : (tryPush b s).txGap = s.txGap := by unfold tryPush; split <;> rfl
@[simp] theorem tryPush_txPin (b : Byte) : (tryPush b s).txPin = s.txPin := by unfold tryPush; split <;> rfl
@[simp] theorem tryPush_rxPin (b : Byte) : (tryPush b s).rxPin = s.rxPin := by unfold tryPush; split <;> rfl
@[simp] theorem tryPush_rxPrev (b : Byte) : (tryPush b s).rxPrev = s.rxPrev := by unfold tryPush; split <;> rfl
@[simp] theorem tryPush_invalidInput (b : Byte) : (tryPush b s).invalidInput = s.invalidInput := by unfold tryPush; split <;> rfl
@[simp] theorem tryPush_faulted (b : Byte) : (tryPush b s).faulted = s.faulted := by unfold tryPush; split <;> rfl
@[simp] theorem tryPush_rxIdleTicks (b : Byte) : (tryPush b s).rxIdleTicks = s.rxIdleTicks := by unfold tryPush; split <;> rfl
@[simp] theorem tryPush_trace (b : Byte) : (tryPush b s).trace = s.trace := by unfold tryPush; split <;> rfl
@[simp] theorem tryPush_txTotal (b : Byte) : (tryPush b s).txTotal = s.txTotal := by unfold tryPush; split <;> rfl
@[simp] theorem tryPush_results (b : Byte) : (tryPush b s).results = s.results := by unfold tryPush; split <;> rfl
@[simp] theorem tryPush_cfg (b : Byte) : (tryPush b s).cfg = s.cfg := by unfold tryPush; split <;> rfl
@[simp] theorem tryPush_env (b : Byte) : (tryPush b s).env = s.env := by unfold tryPush; split <;> rfl

/-! ### `setLine` -/

@[simp] theorem setLine_link (d : Drive) : (setLine d s).link = s.link := by cases d <;> rfl
@[simp] theorem setLine_startSeen (d : Drive) : (setLine d s).startSeen = s.startSeen := by cases d <;> rfl
@[simp] theorem setLine_dataAvail (d : Drive) : (setLine d s).dataAvail = s.dataAvail := by cases d <;> rfl
@[simp] theorem setLine_ovf (d : Drive) : (setLine d s).ovf = s.ovf := by cases d <;> rfl
@[simp] theorem setLine_edgePend (d : Drive) : (setLine d s).edgePend = s.edgePend := by cases d <;> rfl
@[simp] theorem setLine_edgeIE (d : Drive) : (setLine d s).edgeIE = s.edgeIE := by cases d <;> rfl
@[simp] theorem setLine_initDone (d : Drive) : (setLine d s).initDone = s.initDone := by cases d <;> rfl
@[simp] theorem setLine_cursor (d : Drive) : (setLine d s).cursor = s.cursor := by cases d <;> rfl
@[simp] theorem setLine_buf (d : Drive) : (setLine d s).buf = s.buf := by cases d <;> rfl
@[simp] theorem setLine_rxActive (d : Drive) : (setLine d s).rxActive = s.rxActive := by cases d <;> rfl
@[simp] theorem setLine_rxAcc (d : Drive) : (setLine d s).rxAcc = s.rxAcc := by cases d <;> rfl
@[simp] theorem setLine_rxBit (d : Drive) : (setLine d s).rxBit = s.rxBit := by cases d <;> rfl
@[simp] theorem setLine_rxTimer (d : Drive) : (setLine d s).rxTimer = s.rxTimer := by cases d <;> rfl
@[simp] theorem setLine_rxWaited (d : Drive) : (setLine d s).rxWaited = s.rxWaited := by cases d <;> rfl
@[simp] theorem setLine_txActive (d : Drive) : (setLine d s).txActive = s.txActive := by cases d <;> rfl
@[simp] theorem setLine_txFrames (d : Drive) : (setLine d s).txFrames = s.txFrames := by cases d <;> rfl
@[simp] theorem setLine_txBit (d : Drive) : (setLine d s).txBit = s.txBit := by cases d <;> rfl
@[simp] theorem setLine_txTimer (d : Drive) : (setLine d s).txTimer = s.txTimer := by cases d <;> rfl
@[simp] theorem setLine_txGap (d : Drive) : (setLine d s).txGap = s.txGap := by cases d <;> rfl
@[simp] theorem setLine_txPin (d : Drive) : (setLine d s).txPin = s.txPin := by cases d <;> rfl
@[simp] theorem setLine_rxPrev (d : Drive) : (setLine d s).rxPrev = s.rxPrev := by cases d <;> rfl
@[simp] theorem setLine_invalidInput (d : Drive) : (setLine d s).invalidInput = s.invalidInput := by cases d <;> rfl
@[simp] theorem setLine_faulted (d : Drive) : (setLine d s).faulted = s.faulted := by cases d <;> rfl
@[simp] theorem setLine_rxIdleTicks (d : Drive) : (setLine d s).rxIdleTicks = s.rxIdleTicks := by cases d <;> rfl
@[simp] theorem setLine_trace (d : Drive) : (setLine d s).trace = s.trace := by cases d <;> rfl
@[simp] theorem setLine_txTotal (d : Drive) : (setLine d s).txTotal = s.txTotal := by cases d <;> rfl
@[simp] theorem setLine_results (d : Drive) : (setLine d s).results = s.results := by cases d <;> rfl
@[simp] theorem setLine_cfg (d : Drive) : (setLine d s).cfg = s.cfg := by cases d <;> rfl

/-! ### `linePhase` -/

@[simp] theorem linePhase_link : (linePhase s).link = s.link := by simp [linePhase]
@[simp] theorem linePhase_startSeen : (linePhase s).startSeen = s.startSeen := by simp [linePhase]
@[simp] theorem linePhase_dataAvail : (linePhase s).dataAvail = s.dataAvail := by simp [linePhase]
@[simp] theorem linePhase_ovf : (linePhase s).ovf = s.ovf := by simp [linePhase]
@[simp] theorem linePhase_edgePend : (linePhase s).edgePend = s.edgePend := by simp [linePhase]
@[simp] theorem linePhase_edgeIE : (linePhase s).edgeIE = s.edgeIE := by simp [linePhase]
@[simp] theorem linePhase_initDone : (linePhase s).initDone = s.initDone := by simp [linePhase]
@[simp] theorem linePhase_cursor : (linePhase s).cursor = s.cursor := by simp [linePhase]
@[simp] theorem linePhase_buf : (linePhase s).buf = s.buf := by simp [linePhase]
@[simp] theorem linePhase_rxActive : (linePhase s).rxActive = s.rxActive := by simp [linePhase]
@[simp] theorem linePhase_rxAcc : (linePhase s).rxAcc = s.rxAcc := by simp [linePhase]
@[simp] theorem linePhase_rxBit : (linePhase s).rxBit = s.rxBit := by simp [linePhase]
@[simp] theorem linePhase_rxTimer : (linePhase s).rxTimer = s.rxTimer := by simp [linePhase]
@[simp] theorem linePhase_rxWaited : (linePhase s).rxWaited = s.rxWaited := by simp [linePhase]
@[simp] theorem linePhase_txActive : (linePhase s).txActive = s.txActive := by simp [linePhase]
@[simp] theorem linePhase_txFrames : (linePhase s).txFrames = s.txFrames := by simp [linePhase]
@[simp] theorem linePhase_txBit : (linePhase s).txBit = s.txBit := by simp [linePhase]
@[simp] theorem linePhase_txTimer : (linePhase s).txTimer = s.txTimer := by simp [linePhase]
@[simp] theorem linePhase_txGap : (linePhase s).txGap = s.txGap := by simp [linePhase]
@[simp] theorem linePhase_txPin : (linePhase s).txPin = s.txPin := by simp [linePhase]
@[simp] theorem linePhase_rxPrev : (linePhase s).rxPrev = s.rxPrev := by simp [linePhase]
@[simp] theorem linePhase_invalidInput : (linePhase s).invalidInput = s.invalidInput := by simp [linePhase]
@[simp] theorem linePhase_faulted : (linePhase s).faulted = s.faulted := by simp [linePhase]
@[simp] theorem linePhase_rxIdleTicks : (linePhase s).rxIdleTicks = s.rxIdleTicks := by simp [linePhase]
@[simp] theorem linePhase_trace : (linePhase s).trace = s.trace := by simp [linePhase]
@[simp] theorem linePhase_txTotal : (linePhase s).txTotal = s.txTotal := by simp [linePhase]
@[simp] theorem linePhase_results : (linePhase s).results = s.results := by simp [linePhase]
@[simp] theorem linePhase_cfg : (linePhase s).cfg = s.cfg := by simp [linePhase]

/-! ### `drivePhase` -/

@[simp] theorem drivePhase_link : (drivePhase s).link = s.link := by unfold drivePhase; split <;> rfl
@[simp] theorem drivePhase_startSeen : (drivePhase s).startSeen = s.startSeen := by unfold drivePhase; split <;> rfl
@[simp] theorem drivePhase_dataAvail : (drivePhase s).dataAvail = s.dataAvail := by unfold drivePhase; split <;> rfl
@[simp] theorem drivePhase_ovf : (drivePhase s).ovf = s.ovf := by unfold drivePhase; split <;> rfl
@[simp] theorem drivePhase_edgePend : (drivePhase s).edgePend = s.edgePend := by unfold drivePhase; split <;> rfl
@[simp] theorem drivePhase_edgeIE : (drivePhase s).edgeIE = s.edgeIE := by unfold drivePhase; split <;> rfl
@[simp] theorem drivePhase_initDone : (drivePhase s).initDone = s.initDone := by unfold drivePhase; split <;> rfl
@[simp] theorem drivePhase_cursor : (drivePhase s).cursor = s.cursor := by unfold drivePhase; split <;> rfl
@[simp] theorem drivePhase_buf : (drivePhase s).buf = s.buf := by unfold drivePhase; split <;> rfl
@[simp] theorem drivePhase_rxActive : (drivePhase s).rxActive = s.rxActive := by unfold drivePhase; split <;> rfl
@[simp] theorem drivePhase_rxAcc : (drivePhase s).rxAcc = s.rxAcc := by unfold drivePhase; split <;> rfl
@[simp] theorem drivePhase_rxBit : (drivePhase s).rxBit = s.rxBit := by unfold drivePhase; split <;> rfl
@[simp] theorem drivePhase_rxTimer : (drivePhase s).rxTimer = s.rxTimer := by unfold drivePhase; split <;> rfl
@[simp] theorem drivePhase_rxWaited : (drivePhase s).rxWaited = s.rxWaited := by unfold drivePhase; split <;> rfl
@[simp] theorem drivePhase_txActive : (drivePhase s).txActive = s.txActive := by unfold drivePhase; split <;> rfl
@[simp] theorem drivePhase_txFrames : (drivePhase s).txFrames = s.txFrames := by unfold drivePhase; split <;> rfl
@[simp] theorem drivePhase_txBit : (drivePhase s).txBit = s.txBit := by unfold drivePhase; split <;> rfl
@[simp] theorem drivePhase_txTimer : (drivePhase s).txTimer = s.txTimer := by unfold drivePhase; split <;> rfl
@[simp] theorem drivePhase_txGap : (drivePhase s).txGap = s.txGap := by unfold drivePhase; split <;> rfl
@[simp] theorem drivePhase_rxPin : (drivePhase s).rxPin = s.rxPin := by unfold drivePhase; split <;> rfl
@[simp] theorem drivePhase_rxPrev : (drivePhase s).rxPrev = s.rxPrev := by unfold drivePhase; split <;> rfl
@[simp] theorem drivePhase_invalidInput : (drivePhase s).invalidInput = s.invalidInput := by unfold drivePhase; split <;> rfl
@[simp] theorem drivePhase_faulted : (drivePhase s).faulted = s.faulted := by unfold drivePhase; split <;> rfl
@[simp] theorem drivePhase_rxIdleTicks : (drivePhase s).rxIdleTicks = s.rxIdleTicks := by unfold drivePhase; split <;> rfl
@[simp] theorem drivePhase_trace : (drivePhase s).trace = s.trace := by unfold drivePhase; split <;> rfl
@[simp] theorem drivePhase_txTotal : (drivePhase s).txTotal = s.txTotal := by unfold drivePhase; split <;> rfl
@[simp] theorem drivePhase_results : (drivePhase s).results = s.results := by unfold drivePhase; split <;> rfl
@[simp] theorem drivePhase_cfg : (drivePhase s).cfg = s.cfg := by unfold drivePhase; split <;> rfl
@[simp] theorem drivePhase_env : (drivePhase s).env = s.env := by unfold drivePhase; split <;> rfl

/-! ### `edgeDetect` -/

@[simp] theorem edgeDetect_link : (edgeDetect s).link = s.link := by unfold edgeDetect; split <;> rfl
@[simp] theorem edgeDetect_startSeen : (edgeDetect s).startSeen = s.startSeen := by unfold edgeDetect; split <;> rfl
@[simp] theorem edgeDetect_dataAvail : (edgeDetect s).dataAvail = s.dataAvail := by unfold edgeDetect; split <;> rfl
@[simp] theorem edgeDetect_ovf : (edgeDetect s).ovf = s.ovf := by unfold edgeDetect; split <;> rfl
@[simp] theorem edgeDetect_edgeIE : (edgeDetect s).edgeIE = s.edgeIE := by unfold edgeDetect; split <;> rfl
@[simp] theorem edgeDetect_initDone : (edgeDetect s).initDone = s.initDone := by unfold edgeDetect; split <;> rfl
@[simp] theorem edgeDetect_cursor : (edgeDetect s).cursor = s.cursor := by unfold edgeDetect; split <;> rfl
@[simp] theorem edgeDetect_buf : (edgeDetect s).buf = s.buf := by unfold edgeDetect; split <;> rfl
@[simp] theorem edgeDetect_rxActive : (edgeDetect s).rxActive = s.rxActive := by unfold edgeDetect; split <;> rfl
@[simp] theorem edgeDetect_rxAcc : (edgeDetect s).rxAcc = s.rxAcc := by unfold edgeDetect; split <;> rfl
@[simp] theorem edgeDetect_rxBit : (edgeDetect s).rxBit = s.rxBit := by unfold edgeDetect; split <;> rfl
@[simp] theorem edgeDetect_rxTimer : (edgeDetect s).rxTimer = s.rxTimer := by unfold edgeDetect; split <;> rfl
@[simp] theorem edgeDetect_rxWaited : (edgeDetect s).rxWaited = s.rxWaited := by unfold edgeDetect; split <;> rfl
@[simp] theorem edgeDetect_txActive : (edgeDetect s).txActive = s.txActive := by unfold edgeDetect; split <;> rfl
@[simp] theorem edgeDetect_txFrames : (edgeDetect s).txFrames = s.txFrames := by unfold edgeDetect; split <;> rfl
@[simp] theorem edgeDetect_txBit : (edgeDetect s).txBit = s.txBit := by unfold edgeDetect; split <;> rfl
@[simp] theorem edgeDetect_txTimer : (edgeDetect s).txTimer = s.txTimer := by unfold edgeDetect; split <;> rfl
@[simp] theorem edgeDetect_txGap : (edgeDetect s).txGap = s.txGap := by unfold edgeDetect; split <;> rfl
@[simp] theorem edgeDetect_txPin : (edgeDetect s).txPin = s.txPin := by unfold edgeDetect; split <;> rfl
@[simp] theorem edgeDetect_rxPin : (edgeDetect s).rxPin = s.rxPin := by unfold edgeDetect; split <;> rfl
@[simp] theorem edgeDetect_invalidInput : (edgeDetect s).invalidInput = s.invalidInput := by unfold edgeDetect; split <;> rfl
@[simp] theorem edgeDetect_faulted : (edgeDetect s).faulted = s.faulted := by unfold edgeDetect; split <;> rfl
@[simp] theorem edgeDetect_rxIdleTicks : (edgeDetect s).rxIdleTicks = s.rxIdleTicks := by unfold edgeDetect; split <;> rfl
@[simp] theorem edgeDetect_trace : (edgeDetect s).trace = s.trace := by unfold edgeDetect; split <;> rfl
@[simp] theorem edgeDetect_txTotal : (edgeDetect s).txTotal = s.txTotal := by unfold edgeDetect; split <;> rfl
@[simp] theorem edgeDetect_results : (edgeDetect s).results = s.results := by unfold edgeDetect; split <;> rfl
@[simp] theorem edgeDetect_cfg : (edgeDetect s).cfg = s.cfg := by unfold edgeDetect; split <;> rfl
@[simp] theorem edgeDetect_env : (edgeDetect s).env = s.env := by unfold edgeDetect; split <;> rfl

/-! ### `takeSample` -/

@[simp] theorem takeSample_link : (takeSample s).link = s.link := rfl
@[simp] theorem takeSample_startSeen : (takeSample s).startSeen = s.startSeen := rfl
@[simp] theorem takeSample_dataAvail : (takeSample s).dataAvail = s.dataAvail := rfl
@[simp] theorem takeSample_ovf : (takeSample s).ovf = s.ovf := rfl
@[simp] theorem takeSample_edgePend : (takeSample s).edgePend = s.edgePend := rfl
@[simp] theorem takeSample_edgeIE : (takeSample s).edgeIE = s.edgeIE := rfl
@[simp] theorem takeSample_initDone : (takeSample s).initDone = s.initDone := rfl
@[simp] theorem takeSample_cursor : (takeSample s).cursor = s.cursor := rfl
@[simp] theorem takeSample_buf : (takeSample s).buf = s.buf := rfl
@[simp] theorem takeSample_rxActive : (takeSample s).rxActive = s.rxActive := rfl
@[simp] theorem takeSample_rxAcc : (takeSample s).rxAcc = putBit s.rxAcc s.rxBit s.rxPin := rfl
@[simp] theorem takeSample_rxBit : (takeSample s).rxBit = s.rxBit + 1 := rfl
@[simp] theorem takeSample_rxTimer : (takeSample s).rxTimer = s.cfg.ticksPerBit + drawValue s.cfg.rxStretchMax s.env := rfl
@[simp] theorem takeSample_rxWaited : (takeSample s).rxWaited = s.rxWaited := rfl
@[simp] theorem takeSample_txActive : (takeSample s).txActive = s.txActive := rfl
@[simp] theorem takeSample_txFrames : (takeSample s).txFrames = s.txFrames := rfl
@[simp] theorem takeSample_txBit : (takeSample s).txBit = s.txBit := rfl
@[simp] theorem takeSample_txTimer : (takeSample s).txTimer = s.txTimer := rfl
@[simp] theorem takeSample_txGap : (takeSample s).txGap = s.txGap := rfl
@[simp] theorem takeSample_txPin : (takeSample s).txPin = s.txPin := rfl
@[simp] theorem takeSample_rxPin : (takeSample s).rxPin = s.rxPin := rfl
@[simp] theorem takeSample_rxPrev : (takeSample s).rxPrev = s.rxPrev := rfl
@[simp] theorem takeSample_invalidInput : (takeSample s).invalidInput = s.invalidInput := rfl
@[simp] theorem takeSample_faulted : (takeSample s).faulted = s.faulted := rfl
@[simp] theorem takeSample_rxIdleTicks : (takeSample s).rxIdleTicks = s.rxIdleTicks := rfl
@[simp] theorem takeSample_trace : (takeSample s).trace = s.trace := rfl
@[simp] theorem takeSample_txTotal : (takeSample s).txTotal = s.txTotal := rfl
@[simp] theorem takeSample_results : (takeSample s).results = s.results := rfl
@[simp] theorem takeSample_cfg : (takeSample s).cfg = s.cfg := rfl
@[simp] theorem takeSample_env : (takeSample s).env = drawEnv s.cfg.rxStretchMax s.env := rfl

/-! ### `handlerStart` -/

@[simp] theorem handlerStart_link : (handlerStart s).link = s.link := rfl
@[simp] theorem handlerStart_startSeen : (handlerStart s).startSeen = s.startSeen := rfl
@[simp] theorem handlerStart_dataAvail : (handlerStart s).dataAvail = s.dataAvail := rfl
@[simp] theorem handlerStart_ovf : (handlerStart s).ovf = s.ovf := rfl
@[simp] theorem handlerStart_edgePend : (handlerStart s).edgePend = false := rfl
@[simp] theorem handlerStart_edgeIE : (handlerStart s).edgeIE = s.edgeIE := rfl
@[simp] theorem handlerStart_initDone : (handlerStart s).initDone = s.initDone := rfl
@[simp] theorem handlerStart_cursor : (handlerStart s).cursor = s.cursor := rfl
@[simp] theorem handlerStart_buf : (handlerStart s).buf = s.buf := rfl
@[simp] theorem handlerStart_rxActive : (handlerStart s).rxActive = true := rfl
@[simp] theorem handlerStart_rxAcc : (handlerStart s).rxAcc = 0x00 := rfl
@[simp] theorem handlerStart_rxBit : (handlerStart s).rxBit = 0 := rfl
@[simp] theorem handlerStart_rxTimer : (handlerStart s).rxTimer = 3 * s.cfg.ticksPerBit / 2 + drawValue s.cfg.rxStretchMax s.env := rfl
@[simp] theorem handlerStart_rxWaited : (handlerStart s).rxWaited = s.rxWaited := rfl
@[simp] theorem handlerStart_txActive : (handlerStart s).txActive = s.txActive := rfl
@[simp] theorem handlerStart_txFrames : (handlerStart s).txFrames = s.txFrames := rfl
@[simp] theorem handlerStart_txBit : (handlerStart s).txBit = s.txBit := rfl
@[simp] theorem handlerStart_txTimer : (handlerStart s).txTimer = s.txTimer := rfl
@[simp] theorem handlerStart_txGap : (handlerStart s).txGap = s.txGap := rfl
@[simp] theorem handlerStart_txPin : (handlerStart s).txPin = s.txPin := rfl
@[simp] theorem handlerStart_rxPin : (handlerStart s).rxPin = s.rxPin := rfl
@[simp] theorem handlerStart_rxPrev : (handlerStart s).rxPrev = s.rxPrev := rfl
@[simp] theorem handlerStart_invalidInput : (handlerStart s).invalidInput = s.invalidInput := rfl
@[simp] theorem handlerStart_faulted : (handlerStart s).faulted = s.faulted := rfl
@[simp] theorem handlerStart_rxIdleTicks : (handlerStart s).rxIdleTicks = s.rxIdleTicks := rfl
@[simp] theorem handlerStart_trace : (handlerStart s).trace = s.trace := rfl
@[simp] theorem handlerStart_txTotal : (handlerStart s).txTotal = s.txTotal := rfl
@[simp] theorem handlerStart_results : (handlerStart s).results = s.results := rfl
@[simp] theorem handlerStart_cfg : (handlerStart s).cfg = s.cfg := rfl
@[simp] theorem handlerStart_env : (handlerStart s).env = drawEnv s.cfg.rxStretchMax s.env := rfl

/-! ### `armTxTimer` -/

@[simp] theorem armTxTimer_link : (armTxTimer s).link = s.link := rfl
@[simp] theorem armTxTimer_startSeen : (armTxTimer s).startSeen = s.startSeen := rfl
@[simp] theorem armTxTimer_dataAvail : (armTxTimer s).dataAvail = s.dataAvail := rfl
@[simp] theorem armTxTimer_ovf : (armTxTimer s).ovf = s.ovf := rfl
@[simp] theorem armTxTimer_edgePend : (armTxTimer s).edgePend = s.edgePend := rfl
@[simp] theorem armTxTimer_edgeIE : (armTxTimer s).edgeIE = s.edgeIE := rfl
@[simp] theorem armTxTimer_initDone : (armTxTimer s).initDone = s.initDone := rfl
@[simp] theorem armTxTimer_cursor : (armTxTimer s).cursor = s.cursor := rfl
@[simp] theorem armTxTimer_buf : (armTxTimer s).buf = s.buf := rfl
@[simp] theorem armTxTimer_rxActive : (armTxTimer s).rxActive = s.rxActive := rfl
@[simp] theorem armTxTimer_rxAcc : (armTxTimer s).rxAcc = s.rxAcc := rfl
@[simp] theorem armTxTimer_rxBit : (armTxTimer s).rxBit = s.rxBit := rfl
@[simp] theorem armTxTimer_rxTimer : (armTxTimer s).rxTimer = s.rxTimer := rfl
@[simp] theorem armTxTimer_rxWaited : (armTxTimer s).rxWaited = s.rxWaited := rfl
@[simp] theorem armTxTimer_txActive : (armTxTimer s).txActive = s.txActive := rfl
@[simp] theorem armTxTimer_txFrames : (armTxTimer s).txFrames = s.txFrames := rfl
@[simp] theorem armTxTimer_txBit : (armTxTimer s).txBit = s.txBit := rfl
@[simp] theorem armTxTimer_txTimer : (armTxTimer s).txTimer = s.cfg.ticksPerBit + drawValue s.cfg.txStretchMax s.env := rfl
@[simp] theorem armTxTimer_txGap : (armTxTimer s).txGap = s.txGap := rfl
@[simp] theorem armTxTimer_txPin : (armTxTimer s).txPin = s.txPin := rfl
@[simp] theorem armTxTimer_rxPin : (armTxTimer s).rxPin = s.rxPin := rfl
@[simp] theorem armTxTimer_rxPrev : (armTxTimer s).rxPrev = s.rxPrev := rfl
@[simp] theorem armTxTimer_invalidInput : (armTxTimer s).invalidInput = s.invalidInput := rfl
@[simp] theorem armTxTimer_faulted : (armTxTimer s).faulted = s.faulted := rfl
@[simp] theorem armTxTimer_rxIdleTicks : (armTxTimer s).rxIdleTicks = s.rxIdleTicks := rfl
@[simp] theorem armTxTimer_trace : (armTxTimer s).trace = s.trace := rfl
@[simp] theorem armTxTimer_txTotal : (armTxTimer s).txTotal = s.txTotal := rfl
@[simp] theorem armTxTimer_results : (armTxTimer s).results = s.results := rfl
@[simp] theorem armTxTimer_cfg : (armTxTimer s).cfg = s.cfg := rfl
@[simp] theorem armTxTimer_env : (armTxTimer s).env = drawEnv s.cfg.txStretchMax s.env := rfl

end Sys2Proof.Machine
end

