-- ==== Sys2Proof/Laws/Ops.lean ====
section
/-! SUPPORT. One lemma for each shared operation that says once what it can do; later proofs cite these. -/

namespace Sys2Proof.Machine

/-! ## Outcomes -/

@[simp] theorem andThen_next (s : State) (f : State → Out) : andThen (.next s) f = f s := rfl

@[simp] theorem andThen_fault (r : Fault) (f : State → Out) : andThen (.fault r) f = .fault r := rfl

@[simp] theorem andThen_refused (r : Refusal) (f : State → Out) : andThen (.refused r) f = .refused r := rfl

/-- A phase after another answers a next state only if both do. -/
theorem andThen_eq_next (o : Out) (f : State → Out) (t : State) :
    andThen o f = .next t ↔ ∃ s, o = .next s ∧ f s = .next t := by
  cases o <;> simp [andThen]

/-! ## Draws -/

/-- A draw stays in its range (R12). -/
theorem drawValue_le (n : Nat) (e : Env) : drawValue n e ≤ n := by
  unfold drawValue
  split
  · omega
  · split
    · exact Nat.min_le_right _ _
    · exact Nat.lt_succ_iff.1 (Nat.mod_lt _ (Nat.succ_pos n))

/-- Where the range holds only 0, the draw is 0. -/
@[simp] theorem drawValue_zero (e : Env) : drawValue 0 e = 0 := rfl

/-- Where the range holds only 0, no draw is used up. -/
@[simp] theorem drawEnv_zero (e : Env) : drawEnv 0 e = e := rfl

@[simp] theorem drawEnv_tick (n : Nat) (e : Env) : (drawEnv n e).tick = e.tick := by
  unfold drawEnv; split <;> (try split) <;> rfl

@[simp] theorem drawEnv_instId (n : Nat) (e : Env) : (drawEnv n e).instId = e.instId := by
  unfold drawEnv; split <;> (try split) <;> rfl

@[simp] theorem drawEnv_consumer (n : Nat) (e : Env) : (drawEnv n e).consumer = e.consumer := by
  unfold drawEnv; split <;> (try split) <;> rfl

@[simp] theorem drawEnv_rxSchedule (n : Nat) (e : Env) : (drawEnv n e).rxSchedule = e.rxSchedule := by
  unfold drawEnv; split <;> (try split) <;> rfl

@[simp] theorem drawEnv_rxRest (n : Nat) (e : Env) : (drawEnv n e).rxRest = e.rxRest := by
  unfold drawEnv; split <;> (try split) <;> rfl

/-! ## The buffer's operations -/

/-- TRY_PUSH with room (R201): the byte is stored at `CURSOR` and `CURSOR` grows by one. -/
theorem tryPush_fits (b : Byte) (s : State) (h : s.cursor < s.cfg.rxCapacity) :
    tryPush b s = { s with buf := slotWrite s.buf s.cursor b, cursor := s.cursor + 1 } := by
  simp [tryPush, pushFits, h]

/-- TRY_PUSH on a full buffer (R201): nothing is written. -/
theorem tryPush_full (b : Byte) (s : State) (h : s.cfg.rxCapacity ≤ s.cursor) : tryPush b s = s := by
  simp [tryPush, pushFits, h]

/-! ## Faults and checks -/

@[simp] theorem isFaulted_eq_false (s : State) : isFaulted s = false ↔ s.faulted = none := by
  unfold isFaulted; cases s.faulted <;> simp

@[simp] theorem isFaulted_eq_true (s : State) : isFaulted s = true ↔ s.faulted ≠ none := by
  unfold isFaulted; cases s.faulted <;> simp

/-- The first fault is recorded (R223). -/
theorem raiseFault_none (k : FaultKind) (s : State) (h : s.faulted = none) :
    raiseFault k s = { s with faulted := some k } := by
  simp [raiseFault, h]

/-- A later fault changes nothing (R223). -/
theorem raiseFault_some (k : FaultKind) (s : State) (h : s.faulted ≠ none) : raiseFault k s = s := by
  simp [raiseFault, h]

/-- The four outcomes of the checks of R224 for a command other than INIT. -/
theorem commandGate_cases (i : Instr) (run : State → Out) (s : State) :
    (s.faulted ≠ none ∧ commandGate i run s = .next s) ∨
    (s.faulted = none ∧ s.initDone = false ∧
      commandGate i run s = .next { s with faulted := some (.uninit (commandWord i)) }) ∨
    (s.faulted = none ∧ s.initDone = true ∧ s.rxActive = true ∧ commandGate i run s = .next (hold i s)) ∨
    (s.ready ∧ commandGate i run s = run s) := by
  unfold commandGate
  by_cases hf : s.faulted = none
  · by_cases hi : s.initDone = true
    · by_cases hr : s.rxActive = true
      · exact .inr (.inr (.inl ⟨hf, hi, hr, by simp [isFaulted, hf, hi, hr]⟩))
      · have hr : s.rxActive = false := by simpa using hr
        exact .inr (.inr (.inr ⟨⟨hf, hi, hr⟩, by simp [isFaulted, hf, hi, hr]⟩))
    · have hi : s.initDone = false := by simpa using hi
      exact .inr (.inl ⟨hf, hi, by simp [isFaulted, hf, hi, raiseFault]⟩)
  · exact .inl ⟨hf, by simp [hf]⟩

/-- A command that passes every check runs its own rule. -/
theorem commandGate_ready (i : Instr) (run : State → Out) (s : State) (h : s.ready) :
    commandGate i run s = run s := by
  simp [commandGate, isFaulted, h.1, h.2.1, h.2.2]

/-- The three outcomes of the checks for INIT. -/
theorem initGate_cases (i : Instr) (run : State → Out) (s : State) :
    (s.faulted ≠ none ∧ initGate i run s = .next s) ∨
    (s.faulted = none ∧ s.rxActive = true ∧ initGate i run s = .next (hold i s)) ∨
    (s.faulted = none ∧ s.rxActive = false ∧ initGate i run s = run s) := by
  unfold initGate
  by_cases hf : s.faulted = none
  · by_cases hr : s.rxActive = true
    · exact .inr (.inl ⟨hf, hr, by simp [isFaulted, hf, hr]⟩)
    · have hr : s.rxActive = false := by simpa using hr
      exact .inr (.inr ⟨hf, hr, by simp [isFaulted, hf, hr]⟩)
  · exact .inl ⟨hf, by simp [hf]⟩

/-- The two outcomes of a received-frame class. -/
theorem receiveGate_cases (run : State → State) (s : State) :
    (s.faulted ≠ none ∧ receiveGate run s = .next s) ∨ (s.faulted = none ∧ receiveGate run s = .next (run s)) := by
  unfold receiveGate
  by_cases hf : s.faulted = none
  · right; simp [isFaulted, hf]
  · left; simp [hf]

/-! ## The handler's entry -/

/-- An activation bails in `TX_IN_PROGRESS` and `DISABLED` (R173) and starts a receive else (R174). -/
theorem handlerEntry_cases (s : State) :
    ((s.link = .txInProgress ∨ s.link = .disabled) ∧ handlerEntry s = handlerBail s) ∨
    ((s.link = .idle ∨ s.link = .rxInProgress) ∧ handlerEntry s = handlerStart s) := by
  unfold handlerEntry mustBail
  cases h : s.link <;> simp

end Sys2Proof.Machine
end

