-- ==== Sys2Proof/Laws/Step.lean ====
section
/-! SUPPORT. What each instruction, each phase and one tick can do, said once: inversion lemmas that later proofs cite
instead of unfolding the phases. -/

namespace Sys2Proof.Machine

/-! ## The instructions -/

/-- What a received byte's class does to an instance that is not faulted (R178). -/
theorem exec_classify_cases (b : Byte) (s : State) (h : s.faulted = none) :
    (b = stx ∧ exec (classify b) s = .next (rxStx s)) ∨
    (b = etx ∧ s.startSeen = true ∧ exec (classify b) s = .next (rxEtx s)) ∨
    (b = etx ∧ s.startSeen = false ∧ exec (classify b) s = .next (rxDrop etx s)) ∨
    (b ≠ stx ∧ b ≠ etx ∧ s.startSeen = true ∧ exec (classify b) s = .next (rxData b s)) ∨
    (b ≠ stx ∧ b ≠ etx ∧ s.startSeen = false ∧ exec (classify b) s = .next (rxDrop b s)) := by
  have hf : isFaulted s = false := by simpa using h
  unfold classify
  by_cases h1 : b = stx
  · exact .inl ⟨h1, by simp [h1, exec, execFrameStx, receiveGate, hf]⟩
  · by_cases h2 : b = etx
    · have h3 : ¬ etx = stx := by decide
      by_cases h4 : s.startSeen = true
      · exact .inr (.inl ⟨h2, h4, by simp [h2, h3, exec, execFrameEtx, receiveGate, hf, h4]⟩)
      · have h4 : s.startSeen = false := by simpa using h4
        exact .inr (.inr (.inl ⟨h2, h4, by simp [h2, h3, exec, execFrameEtx, receiveGate, hf, h4]⟩))
    · by_cases h4 : s.startSeen = true
      · exact .inr (.inr (.inr (.inl ⟨h1, h2, h4, by simp [h1, h2, exec, execFrameData, receiveGate, hf, h4]⟩)))
      · have h4 : s.startSeen = false := by simpa using h4
        exact .inr (.inr (.inr (.inr ⟨h1, h2, h4, by simp [h1, h2, exec, execFrameData, receiveGate, hf, h4]⟩)))

/-- RX_ETX with room for the terminator (R180). -/
theorem rxEtx_fits (s : State) (h : s.cursor < s.cfg.rxCapacity) :
    rxEtx s =
      { s with
        buf := slotWrite s.buf s.cursor s.cfg.terminator
        cursor := s.cursor + 1
        dataAvail := true
        trace := s.trace ++ [⟨s.env.tick, s.env.instId, .msgReady s.cursor⟩]
        startSeen := false
        link := .idle } := by
  simp [rxEtx, tryPush_fits _ _ h, pushFits, h, endMessage, emit]

/-- RX_ETX on a full buffer (R180). -/
theorem rxEtx_full (s : State) (h : s.cfg.rxCapacity ≤ s.cursor) :
    rxEtx s =
      { s with
        trace := s.trace ++ [⟨s.env.tick, s.env.instId, .etxLost⟩]
        startSeen := false
        link := .idle } := by
  simp [rxEtx, tryPush_full _ _ h, pushFits, h, endMessage, emit]

/-- RX_DATA with room for the byte (R182). -/
theorem rxData_fits (b : Byte) (s : State) (h : s.cursor < s.cfg.rxCapacity) :
    rxData b s = { s with buf := slotWrite s.buf s.cursor b, cursor := s.cursor + 1 } := by
  simp [rxData, pushFits, h, tryPush_fits _ _ h]

/-- RX_DATA on a full buffer (R182, R204). -/
theorem rxData_full (b : Byte) (s : State) (h : s.cfg.rxCapacity ≤ s.cursor) :
    rxData b s = reportOverflow b s := by
  simp [rxData, pushFits, h, tryPush_full _ _ h]

/-- No command word decodes to a received-frame class: the two domains never mix (R80). -/
theorem decodeCommand_ne_frame (cmd : CmdWord) (operand : List Byte) :
    decode (.command cmd operand) ≠ .ok .frameStx ∧ decode (.command cmd operand) ≠ .ok .frameEtx
      ∧ ∀ b, decode (.command cmd operand) ≠ .ok (.frameData b) := by
  refine ⟨?_, ?_, fun b => ?_⟩ <;> (simp only [decode, decodeCommand]; split_ifs <;> simp)

/-- What a consumer command does when it answers a next state: nothing, a fault raised, a hold, or its own rule. -/
theorem exec_command_cases (cmd : CmdWord) (operand : List Byte) (i : Instr) (s t : State)
    (hd : decode (.command cmd operand) = .ok i) (h : exec i s = .next t) :
    (s.faulted ≠ none ∧ t = s) ∨
    (s.faulted = none ∧ s.initDone = false ∧ i ≠ .init ∧ t = { s with faulted := some (.uninit (commandWord i)) }) ∨
    (s.faulted = none ∧ s.rxActive = true ∧ t = hold i s) ∨
    (s.faulted = none ∧ s.rxActive = false ∧ i = .init ∧ runInit s = .next t) ∨
    (s.ready ∧
      ((∃ msg, i = .send msg ∧ runSend msg s = .next t) ∨
       (i = .isDataAvailable ∧ t = giveResult (.bit s.dataAvail) s) ∨
       (i = .readAndClear ∧ runReadAndClear s = .next t) ∨
       (i = .clear ∧ t = clearBuffer s) ∨
       (i = .disable ∧ t = { s with link := .disabled, startSeen := false }) ∨
       (i = .enable ∧ t = { s with link := if s.link = .disabled then .idle else s.link }))) := by
  cases i with
  | init =>
    rcases initGate_cases .init runInit s with ⟨a, e⟩ | ⟨a, b, e⟩ | ⟨a, b, e⟩ <;>
      simp only [exec, execInit, e] at h
    · exact .inl ⟨a, by injection h with h; exact h.symm⟩
    · exact .inr (.inr (.inl ⟨a, b, by injection h with h; exact h.symm⟩))
    · exact .inr (.inr (.inr (.inl ⟨a, b, rfl, h⟩)))
  | send msg =>
    rcases commandGate_cases (.send msg) (runSend msg) s with ⟨a, e⟩ | ⟨a, b, e⟩ | ⟨a, b, c, e⟩ | ⟨a, e⟩ <;>
      simp only [exec, execSend, e] at h
    · exact .inl ⟨a, by injection h with h; exact h.symm⟩
    · exact .inr (.inl ⟨a, b, by simp, by injection h with h; exact h.symm⟩)
    · exact .inr (.inr (.inl ⟨a, c, by injection h with h; exact h.symm⟩))
    · exact .inr (.inr (.inr (.inr ⟨a, .inl ⟨msg, rfl, h⟩⟩)))
  | isDataAvailable =>
    rcases commandGate_cases .isDataAvailable (fun s => .next (giveResult (.bit s.dataAvail) s)) s with
      ⟨a, e⟩ | ⟨a, b, e⟩ | ⟨a, b, c, e⟩ | ⟨a, e⟩ <;>
      simp only [exec, execIsDataAvailable, e] at h <;> injection h with h <;> subst h
    · exact .inl ⟨a, rfl⟩
    · exact .inr (.inl ⟨a, b, by simp, rfl⟩)
    · exact .inr (.inr (.inl ⟨a, c, rfl⟩))
    · exact .inr (.inr (.inr (.inr ⟨a, .inr (.inl ⟨rfl, rfl⟩)⟩)))
  | readAndClear =>
    rcases commandGate_cases .readAndClear runReadAndClear s with ⟨a, e⟩ | ⟨a, b, e⟩ | ⟨a, b, c, e⟩ | ⟨a, e⟩ <;>
      simp only [exec, execReadAndClear, e] at h
    · exact .inl ⟨a, by injection h with h; exact h.symm⟩
    · exact .inr (.inl ⟨a, b, by simp, by injection h with h; exact h.symm⟩)
    · exact .inr (.inr (.inl ⟨a, c, by injection h with h; exact h.symm⟩))
    · exact .inr (.inr (.inr (.inr ⟨a, .inr (.inr (.inl ⟨rfl, h⟩))⟩)))
  | clear =>
    rcases commandGate_cases .clear (fun s => .next (clearBuffer s)) s with
      ⟨a, e⟩ | ⟨a, b, e⟩ | ⟨a, b, c, e⟩ | ⟨a, e⟩ <;>
      simp only [exec, execClear, e] at h <;> injection h with h <;> subst h
    · exact .inl ⟨a, rfl⟩
    · exact .inr (.inl ⟨a, b, by simp, rfl⟩)
    · exact .inr (.inr (.inl ⟨a, c, rfl⟩))
    · exact .inr (.inr (.inr (.inr ⟨a, .inr (.inr (.inr (.inl ⟨rfl, rfl⟩)))⟩)))
  | disable =>
    rcases commandGate_cases .disable (fun s => .next { s with link := .disabled, startSeen := false }) s with
      ⟨a, e⟩ | ⟨a, b, e⟩ | ⟨a, b, c, e⟩ | ⟨a, e⟩ <;>
      simp only [exec, execDisable, e] at h <;> injection h with h <;> subst h
    · exact .inl ⟨a, rfl⟩
    · exact .inr (.inl ⟨a, b, by simp, rfl⟩)
    · exact .inr (.inr (.inl ⟨a, c, rfl⟩))
    · exact .inr (.inr (.inr (.inr ⟨a, .inr (.inr (.inr (.inr (.inl ⟨rfl, rfl⟩))))⟩)))
  | enable =>
    rcases commandGate_cases .enable
        (fun s => .next { s with link := if s.link = .disabled then .idle else s.link }) s with
      ⟨a, e⟩ | ⟨a, b, e⟩ | ⟨a, b, c, e⟩ | ⟨a, e⟩ <;>
      simp only [exec, execEnable, e] at h <;> injection h with h <;> subst h
    · exact .inl ⟨a, rfl⟩
    · exact .inr (.inl ⟨a, b, by simp, rfl⟩)
    · exact .inr (.inr (.inl ⟨a, c, rfl⟩))
    · exact .inr (.inr (.inr (.inr ⟨a, .inr (.inr (.inr (.inr (.inr ⟨rfl, rfl⟩))))⟩)))
  | frameStx => exact absurd hd (decodeCommand_ne_frame cmd operand).1
  | frameEtx => exact absurd hd (decodeCommand_ne_frame cmd operand).2.1
  | frameData b => exact absurd hd ((decodeCommand_ne_frame cmd operand).2.2 b)

/-- What SEND does once its checks are passed (R130, R131). -/
theorem runSend_cases (msg : List Byte) (s : State) :
    ((s.link = .rxInProgress ∨ s.link = .txInProgress) ∧ runSend msg s = .next (emit (.txRejected s.link) s)) ∨
    ((s.link = .idle ∨ s.link = .disabled) ∧ runSend msg s = .next (admitSend msg s)) := by
  unfold runSend sendRejected
  cases h : s.link <;> simp

/-- What READ_AND_CLEAR does once its checks are passed, when it does not stop (R203). -/
theorem runReadAndClear_next (s t : State) (h : runReadAndClear s = .next t) :
    ∃ l, memReadList s (payloadLength s) = .ok l ∧ t = giveResult (.bytes l) (clearBuffer s) := by
  unfold runReadAndClear at h
  split at h
  · rename_i l hl
    injection h with h
    exact ⟨l, hl, h.symm⟩
  · cases h

/-! ## The phases -/

/-- What the RX engine does in a tick (R172, R175, R176). -/
theorem rxPhase_cases (s t : State) (h : rxPhase s = .next t) :
    (s.faulted ≠ none ∧ t = s) ∨
    (s.faulted = none ∧ s.rxActive = true ∧ s.rxTimer - 1 ≠ 0 ∧ t = { s with rxTimer := s.rxTimer - 1 }) ∨
    (s.faulted = none ∧ s.rxActive = true ∧ s.rxTimer - 1 = 0 ∧ s.rxBit < 8 ∧ t = takeSample { s with rxTimer := 0 }) ∨
    (s.faulted = none ∧ s.rxActive = true ∧ s.rxTimer - 1 = 0 ∧ ¬ s.rxBit < 8 ∧
      exec (classify s.rxAcc) (handlerReturn { s with rxTimer := 0 }) = .next t) ∨
    (s.faulted = none ∧ s.rxActive = false ∧ s.edgePend = true ∧ s.initDone = true ∧ t = waitOrActivate s) ∨
    (s.faulted = none ∧ s.rxActive = false ∧ ¬ (s.edgePend = true ∧ s.initDone = true) ∧ t = s) := by
  unfold rxPhase at h
  by_cases hf : s.faulted = none
  · rw [if_neg (by simpa using hf)] at h
    by_cases hr : s.rxActive = true
    · rw [if_pos hr] at h
      unfold rxStep at h
      by_cases ht : s.rxTimer - 1 = 0
      · rw [if_pos ht] at h
        by_cases hb : s.rxBit < 8
        · rw [if_pos hb, ht] at h
          injection h with h
          exact .inr (.inr (.inl ⟨hf, hr, ht, hb, h.symm⟩))
        · rw [if_neg hb, ht] at h
          exact .inr (.inr (.inr (.inl ⟨hf, hr, ht, hb, h⟩)))
      · rw [if_neg ht] at h
        injection h with h
        exact .inr (.inl ⟨hf, hr, ht, h.symm⟩)
    · rw [if_neg hr] at h
      have hr : s.rxActive = false := by simpa using hr
      by_cases he : s.edgePend = true ∧ s.initDone = true
      · rw [if_pos (by simpa using he)] at h
        injection h with h
        exact .inr (.inr (.inr (.inr (.inl ⟨hf, hr, he.1, he.2, h.symm⟩))))
      · rw [if_neg (by simpa using he)] at h
        injection h with h
        exact .inr (.inr (.inr (.inr (.inr ⟨hf, hr, he, h.symm⟩))))
  · rw [if_pos (by simpa using hf)] at h
    injection h with h
    exact .inl ⟨hf, h.symm⟩

/-- A pending edge waits, bails or starts a receive (R172 to R174). -/
theorem waitOrActivate_cases (s : State) :
    (takesEdge s = false ∧ s.rxWaited < s.cfg.rxLatencyMax ∧
      waitOrActivate s = { s with env := drawEnv 1 s.env, rxWaited := s.rxWaited + 1 }) ∨
    (takesEdge s = true ∧ (s.link = .txInProgress ∨ s.link = .disabled) ∧
      waitOrActivate s = handlerBail { afterEdgeDraw s with rxWaited := 0 }) ∨
    (takesEdge s = true ∧ (s.link = .idle ∨ s.link = .rxInProgress) ∧
      waitOrActivate s = handlerStart { afterEdgeDraw s with rxWaited := 0 }) := by
  have hl : ∀ n, ({ afterEdgeDraw s with rxWaited := n } : State).link = s.link := by
    intro n; simp only [afterEdgeDraw]; split <;> simp
  by_cases h : takesEdge s = true
  · rcases handlerEntry_cases { afterEdgeDraw s with rxWaited := 0 } with ⟨a, e⟩ | ⟨a, e⟩
    · rw [hl] at a
      exact .inr (.inl ⟨h, a, by simp [waitOrActivate, h, e]⟩)
    · rw [hl] at a
      exact .inr (.inr ⟨h, a, by simp [waitOrActivate, h, e]⟩)
  · have h' : takesEdge s = false := by simpa using h
    have hw : s.rxWaited < s.cfg.rxLatencyMax := by
      by_contra hc; simp [takesEdge, hc] at h'
    exact .inl ⟨h', hw, by simp [waitOrActivate, h', afterEdgeDraw, hw]⟩

/-- What the consumer's phase does (R70, R137, R224). -/
theorem consumerPhase_cases (s t : State) (h : consumerPhase s = .next t) :
    (s.txActive = true ∧ t = s) ∨
    (s.txActive = false ∧ s.env.consumer = [] ∧ t = s) ∨
    (s.txActive = false ∧ (∃ rest, s.env.consumer = .idle :: rest) ∧ t = popConsumer s) ∨
    (∃ cmd operand rest i, s.txActive = false ∧ s.env.consumer = .issue cmd operand :: rest ∧
      decode (.command cmd operand) = .ok i ∧ exec i (popConsumer s) = .next t) ∨
    (∃ cmd operand rest w, s.txActive = false ∧ s.env.consumer = .issue cmd operand :: rest ∧
      decode (.command cmd operand) = .error (.illegalCommand w) ∧
      t = raiseFault (.illegalCommand w) (popConsumer s)) := by
  unfold consumerPhase at h
  by_cases ha : s.txActive = true
  · simp only [ha, if_true] at h
    injection h with h
    exact .inl ⟨ha, h.symm⟩
  · have ha : s.txActive = false := by simpa using ha
    simp only [ha, Bool.false_eq_true, if_false] at h
    cases hc : s.env.consumer with
    | nil =>
      simp only [hc] at h
      injection h with h
      exact .inr (.inl ⟨ha, rfl, h.symm⟩)
    | cons x rest =>
      cases x with
      | idle =>
        simp only [hc] at h
        injection h with h
        exact .inr (.inr (.inl ⟨ha, ⟨rest, rfl⟩, h.symm⟩))
      | issue cmd operand =>
        simp only [hc, issueCommand] at h
        cases hd : decode (.command cmd operand) with
        | ok i =>
          simp only [hd] at h
          exact .inr (.inr (.inr (.inl ⟨cmd, operand, rest, i, ha, rfl, hd, h⟩)))
        | error e =>
          obtain ⟨w⟩ := e
          simp only [hd] at h
          injection h with h
          exact .inr (.inr (.inr (.inr ⟨cmd, operand, rest, w, ha, rfl, hd, h.symm⟩)))

/-- What TX_STEP does (R133, R134). -/
theorem txStep_cases (s : State) :
    (s.txTimer - 1 ≠ 0 ∧ txStep s = { s with txTimer := s.txTimer - 1 }) ∨
    (s.txTimer - 1 = 0 ∧ s.txGap = true ∧ txStep s = armTxTimer { s with txTimer := 0, txGap := false, txBit := 0 }) ∨
    (s.txTimer - 1 = 0 ∧ s.txGap = false ∧ s.txBit < 9 ∧
      txStep s = armTxTimer { s with txTimer := 0, txBit := s.txBit + 1 }) ∨
    (s.txTimer - 1 = 0 ∧ s.txGap = false ∧ ¬ s.txBit < 9 ∧ s.txFrames.tail = [] ∧
      txStep s = txComplete { s with txTimer := 0, txFrames := [] }) ∨
    (s.txTimer - 1 = 0 ∧ s.txGap = false ∧ ¬ s.txBit < 9 ∧ s.txFrames.tail ≠ [] ∧ 0 < s.cfg.txGapBits ∧
      txStep s =
        { s with txFrames := s.txFrames.tail, txGap := true, txTimer := s.cfg.txGapBits * s.cfg.ticksPerBit }) ∨
    (s.txTimer - 1 = 0 ∧ s.txGap = false ∧ ¬ s.txBit < 9 ∧ s.txFrames.tail ≠ [] ∧ s.cfg.txGapBits = 0 ∧
      txStep s = armTxTimer { s with txTimer := 0, txFrames := s.txFrames.tail, txBit := 0 }) := by
  unfold txStep
  by_cases ht : s.txTimer - 1 = 0
  · by_cases hg : s.txGap = true
    · exact .inr (.inl ⟨ht, hg, by simp [ht, hg]⟩)
    · have hg : s.txGap = false := by simpa using hg
      by_cases hb : s.txBit < 9
      · exact .inr (.inr (.inl ⟨ht, hg, hb, by simp [ht, hg, hb]⟩))
      · by_cases hl : s.txFrames.tail = []
        · exact .inr (.inr (.inr (.inl ⟨ht, hg, hb, hl, by simp [ht, hg, hb, hl, txFrameEnd]⟩)))
        · by_cases hz : 0 < s.cfg.txGapBits
          · exact .inr (.inr (.inr (.inr (.inl ⟨ht, hg, hb, hl, hz, by simp [ht, hg, hb, hl, hz, txFrameEnd]⟩))))
          · have hz' : s.cfg.txGapBits = 0 := by omega
            exact .inr (.inr (.inr (.inr (.inr ⟨ht, hg, hb, hl, hz', by simp [ht, hg, hb, hl, hz', txFrameEnd]⟩))))
  · exact .inl ⟨ht, by simp [ht]⟩

/-- What phase 6 does. -/
theorem txPhase_cases (w : Bool) (s : State) :
    ((s.faulted ≠ none ∨ w = false ∨ s.txActive = false) ∧ txPhase w s = s) ∨
    (s.faulted = none ∧ w = true ∧ s.txActive = true ∧ txPhase w s = txStep s) := by
  unfold txPhase
  by_cases hf : s.faulted = none
  · have hf' : isFaulted s = false := by simpa using hf
    cases w <;> cases s.txActive <;> simp [hf, hf']
  · have hf' : isFaulted s = true := by simpa using hf
    exact .inl ⟨.inl hf, by simp [hf']⟩

/-- What phase 7 does (R157). -/
theorem watchdogPhase_cases (s : State) :
    ((s.cfg.rxTimeoutBits = none ∨ s.faulted ≠ none ∨ s.initDone = false) ∧ watchdogPhase s = s) ∨
    (∃ k, s.cfg.rxTimeoutBits = some k ∧ s.faulted = none ∧ s.initDone = true ∧
      ((s.link = .rxInProgress ∧ s.rxActive = false ∧ k * s.cfg.ticksPerBit ≤ s.rxIdleTicks + 1 ∧
          watchdogPhase s = emit .rxTimeout { s with link := .idle, startSeen := false, rxIdleTicks := 0 }) ∨
       (s.link = .rxInProgress ∧ s.rxActive = false ∧ s.rxIdleTicks + 1 < k * s.cfg.ticksPerBit ∧
          watchdogPhase s = { s with rxIdleTicks := s.rxIdleTicks + 1 }) ∨
       (¬ (s.link = .rxInProgress ∧ s.rxActive = false) ∧ watchdogPhase s = { s with rxIdleTicks := 0 }))) := by
  cases hk : s.cfg.rxTimeoutBits with
  | none => exact .inl ⟨.inl rfl, by simp [watchdogPhase, hk]⟩
  | some k =>
    by_cases hf : s.faulted = none
    · have hf' : isFaulted s = false := by simpa using hf
      by_cases hi : s.initDone = true
      · right
        refine ⟨k, rfl, hf, hi, ?_⟩
        by_cases hl : s.link = .rxInProgress ∧ s.rxActive = false
        · by_cases ht : k * s.cfg.ticksPerBit ≤ s.rxIdleTicks + 1
          · exact .inl ⟨hl.1, hl.2, ht, by simp [watchdogPhase, hk, hf', hi, watchdogStep, hl, ht]⟩
          · exact .inr (.inl ⟨hl.1, hl.2, by omega, by simp [watchdogPhase, hk, hf', hi, watchdogStep, hl, ht]⟩)
        · exact .inr (.inr ⟨hl, by simp only [watchdogPhase, hk, hf', hi, watchdogStep, hl]; simp⟩)
      · have hi : s.initDone = false := by simpa using hi
        exact .inl ⟨.inr (.inr hi), by simp [watchdogPhase, hk, hi]⟩
    · have hf' : isFaulted s = true := by simpa using hf
      exact .inl ⟨.inr (.inl hf), by simp [watchdogPhase, hk, hf']⟩

/-! ## The tick -/

/-- A tick, once the line has its level, is its phases 4 to 7. -/
theorem afterLine_eq_next (s t : State) :
    afterLine s = .next t ↔
      ∃ s4 s5, rxPhase (edgeDetect s) = .next s4 ∧ consumerPhase s4 = .next s5
        ∧ t = afterConsumer s4.txActive s5 := by
  unfold afterLine
  simp only [andThen_eq_next]
  constructor
  · rintro ⟨s4, h4, s5, h5, h⟩
    injection h with h
    exact ⟨s4, s5, h4, h5, h.symm⟩
  · rintro ⟨s4, s5, h4, h5, rfl⟩
    exact ⟨s4, h4, s5, h5, rfl⟩

/-- A step is its phases. -/
theorem step_eq_next (s t : State) :
    step s = .next t ↔
      ∃ s4 s5, rxPhase (edgeDetect (linePhase (drivePhase s))) = .next s4 ∧ consumerPhase s4 = .next s5
        ∧ t = afterConsumer s4.txActive s5 :=
  afterLine_eq_next _ _

/-- One more tick of a run. -/
theorem run_succ (k : Nat) (s : State) :
    Host.Core.run Sys2Proof.core (k + 1) s =
      match step s with
      | .next s' => Host.Core.run Sys2Proof.core k s'
      | .fault r => .fault r
      | .refused r => .refused r := by
  cases h : step s with
  | next s' =>
    have h' : Sys2Proof.core.step s = .next s' := h
    simp [Host.Core.run, h']
  | fault r =>
    have h' : Sys2Proof.core.step s = .fault r := h
    simp [Host.Core.run, h']
  | refused r =>
    have h' : Sys2Proof.core.step s = .refused r := h
    simp [Host.Core.run, h']

/-- A run of no ticks. -/
@[simp] theorem run_zero (s : State) : Host.Core.run Sys2Proof.core 0 s = .next s := rfl

/-- A run goes on from where its first tick ends. -/
theorem run_succ_of_step (k : Nat) (s s' : State) (h : step s = .next s') :
    Host.Core.run Sys2Proof.core (k + 1) s = Host.Core.run Sys2Proof.core k s' := by
  rw [run_succ, h]

/-- A run of `m + n` ticks goes on from where its first `m` ticks end. -/
theorem run_add (m n : Nat) (s s' : State) (h : Host.Core.run Sys2Proof.core m s = .next s') :
    Host.Core.run Sys2Proof.core (m + n) s = Host.Core.run Sys2Proof.core n s' := by
  induction m generalizing s with
  | zero =>
    simp only [run_zero] at h
    injection h with h
    subst h
    simp
  | succ m ih =>
    rw [show m + 1 + n = (m + n) + 1 by omega, run_succ]
    rw [run_succ] at h
    cases hs : step s with
    | next s1 => simp only [hs] at h ⊢; exact ih s1 h
    | fault r => simp [hs] at h
    | refused r => simp [hs] at h

/-! ## What a tick keeps -/

/-- A property that every phase keeps is kept by a tick. -/
theorem step_keeps (P : State → Prop)
    (hdrive : ∀ s, P s → P (drivePhase s)) (hline : ∀ s, P s → P (linePhase s))
    (hedge : ∀ s, P s → P (edgeDetect s)) (hrx : ∀ s t, P s → rxPhase s = .next t → P t)
    (hcons : ∀ s t, P s → consumerPhase s = .next t → P t) (htx : ∀ w s, P s → P (txPhase w s))
    (hdog : ∀ s, P s → P (watchdogPhase s)) (hend : ∀ s, P s → P (endTick s))
    (s t : State) (hs : P s) (h : step s = .next t) : P t := by
  obtain ⟨s4, s5, h4, h5, rfl⟩ := (step_eq_next s t).1 h
  exact hend _ (hdog _ (htx _ _ (hcons _ _ (hrx _ _ (hedge _ (hline _ (hdrive _ hs))) h4) h5)))

/-- The line sets `RX_PIN` and may use up a draw (R237). -/
theorem setLine_cases (d : Drive) (s : State) : 
    ∃ p e, setLine d s = { s with rxPin := p, env := e } ∧ e.tick = s.env.tick ∧ e.instId = s.env.instId
      ∧ e.consumer = s.env.consumer := by
  cases d with
  | undriven => exact ⟨_, _, rfl, by simp, by simp, by simp⟩
  | driven v => exact ⟨v, s.env, rfl, rfl, rfl, rfl⟩

/-- Phase 2 sets `RX_PIN` and moves the schedule on. -/
theorem linePhase_cases (s : State) : 
    ∃ p e, linePhase s = { s with rxPin := p, env := e } ∧ e.tick = s.env.tick ∧ e.instId = s.env.instId
      ∧ e.consumer = s.env.consumer := by
  obtain ⟨p, e, h, a, b, c⟩ :=
    setLine_cases (lineDrive s) { s with env := { s.env with rxSchedule := s.env.rxSchedule.tail } }
  exact ⟨p, e, by rw [linePhase, h], by simpa using a, by simpa using b, by simpa using c⟩

/-- Phase 1 sets `TX_PIN` only (R133). -/
theorem drivePhase_cases (s : State) : ∃ p, drivePhase s = { s with txPin := p } := by
  unfold drivePhase; split
  · exact ⟨s.txPin, rfl⟩
  · exact ⟨_, rfl⟩

/-- Phase 3 (R170). -/
theorem edgeDetect_cases (s : State) :
    (s.faulted ≠ none ∧ edgeDetect s = s) ∨
    (s.faulted = none ∧ edgeDetect s =
      { s with edgePend := s.edgePend || (s.edgeIE && !s.rxPrev && s.rxPin), rxPrev := s.rxPin }) := by
  unfold edgeDetect; split
  · rename_i h; left; exact ⟨by simpa using h, rfl⟩
  · rename_i h; right; exact ⟨by simpa using h, rfl⟩

/-- A property that every effect of a command keeps is kept by the consumer's phase (R130 to R153, R200 to R203,
R222 to R224). -/
theorem consumer_keeps (P : State → Prop)
    (hf : ∀ s k, s.faulted = none → P s → P { s with faulted := some k })
    (he : ∀ s e, P s → e.tick = s.env.tick → e.instId = s.env.instId → P { s with env := e })
    (hi : ∀ s t, P s → s.faulted = none → s.rxActive = false → s.txActive = false → runInit s = .next t →
      P t)
    (hrej : ∀ s, s.ready → P s → P (emit (.txRejected s.link) s))
    (hsend : ∀ s msg, s.ready → s.txActive = false → (s.link = .idle ∨ s.link = .disabled) → P s →
      P (admitSend msg s))
    (hres : ∀ s r, P s → P (giveResult r s))
    (hclr : ∀ s, s.ready → P s → P (clearBuffer s))
    (hdis : ∀ s, s.ready → s.txActive = false → P s →
      P { s with link := .disabled, startSeen := false })
    (hen : ∀ s, s.ready → s.txActive = false → P s →
      P { s with link := if s.link = .disabled then .idle else s.link })
    (s t : State) (hs : P s) (h : consumerPhase s = .next t) : P t := by
  have hp : P (popConsumer s) := he _ _ hs rfl rfl
  rcases consumerPhase_cases s t h with ⟨_, rfl⟩ | ⟨_, _, rfl⟩ | ⟨_, _, rfl⟩ |
    ⟨cmd, op, rest, i, ha, hc, hd, hx⟩ | ⟨cmd, op, rest, w, ha, hc, hd, rfl⟩
  · exact hs
  · exact hs
  · exact hp
  · have ha' : (popConsumer s).txActive = false := ha
    generalize popConsumer s = u at *
    rcases exec_command_cases cmd op i u t hd hx with ⟨_, rfl⟩ | ⟨a, _, _, rfl⟩ | ⟨_, _, rfl⟩ |
      ⟨a, b, _, c⟩ | ⟨hr, hh⟩
    · exact hp
    · exact hf _ _ a hp
    · exact he _ _ hp rfl rfl
    · exact hi _ _ hp a b ha' c
    · rcases hh with ⟨msg, rfl, hh⟩ | ⟨rfl, rfl⟩ | ⟨rfl, hh⟩ | ⟨rfl, rfl⟩ | ⟨rfl, rfl⟩ | ⟨rfl, rfl⟩
      · rcases runSend_cases msg u with ⟨a, e⟩ | ⟨a, e⟩ <;> rw [e] at hh <;> injection hh with hh <;>
          subst hh
        · exact hrej _ hr hp
        · exact hsend _ _ hr ha' a hp
      · exact hres _ _ hp
      · obtain ⟨l, _, rfl⟩ := runReadAndClear_next _ _ hh
        exact hres _ _ (hclr _ hr hp)
      · exact hclr _ hr hp
      · exact hdis _ hr ha' hp
      · exact hen _ hr ha' hp
  · generalize popConsumer s = u at *
    by_cases hu : u.faulted = none
    · rw [raiseFault_none _ _ hu]; exact hf _ _ hu hp
    · rw [raiseFault_some _ _ hu]; exact hp

/-- The choice of R172 only uses up a draw. -/
theorem afterEdgeDraw_cases (s : State) :
    ∃ e, afterEdgeDraw s = { s with env := e } ∧ e.tick = s.env.tick ∧ e.instId = s.env.instId
      ∧ e.consumer = s.env.consumer := by
  unfold afterEdgeDraw; split
  · exact ⟨_, rfl, by simp, by simp, by simp⟩
  · exact ⟨s.env, rfl, rfl, rfl, rfl⟩

/-- A property that every effect of every phase keeps is kept by a tick. -/
theorem tick_keeps (P : State → Prop)
    (hpin : ∀ s p, s.faulted = none → P s → P { s with txPin := p })
    (henv : ∀ s p e, P s → e.tick = s.env.tick → e.instId = s.env.instId →
      P { s with rxPin := p, env := e })
    (hedge : ∀ s, s.faulted = none → P s →
      P { s with edgePend := s.edgePend || (s.edgeIE && !s.rxPrev && s.rxPin), rxPrev := s.rxPin })
    (hcount : ∀ s, s.faulted = none → s.rxActive = true → s.rxTimer - 1 ≠ 0 → P s →
      P { s with rxTimer := s.rxTimer - 1 })
    (hsample : ∀ s, s.faulted = none → s.rxActive = true → s.rxTimer - 1 = 0 → s.rxBit < 8 → P s →
      P (takeSample { s with rxTimer := 0 }))
    (hret : ∀ s t, s.faulted = none → s.rxActive = true → s.rxTimer - 1 = 0 → ¬ s.rxBit < 8 → P s →
      exec (classify s.rxAcc) (handlerReturn { s with rxTimer := 0 }) = .next t → P t)
    (hwait : ∀ s, s.faulted = none → s.rxActive = false → s.edgePend = true → s.initDone = true → P s →
      P (waitOrActivate s))
    (hcons : ∀ s t, P s → consumerPhase s = .next t → P t)
    (htx : ∀ s, s.faulted = none → s.txActive = true → P s → P (txStep s))
    (hdog : ∀ s, P s → P (watchdogPhase s)) (hend : ∀ s, P s → P (endTick s))
    (s t : State) (hs : P s) (h : step s = .next t) : P t := by
  refine step_keeps P ?_ ?_ ?_ ?_ hcons ?_ hdog hend s t hs h
  · intro s hs
    unfold drivePhase; split
    · exact hs
    · rename_i hf; exact hpin _ _ (by simpa using hf) hs
  · intro s hs; obtain ⟨p, q, e, a, b, _⟩ := linePhase_cases s; rw [e]; exact henv _ _ _ hs a b
  · intro s hs; rcases edgeDetect_cases s with ⟨_, e⟩ | ⟨hf, e⟩ <;> rw [e]
    · exact hs
    · exact hedge _ hf hs
  · intro s t hs h
    rcases rxPhase_cases s t h with ⟨_, rfl⟩ | ⟨a, b, c, rfl⟩ | ⟨a, b, c, d, rfl⟩ | ⟨hf, a, b, c, hx⟩ |
      ⟨a, b, c, d, rfl⟩ | ⟨_, _, _, rfl⟩
    · exact hs
    · exact hcount _ a b c hs
    · exact hsample _ a b c d hs
    · exact hret _ _ hf a b c hs hx
    · exact hwait _ a b c d hs
    · exact hs
  · intro w s hs
    rcases txPhase_cases w s with ⟨_, e⟩ | ⟨a, _, b, e⟩ <;> rw [e]
    · exact hs
    · exact htx _ a b hs

/-- A property that every class of received byte keeps is kept by the completion (R178 to R183). -/
theorem rxComplete_keeps (P : State → Prop) (s t : State) (b : Byte) (hf : s.faulted = none) (hs : P s)
    (hstx : P s → P (rxStx s))
    (hfit : s.startSeen = true → s.cursor < s.cfg.rxCapacity → P { s with
        buf := slotWrite s.buf s.cursor s.cfg.terminator
        cursor := s.cursor + 1
        dataAvail := true
        trace := s.trace ++ [⟨s.env.tick, s.env.instId, .msgReady s.cursor⟩]
        startSeen := false
        link := .idle })
    (hfull : s.startSeen = true → s.cfg.rxCapacity ≤ s.cursor → P  { s with
        trace := s.trace ++ [⟨s.env.tick, s.env.instId, .etxLost⟩]
        startSeen := false
        link := .idle })
    (hdrop : ∀ b, P (rxDrop b s))
    (hdata : ∀ b, s.startSeen = true → s.cursor < s.cfg.rxCapacity →
      P { s with buf := slotWrite s.buf s.cursor b, cursor := s.cursor + 1 })
    (hovf : ∀ b, s.startSeen = true → s.cfg.rxCapacity ≤ s.cursor → P (reportOverflow b s))
    (hx : exec (classify b) s = .next t) : P t := by
  rcases exec_classify_cases b s hf with ⟨_, e⟩ | ⟨_, ss, e⟩ | ⟨_, _, e⟩ | ⟨_, _, ss, e⟩ |
      ⟨_, _, _, e⟩ <;>
    rw [e] at hx <;> injection hx with hx <;> subst hx
  · exact hstx hs
  · by_cases hc : s.cursor < s.cfg.rxCapacity
    · rw [rxEtx_fits _ hc]; exact hfit ss hc
    · rw [rxEtx_full _ (by omega)]; exact hfull ss (by omega)
  · exact hdrop _
  · by_cases hc : s.cursor < s.cfg.rxCapacity
    · rw [rxData_fits _ _ hc]; exact hdata _ ss hc
    · rw [rxData_full _ _ (by omega)]; exact hovf _ ss (by omega)
  · exact hdrop _

/-! ## Shorter forms -/

/-- Phase 3 of an instance that is not faulted (R170). -/
theorem edgeDetect_eq (s : State) (h : s.faulted = none) :
    edgeDetect s =
      { s with edgePend := s.edgePend || (s.edgeIE && !s.rxPrev && s.rxPin), rxPrev := s.rxPin } := by
  rcases edgeDetect_cases s with ⟨a, _⟩ | ⟨_, e⟩
  · exact absurd h a
  · exact e

/-- A sample writes its own bit of the byte and no other (R115). -/
theorem putBit_getLsbD (acc : Byte) (k j : Nat) (v : Level) (hj : j < 8) :
    (putBit acc k v).getLsbD j = if j = k then v else acc.getLsbD j := by
  by_cases h : j = k
  · subst h; cases v <;> simp [putBit, hj]
  · cases v <;> simp [putBit, hj, h] <;> omega

/-- A command issued during a receive is held (R228). -/
theorem exec_held (cmd : CmdWord) (operand : List Byte) (i : Instr) (s : State)
    (hd : decode (.command cmd operand) = .ok i) (hf : s.faulted = none) (hi : s.initDone = true)
    (hr : s.rxActive = true) : exec i s = .next (hold i s) := by
  have hf' : isFaulted s = false := by simpa using hf
  cases i with
  | frameStx => exact absurd hd (decodeCommand_ne_frame cmd operand).1
  | frameEtx => exact absurd hd (decodeCommand_ne_frame cmd operand).2.1
  | frameData b => exact absurd hd ((decodeCommand_ne_frame cmd operand).2.2 b)
  | _ => simp [exec, execInit, initGate, execSend, execIsDataAvailable, execReadAndClear, execClear, execDisable,
      execEnable, commandGate, hf', hi, hr]

/-- An activation in a link that accepts a frame starts a receive (R174). -/
theorem handlerEntry_start (s : State) (h : s.listening) : handlerEntry s = handlerStart s := by
  rcases h with h | h <;> simp [handlerEntry, mustBail, h]

/-- An activation in a link that sends or is disabled bails (R173). -/
theorem handlerEntry_bail (s : State) (h : s.link = .txInProgress ∨ s.link = .disabled) :
    handlerEntry s = handlerBail s := by
  rcases h with h | h <;> simp [handlerEntry, mustBail, h]

end Sys2Proof.Machine
end

