-- ==== Sys2Proof/Laws/Engine.lean ====
section
/-! SUPPORT. What one tick does while an engine is busy: a tick of a SEND in flight, and a tick of a receive that is
not its last; and what a held command is issued as. A proof about a run of such ticks cites these. -/

namespace Sys2Proof.Machine

/-- A command that is issued again is one word with its operand, and decodes to the same operation (R228). -/
theorem asIssued_command (cmd : CmdWord) (operand : List Byte) (i : Instr)
    (hd : decode (.command cmd operand) = .ok i) :
    ∃ cmd' operand', asIssued i = [.issue cmd' operand'] ∧ decode (.command cmd' operand') = .ok i := by
  cases i with
  | frameStx => exact absurd hd (decodeCommand_ne_frame cmd operand).1
  | frameEtx => exact absurd hd (decodeCommand_ne_frame cmd operand).2.1
  | frameData b => exact absurd hd ((decodeCommand_ne_frame cmd operand).2.2 b)
  | _ => exact ⟨_, _, rfl, rfl⟩

/-- A link that is not receiving keeps the watchdog at rest (R157). -/
theorem watchdogPhase_idle (s : State) (h : ¬ (s.link = .rxInProgress ∧ s.rxActive = false)) :
    ∃ n, watchdogPhase s = { s with rxIdleTicks := n } := by
  rcases watchdogPhase_cases s with ⟨_, e⟩ | ⟨k, _, _, _, ⟨a, b, _, _⟩ | ⟨a, b, _, _⟩ | ⟨_, e⟩⟩
  · exact ⟨s.rxIdleTicks, e⟩
  · exact absurd ⟨a, b⟩ h
  · exact absurd ⟨a, b⟩ h
  · exact ⟨0, e⟩

/-- TX_STEP never makes the link receive. -/
theorem txStep_link (s : State) : (txStep s).link = s.link ∨ (txStep s).link = .idle := by
  rcases txStep_cases s with ⟨_, e⟩ | ⟨_, _, e⟩ | ⟨_, _, _, e⟩ | ⟨_, _, _, _, e⟩ | ⟨_, _, _, _, _, e⟩ |
    ⟨_, _, _, _, _, e⟩ <;> rw [e]
  · exact .inl rfl
  · exact .inl rfl
  · exact .inl rfl
  · by_cases h : s.link = .txInProgress
    · right; simp [txComplete, h]
    · left; simp [txComplete, h]
  · exact .inl rfl
  · exact .inl rfl

/-- Phase 4 beside a SEND in flight: an edge waits or bails, and no receive starts (R172, R173). -/
theorem rxPhase_sending (s : State) (hf : s.faulted = none) (hr : s.rxActive = false)
    (hl : s.link = .txInProgress ∨ s.link = .disabled) :
    ∃ v l, rxPhase s = .next v
      ∧ v = { s with edgePend := v.edgePend, rxWaited := v.rxWaited, trace := s.trace ++ l, env := v.env }
      ∧ v.env.tick = s.env.tick ∧ v.env.instId = s.env.instId ∧ v.env.consumer = s.env.consumer := by
  have hf' : isFaulted s = false := by simpa using hf
  unfold rxPhase
  rw [if_neg (by simp [hf']), if_neg (by simp [hr])]
  split
  · rcases waitOrActivate_cases s with ⟨_, _, e⟩ | ⟨_, _, e⟩ | ⟨_, h, _⟩
    · exact ⟨_, [], rfl, by rw [e]; simp, by rw [e]; simp, by rw [e]; simp, by rw [e]; simp⟩
    · obtain ⟨q, e', a, b, c⟩ := afterEdgeDraw_cases s
      rw [e, e']
      exact ⟨_, [⟨s.env.tick, s.env.instId, .bail s.link⟩], rfl, by simp [handlerBail, emit, a, b],
        by simp [handlerBail, a], by simp [handlerBail, b], by simp [handlerBail, c]⟩
    · rcases hl with hl | hl <;> simp [hl] at h
  · exact ⟨s, [], rfl, by simp, rfl, rfl, rfl⟩

/-- A tick of a SEND in flight (R133, R137, R173): the pin takes the current bit, TX_STEP runs on a state `v` that
differs from the old one only on the receiving side, and the consumer gets no turn. -/
theorem step_sending (s : State) (hf : s.faulted = none) (hr : s.rxActive = false) (ha : s.txActive = true)
    (hl : s.link = .txInProgress ∨ s.link = .disabled) :
    ∃ v l n, step s = .next (endTick { txStep v with rxIdleTicks := n })
      ∧ v = { s with
          edgePend := v.edgePend, rxWaited := v.rxWaited, txPin := txDrive s, rxPin := v.rxPin, rxPrev := v.rxPin
          trace := s.trace ++ l, env := v.env }
      ∧ v.env.tick = s.env.tick ∧ v.env.instId = s.env.instId ∧ v.env.consumer = s.env.consumer := by
  have hd : drivePhase s = { s with txPin := txDrive s } := by
    have hf' : isFaulted s = false := by simpa using hf
    simp [drivePhase, hf']
  obtain ⟨p, q, e, a, b, c⟩ := linePhase_cases (drivePhase s)
  rw [hd] at e a b c
  obtain ⟨v, l, h4, hv, a', b', c'⟩ := rxPhase_sending (edgeDetect (linePhase (drivePhase s)))
    (by rw [edgeDetect_eq _ (by rw [hd, e]; exact hf), hd, e]; exact hf)
    (by rw [edgeDetect_eq _ (by rw [hd, e]; exact hf), hd, e]; exact hr)
    (by rw [edgeDetect_eq _ (by rw [hd, e]; exact hf), hd, e]; exact hl)
  rw [edgeDetect_eq _ (by rw [hd, e]; exact hf), hd, e] at hv a' b' c'
  have hva : v.txActive = true := by rw [hv]; exact ha
  have hvf : v.faulted = none := by rw [hv]; exact hf
  have hvl : v.link = .txInProgress ∨ v.link = .disabled := by rw [hv]; exact hl
  have h5 : consumerPhase v = .next v := by simp [consumerPhase, hva]
  have h6 : txPhase v.txActive v = txStep v := by
    rcases txPhase_cases v.txActive v with ⟨h | h | h, _⟩ | ⟨_, _, _, e⟩
    · exact absurd hvf h
    · simp [hva] at h
    · simp [hva] at h
    · exact e
  obtain ⟨n, h7⟩ := watchdogPhase_idle (txStep v) (by
    rintro ⟨h, _⟩
    rcases txStep_link v with h' | h' <;> rw [h'] at h
    · rcases hvl with h'' | h'' <;> rw [h''] at h <;> cases h
    · cases h)
  refine ⟨v, l, n, (step_eq_next _ _).2 ⟨v, v, h4, h5, by rw [afterConsumer, h6, h7]⟩, ?_, ?_, ?_, ?_⟩
  · have h1 : v.rxPin = p := by rw [hv]
    rw [h1]
    exact hv
  · exact a'.trans a
  · exact b'.trans b
  · exact c'.trans c

/-- A tick of a receive that is not its last (R175, R228): the wait goes on, or a sample is taken and the next wait
begins; a command the consumer issues is held. -/
theorem step_receiving (s : State) (cmd : CmdWord) (operand : List Byte) (rest : List ConsumerAction) (i : Instr)
    (hf : s.faulted = none) (hi : s.initDone = true) (hr : s.rxActive = true) (ha : s.txActive = false)
    (hc : s.env.consumer = .issue cmd operand :: rest) (hd : decode (.command cmd operand) = .ok i)
    (hn : s.rxTimer - 1 ≠ 0 ∨ s.rxBit < 8) :
    ∃ t, step s = .next t
      ∧ t = { s with
          edgePend := t.edgePend, rxAcc := t.rxAcc, rxBit := t.rxBit, rxTimer := t.rxTimer, txPin := t.txPin
          rxPin := t.rxPin, rxPrev := t.rxPrev, rxIdleTicks := t.rxIdleTicks, env := t.env }
      ∧ ((s.rxTimer - 1 ≠ 0 ∧ t.rxTimer = s.rxTimer - 1 ∧ t.rxBit = s.rxBit)
          ∨ (s.rxTimer - 1 = 0 ∧ t.rxBit = s.rxBit + 1 ∧ s.cfg.ticksPerBit ≤ t.rxTimer
              ∧ t.rxTimer ≤ s.cfg.ticksPerBit + s.cfg.rxStretchMax))
      ∧ t.env.tick = s.env.tick + 1 ∧ t.env.instId = s.env.instId ∧ t.env.consumer = asIssued i ++ rest := by
  obtain ⟨x, hx⟩ := drivePhase_cases s
  obtain ⟨p, q, e, a, b, c⟩ := linePhase_cases (drivePhase s)
  rw [hx] at e a b c
  set u := edgeDetect (linePhase (drivePhase s)) with hu
  rw [edgeDetect_eq _ (by rw [hx, e]; exact hf), hx, e] at hu
  have hfu : isFaulted u = false := by rw [hu]; simpa using hf
  have key : ∃ v, rxPhase u = .next v
      ∧ v = { u with rxAcc := v.rxAcc, rxBit := v.rxBit, rxTimer := v.rxTimer, env := v.env }
      ∧ ((s.rxTimer - 1 ≠ 0 ∧ v.rxTimer = s.rxTimer - 1 ∧ v.rxBit = s.rxBit)
          ∨ (s.rxTimer - 1 = 0 ∧ v.rxBit = s.rxBit + 1 ∧ s.cfg.ticksPerBit ≤ v.rxTimer
              ∧ v.rxTimer ≤ s.cfg.ticksPerBit + s.cfg.rxStretchMax))
      ∧ v.env.tick = u.env.tick ∧ v.env.instId = u.env.instId ∧ v.env.consumer = u.env.consumer := by
    have hru : u.rxActive = true := by rw [hu]; exact hr
    have htu : u.rxTimer = s.rxTimer := by rw [hu]
    have hbu : u.rxBit = s.rxBit := by rw [hu]
    have hcu : u.cfg = s.cfg := by rw [hu]
    unfold rxPhase
    rw [if_neg (by simp [hfu]), if_pos hru]
    simp only [rxStep, htu]
    split
    · rename_i h0
      rw [if_pos (by rw [hbu]; exact hn.resolve_left (absurd h0))]
      refine ⟨_, rfl, rfl, .inr ⟨h0, ?_, ?_, ?_⟩, by simp, by simp, by simp⟩
      · simp [takeSample, hbu]
      · simp [takeSample, hcu]
      · have := drawValue_le u.cfg.rxStretchMax u.env
        simp only [takeSample, hcu] at this ⊢
        omega
    · rename_i h0
      exact ⟨_, rfl, rfl, .inl ⟨h0, rfl, hbu⟩, rfl, rfl, rfl⟩
  obtain ⟨v, h4, hv, hcase, a', b', c'⟩ := key
  have hvc : v.env.consumer = .issue cmd operand :: rest := by rw [c', hu]; simpa [c] using hc
  have hva : v.txActive = false := by rw [hv, hu]; exact ha
  have hvr : v.rxActive = true := by rw [hv, hu]; exact hr
  have h5 : consumerPhase v = .next (hold i (popConsumer v)) := by
    have := exec_held cmd operand i (popConsumer v) hd (by rw [hv, hu]; exact hf) (by rw [hv, hu]; exact hi) hvr
    simp [consumerPhase, hva, hvc, issueCommand, hd, this]
  have h6 : txPhase v.txActive (hold i (popConsumer v)) = hold i (popConsumer v) := by
    simp [txPhase, hva]
  obtain ⟨n, h7⟩ := watchdogPhase_idle (hold i (popConsumer v)) (by
    rintro ⟨_, h⟩
    have : v.rxActive = false := h
    rw [hvr] at this; cases this)
  have h8 : (hold i (popConsumer v)).env.consumer = asIssued i ++ rest := by
    simp [hold, popConsumer, hvc]
  have ht : v.env.tick = s.env.tick := by rw [a', hu]; exact a
  have hI : v.env.instId = s.env.instId := by rw [b', hu]; exact b
  refine ⟨_, (step_eq_next _ _).2 ⟨v, _, h4, h5, rfl⟩, ?_, ?_, ?_, ?_, ?_⟩
  · rw [afterConsumer, h6, h7, hv, hu]; rfl
  · rw [afterConsumer, h6, h7]; exact hcase
  · rw [afterConsumer, h6, h7]; simp [endTick, hold, popConsumer, ht]
  · rw [afterConsumer, h6, h7]; simp [endTick, hold, popConsumer, hI]
  · rw [afterConsumer, h6, h7]; exact h8

end Sys2Proof.Machine
end

