-- ==== Sys2Proof/Laws/PerInstr.lean ====
section
/-! SUPPORT. What holds of every operation as syntax, one lemma per constructor of `Instr`. -/

namespace Sys2Proof.Laws

/-- The match and the mask of an operation's row of spec/opcode_table.json (R85, R88). -/
def rowMatchMask : Instr → Nat × Nat
  | .init => (0x01, 0xFF)
  | .send _ => (0x02, 0xFF)
  | .isDataAvailable => (0x03, 0xFF)
  | .readAndClear => (0x04, 0xFF)
  | .clear => (0x05, 0xFF)
  | .disable => (0x06, 0xFF)
  | .enable => (0x07, 0xFF)
  | .frameStx => (0x004, 0x1FE)
  | .frameEtx => (0x006, 0x1FE)
  | .frameData _ => (0x000, 0x000)

/-- The operation's word lies in its own row of the opcode table, and a frame has the start bit 1 and the stop bit 0
(R81, R85, R88). -/
def EncodesToItsRow.Statement (i : Instr) : Prop :=
  match encode i with
  | .command cmd _ => cmd.toNat &&& (rowMatchMask i).2 = (rowMatchMask i).1
  | .frame raw =>
    raw.toNat &&& (rowMatchMask i).2 = (rowMatchMask i).1 ∧ raw.getLsbD 0 = true ∧ raw.getLsbD 9 = false

theorem EncodesToItsRow.init : EncodesToItsRow.Statement .init := by
  simp [EncodesToItsRow.Statement, encode, rowMatchMask]

theorem EncodesToItsRow.send (msg : List Byte) : EncodesToItsRow.Statement (.send msg) := by
  simp [EncodesToItsRow.Statement, encode, rowMatchMask]

theorem EncodesToItsRow.isDataAvailable : EncodesToItsRow.Statement .isDataAvailable := by
  simp [EncodesToItsRow.Statement, encode, rowMatchMask]

theorem EncodesToItsRow.readAndClear : EncodesToItsRow.Statement .readAndClear := by
  simp [EncodesToItsRow.Statement, encode, rowMatchMask]

theorem EncodesToItsRow.clear : EncodesToItsRow.Statement .clear := by
  simp [EncodesToItsRow.Statement, encode, rowMatchMask]

theorem EncodesToItsRow.disable : EncodesToItsRow.Statement .disable := by
  simp [EncodesToItsRow.Statement, encode, rowMatchMask]

theorem EncodesToItsRow.enable : EncodesToItsRow.Statement .enable := by
  simp [EncodesToItsRow.Statement, encode, rowMatchMask]

theorem EncodesToItsRow.frameStx : EncodesToItsRow.Statement .frameStx := by
  simp [EncodesToItsRow.Statement, encode, rowMatchMask, encodeByte, stx]

theorem EncodesToItsRow.frameEtx : EncodesToItsRow.Statement .frameEtx := by
  simp [EncodesToItsRow.Statement, encode, rowMatchMask, encodeByte, etx]

theorem EncodesToItsRow.frameData (b : Byte) : EncodesToItsRow.Statement (.frameData b) := by
  refine ⟨Nat.and_zero _, ?_, ?_⟩
  · simp only [encodeByte, BitVec.getLsbD_append]; simp
  · simp only [encodeByte, BitVec.getLsbD_append]; simp

end Sys2Proof.Laws
end

