-- ==== Sys2Proof/Tests/Slice0.lean ====
section
/-! SUPPORT. The model's own tests: expected values from spec/30_encoding.md and spec/95_test_vectors.md, and for each
statement with hypotheses a state that meets them. -/

namespace Sys2Proof.Tests

open Sys2Proof Sys2Proof.Machine

/-! ## Well-formedness: the one check refuses the two markers -/

theorem test_wellFormed_refuses_stx : (Instr.frameData 0x02).wellFormed = false := by decide
theorem test_wellFormed_refuses_etx : (Instr.frameData 0x03).wellFormed = false := by decide
theorem test_wellFormed_takes_data : (Instr.frameData 0x01).wellFormed = true := by decide
theorem test_wellFormed_takes_markers_in_send : (Instr.send [0x02, 0x03]).wellFormed = true := by decide

/-! ## Decoding: each word is written out from R85 and R88 -/

theorem test_decode_init : decode (.command 0b00000001 []) = .ok .init := by decide
theorem test_decode_send : decode (.command 0b00000010 [0x48]) = .ok (.send [0x48]) := by decide
theorem test_decode_isDataAvailable : decode (.command 0b00000011 []) = .ok .isDataAvailable := by decide
theorem test_decode_readAndClear : decode (.command 0b00000100 []) = .ok .readAndClear := by decide
theorem test_decode_clear : decode (.command 0b00000101 []) = .ok .clear := by decide
theorem test_decode_disable : decode (.command 0b00000110 []) = .ok .disable := by decide
theorem test_decode_enable : decode (.command 0b00000111 []) = .ok .enable := by decide
/-- V42.8. -/
theorem test_decode_zero_illegal : decode (.command 0x00 []) = .error (.illegalCommand 0x00) := by decide
/-- V42.9. -/
theorem test_decode_eight_illegal : decode (.command 0x08 []) = .error (.illegalCommand 0x08) := by decide
/-- V40.5: stop 0, data 00000010, start 1. -/
theorem test_decode_frameStx : decode (.frame 0b0000000101) = .ok .frameStx := by decide
/-- V40.6. -/
theorem test_decode_frameEtx : decode (.frame 0b0000000111) = .ok .frameEtx := by decide
/-- V40.7. -/
theorem test_decode_frameData : decode (.frame 0b0010001101) = .ok (.frameData 0x46) := by decide
/-- V40.16: a stop bit of 1 is not seen. -/
theorem test_decode_wrong_stop_bit : decode (.frame 0x28D) = .ok (.frameData 0x46) := by decide
/-- V40.2. -/
theorem test_encode_ff : encodeByte 0xFF = 0x1FF := by decide
/-- R110's example: `1,0,1,1,0,0,0,1,0,0`. -/
theorem test_wire_order :
    wireBits (encodeByte 0x46) = [true, false, true, true, false, false, false, true, false, false] := by decide
/-- The table's numbering of words: a frame row's word is a 10-bit value. -/
theorem test_table_frame_as_sent : decodeTableWord 16 0x08D = some (.frameData 0x46) := by decide

/-! ## Small states -/

/-- N = 3, M = 2, P = 4 and R8's defaults. -/
def small : Config := { rxCapacity := 3, maxTransmitLen := 2, ticksPerBit := 4, bitPeriod := 1 }

/-- An instance after reset, beside a line held at 0. -/
def fresh : State := State.powerOn small { Env.fresh 0 with rxRest := .driven false }

/-- The same after INIT (R46). -/
def up : State := { fresh with initDone := true, edgeIE := true, txPin := .driven false }

/-- A message under way with `n` slots of 0x41 stored. -/
def receiving (n : Nat) : State :=
  { up with
    link := .rxInProgress
    startSeen := true
    cursor := n
    buf := (List.range n).map fun i => (i, 0x41) }

/-- A delivered message "F" (V44.4). -/
def delivered : State := { up with cursor := 2, dataAvail := true, buf := [(0, 0x46), (1, 0x00)] }

/-- A SEND in flight, in link state `l`, with `t` ticks left of bit `b` of its head frame. -/
def sending (l : Link) (frames : List Frame) (b t : Nat) : State :=
  { up with link := l, txActive := true, txFrames := frames, txBit := b, txTimer := t, txTotal := frames.length }

/-- The consumer issues a command word next. -/
def issuing (cmd : CmdWord) (s : State) : State := { s with env := { s.env with consumer := [.issue cmd []] } }

/-! ## The instructions, by the spec's vectors -/

/-- V42.1. -/
theorem test_init_status :
    ∃ t, exec .init fresh = .next t ∧ statusWord t = 0x00C0 ∧ t.cursor = 0 := ⟨_, rfl, by decide, rfl⟩
/-- V42.12: INIT leaves the slots. -/
theorem test_init_keeps_slots :
    ∃ t, exec .init (receiving 1) = .next t ∧ t.link = .idle ∧ t.cursor = 0 ∧ t.buf = [(0, 0x41)] :=
  ⟨_, rfl, rfl, rfl, rfl⟩
/-- V41.3: the third byte is cut off. -/
theorem test_send_truncates :
    ∃ t, exec (.send [0x10, 0x20, 0x30]) up = .next t ∧ t.txFrames = [0x005, 0x021, 0x041, 0x007]
      ∧ t.link = .txInProgress := ⟨_, rfl, by decide, rfl⟩
/-- V41.7: reserved bytes are sent and marked. -/
theorem test_send_marks_reserved :
    ∃ t, exec (.send [0x03]) up = .next t ∧ t.txFrames = [0x005, 0x007, 0x007] ∧ t.invalidInput = true :=
  ⟨_, rfl, by decide, rfl⟩
/-- V44.8. -/
theorem test_isDataAvailable :
    ∃ t, exec .isDataAvailable delivered = .next t ∧ t.results = [.bit true] := ⟨_, rfl, rfl⟩
/-- V44.4. -/
theorem test_readAndClear_message :
    ∃ t, exec .readAndClear delivered = .next t ∧ t.results = [.bytes [0x46]] ∧ t.cursor = 0
      ∧ t.dataAvail = false := ⟨_, rfl, rfl, rfl, rfl⟩
/-- V44.9. -/
theorem test_readAndClear_partial :
    ∃ t, exec .readAndClear (receiving 2) = .next t ∧ t.results = [.bytes [0x41, 0x41]]
      ∧ t.link = .rxInProgress := ⟨_, rfl, rfl, rfl⟩
/-- R67: a slot that nothing has written holds some byte, and reading it stops nothing. -/
theorem test_readAndClear_unwritten_slot :
    ∃ t b, exec .readAndClear { receiving 1 with cursor := 2 } = .next t ∧ t.results = [.bytes [0x41, b]]
      ∧ t.cursor = 0 := ⟨_, _, rfl, rfl, rfl⟩
/-- V44.10. -/
theorem test_clear : ∃ t, exec .clear delivered = .next t ∧ t.cursor = 0 ∧ t.dataAvail = false := ⟨_, rfl, rfl, rfl⟩
/-- V42.2. -/
theorem test_disable_status :
    ∃ t, exec .disable (receiving 2) = .next t ∧ statusWord t = 0x00C3 ∧ t.cursor = 2 := ⟨_, rfl, by decide, rfl⟩
/-- V42.3. -/
theorem test_enable_status :
    ∃ t, exec .enable { up with link := .disabled } = .next t ∧ statusWord t = 0x00C0 := ⟨_, rfl, by decide⟩
/-- V42.5. -/
theorem test_enable_keeps_receive :
    ∃ t, exec .enable (receiving 0) = .next t ∧ t.link = .rxInProgress := ⟨_, rfl, rfl⟩
/-- V43.3: an unread message is lost. -/
theorem test_frameStx_discards :
    ∃ t, exec .frameStx delivered = .next t ∧ t.link = .rxInProgress ∧ t.cursor = 0 ∧ t.dataAvail = false :=
  ⟨_, rfl, rfl, rfl, rfl⟩
/-- V43.7. -/
theorem test_frameEtx_delivers :
    ∃ t, exec .frameEtx (receiving 1) = .next t ∧ t.buf = [(0, 0x41), (1, 0x00)] ∧ t.dataAvail = true
      ∧ t.trace = [⟨0, 0, .msgReady 1⟩] := ⟨_, rfl, rfl, rfl, rfl⟩
/-- V43.8. -/
theorem test_frameEtx_lost :
    ∃ t, exec .frameEtx (receiving 3) = .next t ∧ t.dataAvail = false ∧ t.ovf = false
      ∧ t.trace = [⟨0, 0, .etxLost⟩] := ⟨_, rfl, rfl, rfl, rfl⟩
/-- V43.4. -/
theorem test_frameData_stored :
    ∃ t, exec (.frameData 0x42) (receiving 0) = .next t ∧ t.buf = [(0, 0x42)] ∧ t.cursor = 1 := ⟨_, rfl, rfl, rfl⟩
/-- V43.5. -/
theorem test_frameData_overflow :
    ∃ t, exec (.frameData 0x41) (receiving 3) = .next t ∧ t.cursor = 3 ∧ t.ovf = true
      ∧ t.trace = [⟨0, 0, .overflow 0x41⟩] := ⟨_, rfl, rfl, rfl, rfl⟩
/-- V42.10: the decode check comes before the INIT check. -/
theorem test_step_illegal_before_init :
    ∃ t, step (issuing 0x09 fresh) = .next t ∧ t.faulted = some (.illegalCommand 0x09) := ⟨_, rfl, rfl⟩
/-- V42.7. -/
theorem test_step_uninit :
    ∃ t, step (issuing 0x06 fresh) = .next t ∧ t.faulted = some (.uninit 0x06) := ⟨_, rfl, rfl⟩
/-- V43.9. -/
theorem test_step_bails :
    ∃ t, step { sending .txInProgress [0x005] 0 4 with env := { up.env with rxRest := .driven true } } = .next t
      ∧ t.trace = [⟨0, 0, .bail .txInProgress⟩] ∧ t.edgePend = false ∧ t.rxActive = false :=
  ⟨_, rfl, rfl, rfl, rfl⟩
/-- The host's placement of the words of the opcode table: a tick runs them. -/
theorem test_placed_init :
    ∃ t, step (State.reset.withFetchWord 8 0x01) = .next t ∧ t.initDone = true := ⟨_, rfl, rfl⟩
theorem test_placed_frame :
    ∃ t, step (State.withFetchWord up 16 0x005) = .next t ∧ t.link = .rxInProgress := ⟨_, rfl, rfl⟩
/-- R91's syntax, read from a program line. -/
theorem test_syntax_send :
    tokens ['S', 'E', 'N', 'D', ' ', '[', '0', 'x', '4', '8', ']', ';', 'x']
      = some [.word ['S', 'E', 'N', 'D'], .mark '[', .word ['0', 'x', '4', '8'], .mark ']'] := by decide
theorem test_syntax_operand :
    byteOperand [.mark '[', .word ['0', 'x', '4', '8'], .mark ',', .word ['7', '3'], .mark ']']
      = some ([0x48, 0x49], []) := by decide

/-! ## Witnesses: states that meet the hypotheses of the statements, at the boundaries of their clauses -/

theorem test_meets_StartAndStopBitsAreNotRead :
    (∀ k, 1 ≤ k → k ≤ 8 → (0x28D : Frame).getLsbD k = (0x08D : Frame).getLsbD k) ∧ (0x28D : Frame) ≠ 0x08D := by
  refine ⟨fun k h1 h8 => ?_, by decide⟩
  interval_cases k <;> rfl
theorem test_meets_DecodeOfEncode :
    (Instr.frameData 0x01).wellFormed = true ∧ (Instr.frameData 0x04).wellFormed = true
      ∧ (Instr.send [0x02]).wellFormed = true := by decide
theorem test_meets_CommandWordsAreOneToSeven :
    decode (.command 0x01 []) = .ok .init ∧ decode (.command 0x07 []) = .ok .enable := by decide
theorem test_meets_IllegalCommandFaults :
    up.faulted = none ∧ ((0x00 : CmdWord) = 0x00 ∨ 0x08 ≤ (0x00 : CmdWord).toNat) ∧ 0x08 ≤ (0x08 : CmdWord).toNat
      ∧ 0x08 ≤ (0xFF : CmdWord).toNat := by decide
theorem test_meets_InitResetsTheLink :
    (fresh.faulted = none ∧ fresh.rxActive = false) ∧ (receiving 3).faulted = none ∧ (receiving 3).rxActive = false := by
  decide
theorem test_meets_AdmittedSendQueuesItsFrames :
    (up.ready ∧ up.link = .idle) ∧ State.ready { up with link := .disabled } := by decide
theorem test_meets_SendRejectedUnlessIdleOrDisabled :
    ((receiving 0).ready ∧ (receiving 0).link = .rxInProgress)
      ∧ ((sending .txInProgress [0x005] 0 4).ready ∧ (sending .txInProgress [0x005] 0 4).link = .txInProgress)
      ∧ (up.ready ∧ up.link = .idle) := by decide
/-- It also meets those of ClearEmptiesTheBuffer, DisableAbandonsTheReceive and EnableOnlyLeavesDisabled. -/
theorem test_meets_IsDataAvailableReturnsTheFlag : delivered.ready ∧ delivered.link ≠ .disabled := by decide
theorem test_meets_EnableOnlyLeavesDisabled :
    State.ready { up with link := .disabled } ∧ ({ up with link := .disabled } : State).link = .disabled := by decide
/-- A delivered message, a full buffer, an empty one, and one with a slot that nothing has written. -/
theorem test_meets_ReadAndClearReturnsThePayload :
    (delivered.ready ∧ (if delivered.dataAvail then delivered.cursor - 1 else delivered.cursor) ≤ delivered.cfg.rxCapacity
      ∧ slotRead delivered.buf 0 = some 0x46)
    ∧ ((receiving 3).ready ∧ (receiving 3).dataAvail = false ∧ (receiving 3).cursor = (receiving 3).cfg.rxCapacity
      ∧ ∀ i, i < 3 → slotRead (receiving 3).buf i = some 0x41)
    ∧ (up.ready ∧ up.dataAvail = false ∧ up.cursor = 0)
    ∧ (let s : State := { receiving 1 with cursor := 2 }
       s.ready ∧ s.dataAvail = false ∧ s.cursor ≤ s.cfg.rxCapacity ∧ slotRead s.buf 1 = none) := by decide
/-- One slot too many, with and without a terminator. -/
theorem test_meets_ReadAndClearStopsAtAnUnreadableSlot :
    (let s : State := { receiving 3 with cursor := 4 }
     s.ready ∧ s.cfg.rxCapacity < (if s.dataAvail then s.cursor - 1 else s.cursor))
    ∧ (let s : State := { receiving 3 with cursor := 5, dataAvail := true }
     s.ready ∧ s.cfg.rxCapacity < (if s.dataAvail then s.cursor - 1 else s.cursor)) := by decide
theorem test_meets_SecondReadReturnsNothing : delivered.ready ∧ ∃ t, exec .readAndClear delivered = .next t :=
  ⟨by decide, _, rfl⟩
theorem test_meets_ClearIsIdempotent : delivered.ready ∧ ∃ t, exec .clear delivered = .next t := ⟨by decide, _, rfl⟩
theorem test_meets_CommandsBeforeInitFault : fresh.faulted = none ∧ fresh.initDone = false := by decide
/-- For the second part, the shortest and the longest first wait, with a command that has a surplus operand. -/
theorem test_meets_CommandsAreHeldDuringAReceive :
    let s (d : Nat) : State :=
      { up with
        rxActive := true
        rxTimer := 6 + d
        cfg := { small with rxStretchMax := 2 }
        env := { up.env with consumer := [.issue 0x05 [0x41]] } }
    ∀ d, d < 3 →
      (s d).faulted = none ∧ (s d).initDone = true ∧ (s d).rxActive = true ∧ (s d).txActive = false ∧ (s d).rxBit = 0
        ∧ 3 * (s d).cfg.ticksPerBit / 2 ≤ (s d).rxTimer
        ∧ (s d).rxTimer ≤ 3 * (s d).cfg.ticksPerBit / 2 + (s d).cfg.rxStretchMax ∧ (s d).cfg.wf
        ∧ (s d).env.consumer = [.issue 0x05 [0x41]] ∧ decode (.command 0x05 [0x41]) = .ok .clear := by decide
/-- It also meets those of FaultedInstanceIsFrozen. -/
theorem test_meets_FaultedInstanceRunsNoOperation :
    ({ fresh with faulted := some (.uninit 0x02) } : State).faulted ≠ none := by decide
theorem test_meets_StartMarkerStartsAMessage : (receiving 2).faulted = none ∧ up.faulted = none := by decide
/-- It also meets those of PayloadByteIsStoredOrOverflows. -/
theorem test_meets_EndMarkerEndsTheMessage :
    ((receiving 2).faulted = none ∧ (receiving 2).startSeen = true ∧ (receiving 2).cursor < (receiving 2).cfg.rxCapacity)
    ∧ ((receiving 3).faulted = none ∧ (receiving 3).startSeen = true
      ∧ (receiving 3).cfg.rxCapacity ≤ (receiving 3).cursor) := by decide
/-- It also meets those of ByteOutsideAMessageIsDropped. -/
theorem test_meets_StrayEndMarkerIsDropped : up.faulted = none ∧ up.startSeen = false := by decide
theorem test_meets_MessageIsDeliveredIfItFits :
    up.ready ∧ up.listening ∧ (receiving 1).ready ∧ (receiving 1).listening
      ∧ (∀ b, b ∈ [(0x48 : Byte), 0x45, 0x4C, 0x4C] → b ≠ stx ∧ b ≠ etx) := by decide
theorem test_meets_TxPinCarriesTheCurrentBit :
    (fresh.faulted = none ∧ fresh.initDone = false)
    ∧ (let s := sending .txInProgress [0x005] 9 1
       s.faulted = none ∧ s.initDone = true ∧ s.txActive = true ∧ s.txGap = false ∧ s.txFrames = [0x005])
    ∧ (up.faulted = none ∧ up.initDone = true ∧ up.txActive = false) := by decide
theorem test_meets_PreviousLevelFollowsThePin :
    fresh.faulted = none ∧ fresh.edgeIE = false ∧ ∃ t, step { fresh with edgePend := true } = .next t ∧ t.edgePend = true :=
  ⟨rfl, rfl, _, rfl, rfl⟩
theorem test_meets_EdgeDetectorLatchesRisingEdges :
    (let s : State := { up with rxPin := true }
     s.faulted = none ∧ s.edgeIE = true ∧ s.rxPrev = false ∧ s.rxPin = true)
    ∧ up.faulted = none ∧ ¬ (up.edgeIE = true ∧ up.rxPrev = false ∧ up.rxPin = true) := by decide
theorem test_meets_EdgeBailsWhileSendingOrDisabled :
    let s : State := { sending .txInProgress [0x005] 0 4 with edgePend := true }
    s.faulted = none ∧ s.initDone = true ∧ s.rxActive = false ∧ s.edgePend = true ∧ s.cfg.rxLatencyMax ≤ s.rxWaited
      ∧ s.link = .txInProgress := by decide
theorem test_meets_EdgeStartsAReceive :
    let s : State := { up with edgePend := true }
    s.faulted = none ∧ s.initDone = true ∧ s.rxActive = false ∧ s.edgePend = true ∧ s.cfg.rxLatencyMax ≤ s.rxWaited
      ∧ s.listening := by decide
theorem test_meets_PendingEdgeWaitsOrIsTaken :
    let s (d : Nat) : State :=
      { up with edgePend := true, cfg := { small with rxLatencyMax := 1 }, env := { up.env with draws := [d] } }
    (∀ d, d < 2 → (s d).faulted = none ∧ (s d).initDone = true ∧ (s d).rxActive = false ∧ (s d).edgePend = true
      ∧ (s d).rxWaited < (s d).cfg.rxLatencyMax) ∧ drawValue 1 (s 0).env = 0 ∧ drawValue 1 (s 1).env = 1 := by decide
theorem test_meets_SampleWritesItsOwnBit :
    ∀ k, k < 8 →
      (let s : State := { up with rxActive := true, rxTimer := 1, rxBit := k }
       s.faulted = none ∧ s.rxActive = true ∧ s.rxTimer = 1 ∧ s.rxBit < 8) := by decide
/-- The line carries the frame of 0x46 from this tick on (R111, R116). -/
theorem test_meets_ReceiveSamplesEightMidCellLevels :
    let s : State := feedLine (frameWave 4 (encodeByte 0x46)) up
    let s : State := { s with env := { s.env with rxSchedule := s.env.rxSchedule.tail } }
    s.ready ∧ s.edgeIE = true ∧ s.edgePend = false ∧ s.txActive = false ∧ s.listening ∧ s.rxPrev = false ∧ s.cfg.wf
      ∧ s.cfg.rxLatencyMax = 0 ∧ s.cfg.rxStretchMax = 0 ∧ s.env.consumer = [] ∧ lineAt s 0 = .driven true
      ∧ ∀ k, k < 8 → lineAt s (3 * s.cfg.ticksPerBit / 2 + k * s.cfg.ticksPerBit)
          = .driven ((0x46 : Byte).getLsbD k) := by decide
/-- The clauses of the first part: counting, the end of a gap, of a bit, and of a frame without and with a gap. -/
theorem test_meets_SendHoldsEachBitForItsPeriod_phase :
    let s (t b g : Nat) (gap : Bool) : State :=
      { sending .txInProgress [0x005, 0x007] b t with txGap := gap, cfg := { small with txGapBits := g } }
    (∀ b, b < 10 → (s 2 b 0 false).faulted = none ∧ (s 2 b 0 false).txActive = true ∧ 1 < (s 2 b 0 false).txTimer)
    ∧ ((s 1 9 1 true).txTimer = 1 ∧ (s 1 9 1 true).txGap = true)
    ∧ ((s 1 8 0 false).txTimer = 1 ∧ (s 1 8 0 false).txGap = false ∧ (s 1 8 0 false).txBit < 9)
    ∧ (∀ g, g < 2 → (s 1 9 g false).txTimer = 1 ∧ (s 1 9 g false).txGap = false ∧ (s 1 9 g false).txBit = 9
        ∧ (s 1 9 g false).txFrames = [0x005, 0x007] ∧ (s 1 9 g false).cfg.txGapBits = g) := by decide
/-- The second part and SendCompletesAfterItsDuration: the shortest and the longest first bit, without and with a gap. -/
theorem test_meets_SendHoldsEachBitForItsPeriod :
    let s (d : Nat) : State :=
      { sending .txInProgress [0x005, 0x007] 0 (4 + d) with cfg := { small with txStretchMax := 2, txGapBits := d } }
    ∀ d, d < 3 →
      (s d).faulted = none ∧ (s d).initDone = true ∧ (s d).rxActive = false ∧ (s d).txActive = true
        ∧ (s d).link = .txInProgress ∧ (s d).txGap = false ∧ (s d).txBit = 0
        ∧ (s d).cfg.ticksPerBit ≤ (s d).txTimer
        ∧ (s d).txTimer ≤ (s d).cfg.ticksPerBit + (s d).cfg.txStretchMax ∧ (s d).cfg.wf
        ∧ (s d).txFrames ≠ [] ∧ (s d).txTotal = (s d).txFrames.length ∧ (s d).cfg.txGapBits = d := by decide
theorem test_meets_WatchdogForcesIdleAfterItsTime :
    let s (n : Nat) : State := { receiving 0 with cfg := { small with rxTimeoutBits := some 2 }, rxIdleTicks := n }
    (∀ n, n < 8 → (s n).faulted = none ∧ (s n).initDone = true ∧ (s n).cfg.rxTimeoutBits = some 2
        ∧ (s n).link = .rxInProgress ∧ (s n).rxActive = false)
      ∧ 2 * (s 7).cfg.ticksPerBit ≤ (s 7).rxIdleTicks + 1 ∧ (s 6).rxIdleTicks + 1 < 2 * (s 6).cfg.ticksPerBit
      ∧ ¬ (({ s 0 with link := .idle } : State).link = .rxInProgress) := by decide
theorem test_meets_StuckReceiveStaysStuck :
    let s := receiving 1
    (s.faulted = none ∧ s.initDone = true ∧ s.link = .rxInProgress ∧ s.rxActive = false ∧ s.edgePend = false
      ∧ s.txActive = false ∧ s.cfg.rxTimeoutBits = none ∧ s.env.consumer = []) ∧ ∀ k, lineAt s k = .driven false :=
  ⟨by decide, fun _ => rfl⟩
theorem test_meets_SamplingWindowAtTheDefaults : 2 % 2 = 0 ∧ 2 ≤ 2 := by decide
theorem test_meets_StepRunsTheIssuedCommand :
    ∃ s4, rxPhase (edgeDetect (linePhase (drivePhase (issuing 0x05 up)))) = .next s4 ∧ s4.txActive = false
      ∧ s4.env.consumer = [.issue 0x05 []] ∧ decode (.command 0x05 []) = .ok .clear := ⟨_, rfl, rfl, rfl, rfl⟩
theorem test_meets_StepRunsTheReceivedFrame :
    let s : State := { receiving 1 with rxActive := true, rxTimer := 1, rxBit := 8, rxAcc := 0x03 }
    s.faulted = none ∧ s.rxActive = true ∧ s.rxTimer = 1 ∧ s.rxBit = 8 := by decide
theorem test_meets_EdgeTakenFirstHoldsTheCommand :
    let s : State := { issuing 0x05 up with env := { (issuing 0x05 up).env with rxRest := .driven true } }
    s.ready ∧ s.edgeIE = true ∧ s.txActive = false ∧ s.listening ∧ s.rxPrev = false ∧ s.cfg.rxLatencyMax = 0
      ∧ lineAt s 0 = .driven true ∧ s.env.consumer = [.issue 0x05 []] ∧ decode (.command 0x05 []) = .ok .clear := by
  decide
/-- It also meets those of ConfigurationNeverChanges, TraceOnlyGrows and CursorFallsOnlyToZero. -/
theorem test_meets_StickyMarksStay :
    ∃ t, step { up with invalidInput := true, faulted := some (.uninit 0x02) } = .next t := ⟨_, rfl⟩

/-! ## Witnesses of the invariant -/

/-- A disabled, idle instance after INIT, whose consumer enables it next. -/
def enabling : State := issuing 0x07 { up with link := .disabled }

theorem test_inv_enabling : Inv enabling where
  cfgWf := by decide
  canonical := rfl
  inRange i h := by simp [enabling, issuing, up, fresh, State.powerOn, slotRead] at h
  beforeInit h := by cases h
  afterInit _ :=
    { edgeEnabled := rfl
      startSeen_iff := by decide
      txLink_active := by decide
      txActive_link := by decide
      exclusive := by decide
      rxActive_link := by decide
      dataAvail_terminator := fun h => by cases h
      cursor_le := by decide
      slots_written := by decide
      rxRanges := by decide
      rxWaited_le := by decide
      txRanges := fun h => by cases h
      idleTicks_lt := fun _ h => by cases h }

/-- A SEND whose head frame is at bit `b` with `t` ticks left keeps the invariant. -/
theorem test_inv_sending (frames : List Frame) (b t : Nat) (hf : frames ≠ []) (hb : b ≤ 9) (h1 : 1 ≤ t) (h4 : t ≤ 4) :
    Inv (sending .txInProgress frames b t) where
  cfgWf := show small.wf by decide
  canonical := rfl
  inRange i h := by simp [sending, up, fresh, State.powerOn, slotRead] at h
  beforeInit h := by cases h
  afterInit _ :=
    { edgeEnabled := rfl
      startSeen_iff := by simp [sending, up, fresh, State.powerOn]
      txLink_active := fun _ => rfl
      txActive_link := fun _ => .inl rfl
      exclusive := by simp [sending, up, fresh, State.powerOn]
      rxActive_link := fun h => by cases h
      dataAvail_terminator := fun h => by cases h
      cursor_le := Nat.zero_le _
      slots_written := fun _ h => absurd h (Nat.not_lt_zero _)
      rxRanges := fun h => by cases h
      rxWaited_le := Nat.le_refl _
      txRanges := fun _ => ⟨hf, hb, h1, fun _ => h4, fun h => by cases h⟩
      idleTicks_lt := fun _ h => by cases h }

/-- It also meets those of StepKeepsTheInvariant and StepCompletesUnderTheInvariant. -/
theorem test_meets_DisabledIsLeftOnlyByCommand :
    Inv enabling ∧ enabling.link = .disabled ∧ ∃ t, step enabling = .next t ∧ t.link ≠ .disabled :=
  ⟨test_inv_enabling, rfl, _, rfl, by decide⟩
/-- Both ends: in the middle of a frame, and in the last tick of the last stop bit. -/
theorem test_meets_TransmittingEndsOnlyAtCompletion :
    (Inv (sending .txInProgress [0x005, 0x007] 0 4) ∧ ∃ t, step (sending .txInProgress [0x005, 0x007] 0 4) = .next t
      ∧ t.link = .txInProgress)
    ∧ (Inv (sending .txInProgress [0x007] 9 1) ∧ ∃ t, step (sending .txInProgress [0x007] 9 1) = .next t
      ∧ t.link = .idle) :=
  ⟨⟨test_inv_sending _ _ _ (by decide) (by decide) (by decide) (by decide), _, rfl, rfl⟩,
    test_inv_sending _ _ _ (by decide) (by decide) (by decide) (by decide), _, rfl, rfl⟩
theorem test_meets_SendingExcludesReceiving :
    let s := sending .txInProgress [0x005, 0x007] 0 4
    Inv s ∧ s.initDone = true ∧ s.txActive = true :=
  ⟨test_inv_sending _ _ _ (by decide) (by decide) (by decide) (by decide), rfl, rfl⟩
theorem test_meets_InvariantHoldsAtReset : small.wf := by decide

/-! ## Witnesses of the two-instance statements -/

/-- A sends, B listens. -/
def pair (topology : LineTopology) : Pair :=
  { a := { issuing 0x02 up with cfg := { small with lineTopology := topology } }
    b := { up with cfg := { small with lineTopology := topology }, env := { up.env with instId := 1 } } }

theorem test_meets_PeerIsSeenOnlyThroughItsPin :
    let y := pair .dedicated
    let y' : Pair := { y with b := { y.b with cursor := 2 } }
    y.a = y'.a ∧ y.a.cfg.lineTopology = .dedicated ∧ (drivePhase y.b).txPin = (drivePhase y'.b).txPin
      ∧ (∃ z, y.step = .next z) ∧ ∃ z, y'.step = .next z := ⟨rfl, rfl, rfl, ⟨_, rfl⟩, _, rfl⟩
theorem test_meets_LineCarriesWhatIsDriven :
    (∃ z, (pair .dedicated).step = .next z ∧ z.a.txPin = .driven false ∧ z.b.txPin = .driven false)
      ∧ ∃ z, (pair .shared).step = .next z ∧ z.a.txPin = .driven false ∧ z.b.txPin = .driven false :=
  ⟨⟨_, rfl, rfl, rfl⟩, _, rfl, rfl, rfl⟩
theorem test_meets_MessageCrossesTheLink :
    let y := pair .dedicated
    let y : Pair := { y with a := { y.a with env := { y.a.env with consumer := [.issue 0x02 [0x48, 0x49]] } } }
    y.a.cfg.lineTopology = .dedicated ∧ y.a.cfg.wf ∧ y.b.cfg.wf ∧ y.a.cfg.ticksPerBit = y.b.cfg.ticksPerBit
      ∧ y.a.cfg.txStretchMax = 0 ∧ y.a.cfg.txGapBits = 0 ∧ y.b.cfg.rxLatencyMax = 0 ∧ y.b.cfg.rxStretchMax = 0
      ∧ y.a.ready ∧ y.a.link = .idle ∧ y.a.edgePend = false ∧ y.a.txActive = false
      ∧ y.a.env.consumer = [.issue 0x02 [0x48, 0x49]]
      ∧ y.b.ready ∧ y.b.listening ∧ y.b.edgeIE = true ∧ y.b.edgePend = false ∧ y.b.txActive = false
      ∧ y.b.env.consumer = [] ∧ (∀ b, b ∈ [(0x48 : Byte), 0x49] → b ≠ stx ∧ b ≠ etx)
      ∧ [(0x48 : Byte), 0x49].length ≤ y.a.cfg.maxTransmitLen
      ∧ [(0x48 : Byte), 0x49].length + 1 ≤ y.b.cfg.rxCapacity := by decide

end Sys2Proof.Tests
end

section
/-! The invariant is inductive (R11, R32, R41 to R44, R251).

`tick_keeps`, `consumer_keeps` and `rxComplete_keeps` cut a tick into the effects of its phases. Here each effect is
shown to keep `Running`, the part of the invariant that holds after INIT, by proving only those of its clauses that
read a field the effect writes; the last part lifts this to `Inv`. -/

namespace Sys2Proof.Machine

variable {s t : State}

/-! ## What the invariant says of the engines and the link -/

/-- A receive under way means that INIT has run (R251). -/
theorem Inv.initDone_of_rxActive (h : Inv s) (ha : s.rxActive = true) : s.initDone = true := by
  by_contra hi
  simp [(h.beforeInit (by simpa using hi)).noReceive] at ha

/-- A SEND in flight means that INIT has run (R251). -/
theorem Inv.initDone_of_txActive (h : Inv s) (ha : s.txActive = true) : s.initDone = true := by
  by_contra hi
  simp [(h.beforeInit (by simpa using hi)).noSend] at ha

/-- The engines never run together (R42). -/
theorem Running.txActive_of_rxActive (r : Running s) (ha : s.rxActive = true) : s.txActive = false := by
  simpa [ha] using r.exclusive

/-- A link that accepts inbound frames is not sending (R42). -/
theorem Running.txActive_of_listening (r : Running s) (hl : s.listening) : s.txActive = false := by
  by_contra ha
  have hsend := r.txActive_link (by simpa using ha)
  rcases hl with hl | hl <;> simp [hl] at hsend

/-- `START_SEEN` is 0 in every link state but `RX_IN_PROGRESS` (R41). -/
theorem Running.startSeen_of_link_ne (r : Running s) (hl : s.link ≠ .rxInProgress) : s.startSeen = false := by
  simpa using mt r.startSeen_iff.1 hl

/-- While a message is being received, no message is available (R43). -/
theorem Running.dataAvail_of_startSeen (r : Running s) (hs : s.startSeen = true) : s.dataAvail = false := by
  by_contra hd
  obtain ⟨-, -, hno⟩ := r.dataAvail_terminator (by simpa using hd)
  simp [hs] at hno

/-! ## The Receiver -/

/-- A wait goes on for one more tick (R175). -/
theorem Running.rxCountdown (r : Running s) (h : s.rxTimer - 1 ≠ 0) :
    Running { s with rxTimer := s.rxTimer - 1 } :=
  { r with
    rxRanges := fun ha => by
      obtain ⟨hbit, -, hmax⟩ := r.rxRanges ha
      exact ⟨hbit, Nat.pos_of_ne_zero h, (Nat.sub_le _ _).trans hmax⟩ }

/-- A sample arms the wait for the next one, which is within the longest first wait (R174, R175). -/
theorem Running.takeSample (r : Running s) (hw : s.cfg.wf) (hb : s.rxBit < 8) (n : Nat) :
    Running (takeSample { s with rxTimer := n }) :=
  { r with
    rxRanges := fun _ => by
      obtain ⟨-, htwo, -⟩ := hw
      have hd := drawValue_le s.cfg.rxStretchMax s.env
      simp only [takeSample_rxBit, takeSample_rxTimer, takeSample_cfg]
      omega }

/-- The handler returns, and the RX engine is idle (R176). -/
theorem Running.handlerReturn (r : Running s) (n : Nat) : Running (handlerReturn { s with rxTimer := n }) :=
  { r with
    exclusive := fun h => Bool.noConfusion h.2
    rxActive_link := fun h => Bool.noConfusion h
    rxRanges := fun h => Bool.noConfusion h }

/-- An edge that is not taken yet waits within `RX_LATENCY_MAX` (R172). -/
theorem Running.edgeWaits (r : Running s) (hw : s.rxWaited < s.cfg.rxLatencyMax) (e : Env) :
    Running { s with env := e, rxWaited := s.rxWaited + 1 } :=
  { r with rxWaited_le := hw }

/-- An activation that bails leaves both engines and the link alone (R173). -/
theorem Running.handlerBail (r : Running s) (e : Env) : Running (handlerBail { s with env := e, rxWaited := 0 }) :=
  { r with rxWaited_le := Nat.zero_le _ }

/-- An activation starts a receive only in a link that accepts it, and so beside no SEND (R174, R42). -/
theorem Running.handlerStart (r : Running s) (hw : s.cfg.wf) (hl : s.listening) (e : Env) :
    Running (handlerStart { s with env := e, rxWaited := 0 }) :=
  { r with
    exclusive := fun h => by simp [r.txActive_of_listening hl] at h
    rxActive_link := fun _ => hl
    rxRanges := fun _ => by
      obtain ⟨-, htwo, -⟩ := hw
      have hd := drawValue_le s.cfg.rxStretchMax e
      simp only [handlerStart_rxBit, handlerStart_rxTimer, handlerStart_cfg]
      omega
    rxWaited_le := Nat.zero_le _ }

/-- A start marker begins a message in an empty buffer (R179). -/
theorem Running.rxStx (r : Running s) (htx : s.txActive = false) : Running (rxStx s) :=
  { r with
    startSeen_iff := by simp
    txLink_active := fun h => by simp at h
    txActive_link := fun h => by simp [htx] at h
    rxActive_link := fun _ => .inr rfl
    dataAvail_terminator := fun h => by simp at h
    cursor_le := Nat.zero_le _
    slots_written := fun i hi => absurd hi (Nat.not_lt_zero i) }

/-- The link leaves `RX_IN_PROGRESS` for `IDLE` together with `START_SEEN`, at the end of a message or when the
watchdog runs out (R41, R157, R180). -/
theorem Running.endMessage (r : Running s) (htx : s.txActive = false) : Running (endMessage s) :=
  { r with
    startSeen_iff := by simp
    txLink_active := fun h => by simp at h
    txActive_link := fun h => by simp [htx] at h
    rxActive_link := fun _ => .inl rfl
    dataAvail_terminator := fun h => by
      obtain ⟨hpos, hterm, -⟩ := r.dataAvail_terminator h
      exact ⟨hpos, hterm, rfl⟩ }

/-- A byte stored at the cursor extends the written slots by one (R32, R201). -/
theorem Running.slots_written_push (r : Running s) (b : Byte) (i : Nat) (hi : i < s.cursor + 1) :
    (slotRead (slotWrite s.buf s.cursor b) i).isSome = true := by
  rw [slotRead_slotWrite]
  split
  · rfl
  · exact r.slots_written i (by omega)

/-- A data byte of a message is stored while there is room (R182). -/
theorem Running.rxData_fits (r : Running s) (hs : s.startSeen = true) (hc : s.cursor < s.cfg.rxCapacity) (b : Byte) :
    Running { s with buf := slotWrite s.buf s.cursor b, cursor := s.cursor + 1 } :=
  { r with
    dataAvail_terminator := fun h => by simp [r.dataAvail_of_startSeen hs] at h
    cursor_le := hc
    slots_written := r.slots_written_push b }

/-- An end marker stores the terminator, which makes the message available (R43, R180). -/
theorem Running.rxEtx_fits (r : Running s) (htx : s.txActive = false) (hc : s.cursor < s.cfg.rxCapacity)
    (l : List TraceEntry) :
    Running { s with
      buf := slotWrite s.buf s.cursor s.cfg.terminator, cursor := s.cursor + 1, dataAvail := true, trace := l
      startSeen := false, link := .idle } :=
  { r.endMessage htx with
    dataAvail_terminator := fun _ => ⟨Nat.le_add_left 1 _, slotRead_slotWrite_same _ _ _, rfl⟩
    cursor_le := hc
    slots_written := r.slots_written_push _ }

/-! ## The commands -/

/-- INIT establishes R41 to R44 from any state of an allowed configuration (R151). -/
theorem runInit_running (hw : s.cfg.wf) (h : runInit s = .next t) : Running t := by
  injection h with h
  subst h
  obtain ⟨-, htwo, hdog⟩ := hw
  exact
    { edgeEnabled := rfl
      startSeen_iff := by simp
      txLink_active := fun h => by cases h
      txActive_link := fun h => by cases h
      exclusive := by simp
      rxActive_link := fun h => by cases h
      dataAvail_terminator := fun h => by cases h
      cursor_le := Nat.zero_le _
      slots_written := fun i hi => absurd hi (Nat.not_lt_zero i)
      rxRanges := fun h => by cases h
      rxWaited_le := Nat.zero_le _
      txRanges := fun h => by cases h
      idleTicks_lt := fun k hk => by
        have hpos : 0 < k := Nat.pos_of_ne_zero fun h0 => hdog (h0 ▸ hk)
        exact Nat.mul_pos hpos (Nat.lt_of_lt_of_le Nat.two_pos htwo) }

/-- An emptied buffer holds no message (R200). -/
theorem Running.clearBuffer (r : Running s) : Running (clearBuffer s) :=
  { r with
    dataAvail_terminator := fun h => by simp at h
    cursor_le := Nat.zero_le _
    slots_written := fun i hi => absurd hi (Nat.not_lt_zero i) }

/-- DISABLE abandons a partial receive; neither engine is running when it does (R152, R224). -/
theorem Running.disable (r : Running s) (hrx : s.rxActive = false) (htx : s.txActive = false) :
    Running { s with link := .disabled, startSeen := false } :=
  { r with
    startSeen_iff := by simp
    txLink_active := fun h => by cases h
    txActive_link := fun h => by simp [htx] at h
    rxActive_link := fun h => by simp [hrx] at h
    dataAvail_terminator := fun h => by
      obtain ⟨hpos, hterm, -⟩ := r.dataAvail_terminator h
      exact ⟨hpos, hterm, rfl⟩ }

/-- A link that is not receiving may become `IDLE` once no SEND is in flight: by ENABLE or at a SEND's end (R134,
R153). -/
theorem Running.link_idle (r : Running s) (hl : s.link ≠ .rxInProgress) (htx : s.txActive = false) :
    Running { s with link := .idle } :=
  { r with
    startSeen_iff := by simp [r.startSeen_of_link_ne hl]
    txLink_active := fun h => by cases h
    txActive_link := fun h => by simp [htx] at h
    rxActive_link := fun _ => .inl rfl }

/-- ENABLE (R153). -/
theorem Running.enable (r : Running s) (htx : s.txActive = false) :
    Running { s with link := if s.link = .disabled then .idle else s.link } := by
  split
  · rename_i hl
    exact r.link_idle (by simp [hl]) htx
  · exact r

/-! ## The Transmitter -/

/-- The wait that is armed for a bit is in the range of R112. -/
theorem armTxTimer_range (hw : s.cfg.wf) :
    1 ≤ (armTxTimer s).txTimer ∧ (armTxTimer s).txTimer ≤ s.cfg.ticksPerBit + s.cfg.txStretchMax := by
  obtain ⟨-, htwo, -⟩ := hw
  have hd := drawValue_le s.cfg.txStretchMax s.env
  rw [armTxTimer_txTimer]
  omega

/-- The frame list of a SEND holds at least its markers (R132). -/
theorem sendFrames_ne_nil (c : Config) (msg : List Byte) : sendFrames c msg ≠ [] := by
  simp [sendFrames]

/-- An admitted SEND takes an idle link, keeps a disabled one, and arms its first bit (R130, R140). -/
theorem Running.admitSend (r : Running s) (hw : s.cfg.wf) (hrx : s.rxActive = false)
    (hl : s.link = .idle ∨ s.link = .disabled) (msg : List Byte) : Running (admitSend msg s) := by
  have hss : s.startSeen = false := r.startSeen_of_link_ne (by rcases hl with h | h <;> simp [h])
  have hlink : (Machine.admitSend msg s).link = .txInProgress ∨ (Machine.admitSend msg s).link = .disabled := by
    rcases hl with h | h <;> simp [Machine.admitSend, h]
  exact
    { r with
      startSeen_iff := by
        have hss' : (Machine.admitSend msg s).startSeen = false := hss
        rcases hlink with h | h <;> simp [h, hss']
      txLink_active := fun _ => rfl
      txActive_link := fun _ => hlink
      exclusive := fun h => by
        have hrx' : (Machine.admitSend msg s).rxActive = false := hrx
        simp [hrx'] at h
      rxActive_link := fun h => Bool.noConfusion (hrx.symm.trans h)
      txRanges := fun _ =>
        have ⟨hmin, hmax⟩ := armTxTimer_range hw
        ⟨sendFrames_ne_nil _ _, Nat.zero_le _, hmin, fun _ => hmax, fun h => Bool.noConfusion h⟩ }

/-- The TX engine goes on to a bit of a frame and arms its wait (R112, R133). -/
theorem Running.armTxTimer (r : Running s) (hw : s.cfg.wf) {n b : Nat} {frames : List Frame} {gap : Bool}
    (hf : frames ≠ []) (hb : b ≤ 9) (hg : gap = false) :
    Running (armTxTimer { s with txTimer := n, txFrames := frames, txBit := b, txGap := gap }) :=
  { r with
    txRanges := fun _ =>
      have ⟨hmin, hmax⟩ := armTxTimer_range hw
      ⟨hf, hb, hmin, fun _ => hmax, fun h => Bool.noConfusion (hg.symm.trans h)⟩ }

/-- A SEND's end stops the TX engine, and a link it held becomes idle (R134, R140). -/
theorem Running.txComplete (r : Running s) (ha : s.txActive = true) (n : Nat) :
    Running (txComplete { s with txTimer := n, txFrames := [] }) := by
  have hss : s.startSeen = false :=
    r.startSeen_of_link_ne (by rcases r.txActive_link ha with h | h <;> simp [h])
  have hrx : s.rxActive = false := by simpa [ha] using r.exclusive
  have hlink : (Machine.txComplete { s with txTimer := n, txFrames := [] }).link = .idle ∨
      (Machine.txComplete { s with txTimer := n, txFrames := [] }).link = .disabled := by
    rcases r.txActive_link ha with h | h <;> simp [Machine.txComplete, h]
  exact
    { r with
      startSeen_iff := by
        have hss' : (Machine.txComplete { s with txTimer := n, txFrames := [] }).startSeen = false := hss
        rcases hlink with h | h <;> simp [h, hss']
      txLink_active := fun hl => by rcases hlink with h | h <;> simp [h] at hl
      txActive_link := fun h => Bool.noConfusion h
      exclusive := fun h => Bool.noConfusion h.1
      rxActive_link := fun h => Bool.noConfusion (hrx.symm.trans h)
      txRanges := fun h => Bool.noConfusion h }

/-- TX_STEP touches neither the configuration nor the buffer nor `INIT_DONE` (R133). -/
theorem txStep_frame (s : State) :
    (txStep s).cfg = s.cfg ∧ (txStep s).buf = s.buf ∧ (txStep s).initDone = s.initDone := by
  rcases txStep_cases s with ⟨_, e⟩ | ⟨_, _, e⟩ | ⟨_, _, _, e⟩ | ⟨_, _, _, _, e⟩ | ⟨_, _, _, _, _, e⟩ |
    ⟨_, _, _, _, _, e⟩ <;> rw [e] <;> exact ⟨rfl, rfl, rfl⟩

/-- TX_STEP keeps the ranges of R34 while frames are left, and frees the link after the last one (R133, R134). -/
theorem Running.txStep (r : Running s) (hw : s.cfg.wf) (ha : s.txActive = true) : Running (txStep s) := by
  obtain ⟨hframes, hbit, -, hbitMax, hgapMax⟩ := r.txRanges ha
  rcases txStep_cases s with ⟨ht, e⟩ | ⟨-, hg, e⟩ | ⟨-, hg, hb, e⟩ | ⟨-, -, -, -, e⟩ | ⟨-, -, -, hrest, hgap, e⟩ |
    ⟨-, hg, -, hrest, -, e⟩ <;> rw [e]
  · exact
      { r with
        txRanges := fun _ =>
          ⟨hframes, hbit, Nat.pos_of_ne_zero ht, fun h => (Nat.sub_le _ _).trans (hbitMax h),
            fun h => (Nat.sub_le _ _).trans (hgapMax h)⟩ }
  · exact r.armTxTimer hw hframes (Nat.zero_le _) rfl
  · exact r.armTxTimer hw hframes hb hg
  · exact r.txComplete ha 0
  · obtain ⟨-, htwo, -⟩ := hw
    exact
      { r with
        txRanges := fun _ =>
          ⟨hrest, hbit, Nat.mul_pos hgap (Nat.lt_of_lt_of_le Nat.two_pos htwo), fun h => Bool.noConfusion h,
            fun _ => Nat.le_refl _⟩ }
  · exact r.armTxTimer hw hrest (Nat.zero_le _) hg

/-! ## From `Running` to the whole invariant -/

/-- An effect that leaves the buffer's bytes, the configuration and `INIT_DONE` alone keeps the invariant if it keeps
the part before INIT and the part after it. -/
theorem Inv.lift (h : Inv s) (hcfg : t.cfg = s.cfg) (hbuf : t.buf = s.buf) (hinit : t.initDone = s.initDone)
    (hquiet : s.initDone = false → Quiet s → Quiet t) (hrun : Running s → Running t) : Inv t where
  cfgWf := hcfg ▸ h.cfgWf
  canonical := hbuf ▸ h.canonical
  inRange := by rw [hbuf, hcfg]; exact h.inRange
  beforeInit hi := hquiet (hinit ▸ hi) (h.beforeInit (hinit ▸ hi))
  afterInit hi := hrun (h.afterInit (hinit ▸ hi))

/-- The same for an effect that happens only after INIT: there is no quiet state to keep. -/
theorem Inv.lift_running (h : Inv s) (hi : s.initDone = true) (hcfg : t.cfg = s.cfg) (hbuf : t.buf = s.buf)
    (hinit : t.initDone = s.initDone) (hrun : Running t) : Inv t :=
  h.lift hcfg hbuf hinit (fun h0 => Bool.noConfusion (h0.symm.trans hi)) fun _ => hrun

/-- Storing a byte at a cursor below N keeps the memory canonical and within `0..N-1` (R60, R201). -/
theorem Inv.lift_push (h : Inv s) (hi : s.initDone = true) (hc : s.cursor < s.cfg.rxCapacity) (b : Byte)
    (hcfg : t.cfg = s.cfg) (hbuf : t.buf = slotWrite s.buf s.cursor b) (hinit : t.initDone = s.initDone)
    (hrun : Running t) : Inv t where
  cfgWf := hcfg ▸ h.cfgWf
  canonical := hbuf ▸ slotWrite_wf _ _ _ h.canonical
  inRange i hw := by
    rw [hbuf, slotRead_slotWrite] at hw
    rw [hcfg]
    split at hw
    · omega
    · exact h.inRange i hw
  beforeInit h0 := Bool.noConfusion (h0.symm.trans (hinit.trans hi))
  afterInit _ := hrun

/-- Every class of received byte keeps the invariant, in a state that the handler has just returned to (R178 to
R183). -/
theorem exec_classify_keeps_inv (b : Byte) (h : Inv s) (hi : s.initDone = true) (hf : s.faulted = none)
    (htx : s.txActive = false) (hx : exec (classify b) s = .next t) : Inv t := by
  have r := h.afterInit hi
  refine rxComplete_keeps Inv s t b hf h ?stx ?fits ?full ?drop ?data ?overflow hx
  case stx => exact fun _ => h.lift_running hi rfl rfl rfl (r.rxStx htx)
  case fits => exact fun _ hc => h.lift_push hi hc _ rfl rfl rfl (r.rxEtx_fits htx hc _)
  case full => exact fun _ _ => h.lift_running hi rfl rfl rfl { r.endMessage htx with }
  case drop => exact fun _ => h.lift_running hi rfl rfl rfl { r with }
  case data => exact fun b hs hc => h.lift_push hi hc b rfl rfl rfl (r.rxData_fits hs hc b)
  case overflow => exact fun _ _ _ => h.lift_running hi rfl rfl rfl { r with }

/-- The completion of a receive keeps the invariant (R176). -/
theorem rxComplete_keeps_inv (h : Inv s) (hf : s.faulted = none) (ha : s.rxActive = true)
    (hx : exec (classify s.rxAcc) (handlerReturn { s with rxTimer := 0 }) = .next t) : Inv t := by
  have hi := h.initDone_of_rxActive ha
  have r := h.afterInit hi
  have hret : Inv (handlerReturn { s with rxTimer := 0 }) := h.lift_running hi rfl rfl rfl (r.handlerReturn 0)
  exact exec_classify_keeps_inv s.rxAcc hret hi hf (r.txActive_of_rxActive ha) hx

/-- A pending edge that waits, bails or starts a receive keeps the invariant (R172 to R174). -/
theorem waitOrActivate_keeps_inv (h : Inv s) (hi : s.initDone = true) : Inv (waitOrActivate s) := by
  have r := h.afterInit hi
  obtain ⟨e, hdraw, -⟩ := afterEdgeDraw_cases s
  rcases waitOrActivate_cases s with ⟨-, hw, heq⟩ | ⟨-, -, heq⟩ | ⟨-, hl, heq⟩
  · rw [heq]
    exact h.lift_running hi rfl rfl rfl (r.edgeWaits hw _)
  · rw [heq, hdraw]
    exact h.lift_running hi rfl rfl rfl (r.handlerBail e)
  · rw [heq, hdraw]
    exact h.lift_running hi rfl rfl rfl (r.handlerStart h.cfgWf hl e)

/-- The consumer's phase keeps the invariant: R224 admits a command only after INIT and beside no receive, R137 only
beside no SEND. -/
theorem consumerPhase_keeps_inv (h : Inv s) (hx : consumerPhase s = .next t) : Inv t := by
  refine consumer_keeps Inv ?fault ?env ?init ?reject ?send ?result ?clear ?disable ?enable s t h hx
  case fault => exact fun s _ _ h => h.lift rfl rfl rfl (fun _ q => { q with }) (fun r => { r with })
  case env => exact fun s _ h _ _ => h.lift rfl rfl rfl (fun _ q => { q with }) (fun r => { r with })
  case init =>
    intro s t h _ _ _ hinit
    have hrun := runInit_running h.cfgWf hinit
    injection hinit with hinit
    subst hinit
    exact { h with beforeInit := fun h0 => Bool.noConfusion h0, afterInit := fun _ => hrun }
  case reject =>
    intro s _ h
    exact h.lift rfl rfl rfl (fun _ q => { q with }) (fun r => { r with })
  case send =>
    intro s msg ⟨_, hi, hrx⟩ _ hl h
    exact h.lift_running hi rfl rfl rfl ((h.afterInit hi).admitSend h.cfgWf hrx hl msg)
  case result => exact fun s _ h => h.lift rfl rfl rfl (fun _ q => { q with }) (fun r => { r with })
  case clear => exact fun s ⟨_, hi, _⟩ h => h.lift_running hi rfl rfl rfl (h.afterInit hi).clearBuffer
  case disable =>
    exact fun s ⟨_, hi, hrx⟩ htx h => h.lift_running hi rfl rfl rfl ((h.afterInit hi).disable hrx htx)
  case enable => exact fun s ⟨_, hi, _⟩ htx h => h.lift_running hi rfl rfl rfl ((h.afterInit hi).enable htx)

/-- Phase 7 keeps the invariant: the watchdog counts below its length and, when it runs out, ends the message
(R157). -/
theorem watchdogPhase_keeps_inv (h : Inv s) : Inv (watchdogPhase s) := by
  rcases watchdogPhase_cases s with ⟨-, e⟩ | ⟨k, hk, -, hi, ⟨hl, -, -, e⟩ | ⟨-, -, hlt, e⟩ | ⟨-, e⟩⟩ <;> rw [e]
  · exact h
  · have r := h.afterInit hi
    exact h.lift_running hi rfl rfl rfl { r.endMessage (r.txActive_of_listening (.inr hl)) with
      idleTicks_lt := fun k hk => Nat.zero_lt_of_lt (r.idleTicks_lt k hk) }
  · exact h.lift_running hi rfl rfl rfl { h.afterInit hi with
      idleTicks_lt := fun k' hk' => by
        obtain rfl : k = k' := Option.some.inj (hk.symm.trans hk')
        exact hlt }
  · have r := h.afterInit hi
    exact h.lift_running hi rfl rfl rfl { r with
      idleTicks_lt := fun k hk => Nat.zero_lt_of_lt (r.idleTicks_lt k hk) }

/-- Settles O55: each effect of a tick's phases keeps the invariant (`tick_keeps`), those before INIT because nothing
runs then (R251). -/
theorem stepKeepsTheInvariant : Obligations.StepKeepsTheInvariant := by
  intro s t hs hstep
  refine tick_keeps Inv ?pin ?env ?edge ?count ?sample ?complete ?wait ?consumer ?tx ?dog ?endTick s t hs hstep
  case pin => exact fun s _ _ h => h.lift rfl rfl rfl (fun _ q => { q with }) (fun r => { r with })
  case env => exact fun s _ _ h _ _ => h.lift rfl rfl rfl (fun _ q => { q with }) (fun r => { r with })
  case edge =>
    exact fun s _ h => h.lift rfl rfl rfl
      (fun _ q => { q with noEdge := by simp [q.noEdge, q.noEdgeEnable] }) (fun r => { r with })
  case count =>
    intro s _ ha ht h
    have hi := h.initDone_of_rxActive ha
    exact h.lift_running hi rfl rfl rfl ((h.afterInit hi).rxCountdown ht)
  case sample =>
    intro s _ ha _ hb h
    have hi := h.initDone_of_rxActive ha
    exact h.lift_running hi rfl rfl rfl ((h.afterInit hi).takeSample h.cfgWf hb 0)
  case complete => exact fun s t hf ha _ _ h hx => rxComplete_keeps_inv h hf ha hx
  case wait => exact fun s _ _ _ hi h => waitOrActivate_keeps_inv h hi
  case consumer => exact fun s t h hx => consumerPhase_keeps_inv h hx
  case tx =>
    intro s _ ha h
    have hi := h.initDone_of_txActive ha
    obtain ⟨hcfg, hbuf, hinit⟩ := txStep_frame s
    exact h.lift_running hi hcfg hbuf hinit ((h.afterInit hi).txStep h.cfgWf ha)
  case dog => exact fun s h => watchdogPhase_keeps_inv h
  case endTick => exact fun s h => h.lift rfl rfl rfl (fun _ q => { q with }) (fun r => { r with })

end Sys2Proof.Machine
end

section
/-! What every step keeps of the configuration, the sticky marks and `CURSOR` (R36, R44, R47, R223).

A tick is cut at its two phases that do something to these elements: the RX engine, which may move `CURSOR`, and the
consumer, whose commands may empty the buffer, set a mark or raise the first fault. All other phases leave them
alone. -/

namespace Sys2Proof.Machine

variable {s t u : State}

/-! ## The effects that leave all of them alone -/

/-- The configuration, `INIT_DONE`, the sticky marks and `CURSOR` are the same in both states. -/
structure Untouched (s t : State) : Prop where
  cfg : t.cfg = s.cfg
  initDone : t.initDone = s.initDone
  invalidInput : t.invalidInput = s.invalidInput
  faulted : t.faulted = s.faulted
  cursor : t.cursor = s.cursor

theorem Untouched.refl (s : State) : Untouched s s := ⟨rfl, rfl, rfl, rfl, rfl⟩

theorem Untouched.trans (h : Untouched s t) (h' : Untouched t u) : Untouched s u :=
  ⟨h'.cfg.trans h.cfg, h'.initDone.trans h.initDone, h'.invalidInput.trans h.invalidInput,
    h'.faulted.trans h.faulted, h'.cursor.trans h.cursor⟩

/-- Phases 1 to 3: the pins, the line and the edge detector. -/
theorem lineSide_untouched (s : State) : Untouched s (edgeDetect (linePhase (drivePhase s))) := by
  have hdrive : Untouched s (drivePhase s) := by
    obtain ⟨p, e⟩ := drivePhase_cases s
    rw [e]; exact ⟨rfl, rfl, rfl, rfl, rfl⟩
  have hline : Untouched (drivePhase s) (linePhase (drivePhase s)) := by
    obtain ⟨p, q, e, -⟩ := linePhase_cases (drivePhase s)
    rw [e]; exact ⟨rfl, rfl, rfl, rfl, rfl⟩
  refine (hdrive.trans hline).trans ?_
  rcases edgeDetect_cases (linePhase (drivePhase s)) with ⟨-, e⟩ | ⟨-, e⟩ <;> rw [e] <;>
    exact ⟨rfl, rfl, rfl, rfl, rfl⟩

/-- A pending edge that waits, bails or starts a receive (R172 to R174). -/
theorem waitOrActivate_untouched (s : State) : Untouched s (waitOrActivate s) := by
  obtain ⟨e, hdraw, -⟩ := afterEdgeDraw_cases s
  rcases waitOrActivate_cases s with ⟨-, -, heq⟩ | ⟨-, -, heq⟩ | ⟨-, -, heq⟩ <;> rw [heq]
  · exact ⟨rfl, rfl, rfl, rfl, rfl⟩
  · rw [hdraw]; exact ⟨rfl, rfl, rfl, rfl, rfl⟩
  · rw [hdraw]; exact ⟨rfl, rfl, rfl, rfl, rfl⟩

/-- TX_STEP, in each of its cases (R133, R134). -/
theorem txStep_untouched (s : State) : Untouched s (txStep s) := by
  rcases txStep_cases s with ⟨-, e⟩ | ⟨-, -, e⟩ | ⟨-, -, -, e⟩ | ⟨-, -, -, -, e⟩ | ⟨-, -, -, -, -, e⟩ |
    ⟨-, -, -, -, -, e⟩ <;> rw [e] <;> exact ⟨rfl, rfl, rfl, rfl, rfl⟩

/-- Phase 7, whether the watchdog runs out, counts or rests (R157). -/
theorem watchdogPhase_untouched (s : State) : Untouched s (watchdogPhase s) := by
  rcases watchdogPhase_cases s with ⟨-, e⟩ | ⟨-, -, -, -, ⟨-, -, -, e⟩ | ⟨-, -, -, e⟩ | ⟨-, e⟩⟩ <;> rw [e] <;>
    exact ⟨rfl, rfl, rfl, rfl, rfl⟩

/-- Phases 6 and 7 and the end of the tick. -/
theorem afterConsumer_untouched (wasActive : Bool) (s : State) : Untouched s (afterConsumer wasActive s) := by
  have htx : Untouched s (txPhase wasActive s) := by
    rcases txPhase_cases wasActive s with ⟨-, e⟩ | ⟨-, -, -, e⟩ <;> rw [e]
    · exact .refl s
    · exact txStep_untouched s
  exact (htx.trans (watchdogPhase_untouched _)).trans ⟨rfl, rfl, rfl, rfl, rfl⟩

/-! ## The RX engine -/

/-- Where the RX engine may leave `CURSOR` in one tick: at 0 by a start marker, where it was, or one further when
there was room for the byte (R179, R180, R182). -/
def ReceivedCursor (s : State) (c : Nat) : Prop :=
  c = 0 ∨ c = s.cursor ∨ (s.cursor < s.cfg.rxCapacity ∧ c = s.cursor + 1)

/-- A completed byte moves `CURSOR` and nothing else that lasts (R178 to R183). -/
theorem exec_classify_untouched (b : Byte) (hf : s.faulted = none) (hx : exec (classify b) s = .next t) :
    ∃ c, ReceivedCursor s c ∧ Untouched { s with cursor := c } t := by
  refine rxComplete_keeps (fun t => ∃ c, ReceivedCursor s c ∧ Untouched { s with cursor := c } t) s t b hf
    ⟨s.cursor, .inr (.inl rfl), .refl s⟩ ?stx ?fits ?full ?drop ?data ?overflow hx
  case stx => exact fun _ => ⟨0, .inl rfl, ⟨rfl, rfl, rfl, rfl, rfl⟩⟩
  case fits => exact fun _ hc => ⟨s.cursor + 1, .inr (.inr ⟨hc, rfl⟩), ⟨rfl, rfl, rfl, rfl, rfl⟩⟩
  case full => exact fun _ _ => ⟨s.cursor, .inr (.inl rfl), ⟨rfl, rfl, rfl, rfl, rfl⟩⟩
  case drop => exact fun _ => ⟨s.cursor, .inr (.inl rfl), ⟨rfl, rfl, rfl, rfl, rfl⟩⟩
  case data => exact fun _ _ hc => ⟨s.cursor + 1, .inr (.inr ⟨hc, rfl⟩), ⟨rfl, rfl, rfl, rfl, rfl⟩⟩
  case overflow => exact fun _ _ _ => ⟨s.cursor, .inr (.inl rfl), ⟨rfl, rfl, rfl, rfl, rfl⟩⟩

/-- Phase 4: only a completion moves `CURSOR` (R172, R175, R176). -/
theorem rxPhase_untouched (h : rxPhase s = .next t) :
    ∃ c, ReceivedCursor s c ∧ Untouched { s with cursor := c } t := by
  have same (ht : Untouched s t) : ∃ c, ReceivedCursor s c ∧ Untouched { s with cursor := c } t :=
    ⟨s.cursor, .inr (.inl rfl), ht⟩
  rcases rxPhase_cases s t h with ⟨-, rfl⟩ | ⟨-, -, -, rfl⟩ | ⟨-, -, -, -, rfl⟩ | ⟨hf, -, -, -, hx⟩ |
    ⟨-, -, -, -, rfl⟩ | ⟨-, -, -, rfl⟩
  · exact same (.refl _)
  · exact same ⟨rfl, rfl, rfl, rfl, rfl⟩
  · exact same ⟨rfl, rfl, rfl, rfl, rfl⟩
  · obtain ⟨c, hc, ht⟩ := exec_classify_untouched (s := handlerReturn { s with rxTimer := 0 }) s.rxAcc hf hx
    exact ⟨c, hc, ⟨ht.cfg, ht.initDone, ht.invalidInput, ht.faulted, ht.cursor⟩⟩
  · exact same (waitOrActivate_untouched s)
  · exact same (.refl _)

/-! ## The consumer -/

/-- What a command keeps: the configuration, a set `INVALID_INPUT`, the first fault, and `CURSOR` unless it empties
the buffer. -/
structure Carried (s t : State) : Prop where
  cfg : t.cfg = s.cfg
  invalidInput : s.invalidInput = true → t.invalidInput = true
  faulted : ∀ k, s.faulted = some k → t.faulted = some k
  cursor : t.cursor = 0 ∨ t.cursor = s.cursor

theorem Carried.refl (s : State) : Carried s s := ⟨rfl, id, fun _ => id, .inr rfl⟩

/-- An effect that touches none of these may follow. -/
theorem Carried.untouched (h : Carried s t) (h' : Untouched t u) : Carried s u where
  cfg := h'.cfg.trans h.cfg
  invalidInput hs := h'.invalidInput.trans (h.invalidInput hs)
  faulted k hs := h'.faulted.trans (h.faulted k hs)
  cursor := h'.cursor ▸ h.cursor

/-- An effect that touches none of these may come before. -/
theorem Untouched.carried (h : Untouched s t) (h' : Carried t u) : Carried s u where
  cfg := h'.cfg.trans h.cfg
  invalidInput hs := h'.invalidInput (h.invalidInput.trans hs)
  faulted k hs := h'.faulted k (h.faulted.trans hs)
  cursor := h.cursor ▸ h'.cursor

/-- Phase 5: a fault is raised only where there is none yet, SEND only sets `INVALID_INPUT`, and INIT, CLEAR and
READ_AND_CLEAR empty the buffer (R136, R151, R200, R203, R223). -/
theorem consumerPhase_carried (h : consumerPhase s = .next t) : Carried s t := by
  refine consumer_keeps (Carried s) ?fault ?env ?init ?reject ?send ?result ?clear ?disable ?enable s t (.refl s) h
  case fault =>
    intro u k hu c
    exact { c with faulted := fun k' hs => absurd (hu.symm.trans (c.faulted k' hs)) (by simp) }
  case env => exact fun u _ c _ _ => c.untouched ⟨rfl, rfl, rfl, rfl, rfl⟩
  case init =>
    intro u v c _ _ _ hinit
    injection hinit with hinit
    subst hinit
    exact { c with cursor := .inl rfl }
  case reject => exact fun u _ c => c.untouched ⟨rfl, rfl, rfl, rfl, rfl⟩
  case send =>
    intro u msg _ _ _ c
    have hmark : (admitSend msg u).invalidInput = (u.invalidInput || holdsMarker msg) := rfl
    exact { c with invalidInput := fun hs => by rw [hmark, c.invalidInput hs, Bool.true_or] }
  case result => exact fun u _ c => c.untouched ⟨rfl, rfl, rfl, rfl, rfl⟩
  case clear => exact fun u _ c => { c with cursor := .inl rfl }
  case disable => exact fun u _ _ c => c.untouched ⟨rfl, rfl, rfl, rfl, rfl⟩
  case enable => exact fun u _ _ c => c.untouched ⟨rfl, rfl, rfl, rfl, rfl⟩

/-! ## The tick -/

/-- What a whole step keeps: the RX engine may first move `CURSOR` to `c`, and the rest of the tick carries over
everything from there. -/
theorem step_carried (h : step s = .next t) : ∃ c, ReceivedCursor s c ∧ Carried { s with cursor := c } t := by
  obtain ⟨s4, s5, h4, h5, rfl⟩ := (step_eq_next s t).1 h
  have hline := lineSide_untouched s
  obtain ⟨c, hc, hrx⟩ := rxPhase_untouched h4
  rw [ReceivedCursor, hline.cursor, hline.cfg] at hc
  have hbefore : Untouched { s with cursor := c } s4 :=
    ⟨hrx.cfg.trans hline.cfg, hrx.initDone.trans hline.initDone, hrx.invalidInput.trans hline.invalidInput,
      hrx.faulted.trans hline.faulted, hrx.cursor⟩
  exact ⟨c, hc, (hbefore.carried (consumerPhase_carried h5)).untouched (afterConsumer_untouched _ _)⟩

/-- Settles O46: no phase writes the configuration (`step_carried`). -/
theorem configurationNeverChanges : Obligations.ConfigurationNeverChanges := by
  intro s t h
  obtain ⟨c, -, hcar⟩ := step_carried h
  exact hcar.cfg

/-- Settles O47: `INVALID_INPUT` is only ever set, and a fault is raised only where there is none yet. -/
theorem stickyMarksStay : Obligations.StickyMarksStay := by
  intro s t h
  obtain ⟨c, -, hcar⟩ := step_carried h
  exact ⟨hcar.invalidInput, hcar.faulted⟩

/-- Settles O49: the RX engine empties, keeps or extends the buffer, and after it the consumer empties or keeps it;
nothing is pushed after a clear in the same tick. -/
theorem cursorFallsOnlyToZero : Obligations.CursorFallsOnlyToZero := by
  intro s t h
  obtain ⟨c, hc, hcar⟩ := step_carried h
  rcases hcar.cursor with h0 | hkeep
  · exact .inl h0
  · have hkeep : t.cursor = c := hkeep
    rcases hc with rfl | rfl | ⟨-, rfl⟩ <;> omega

end Sys2Proof.Machine
end

section
/-! No step stops in a state of the invariant (R44, R60, R203).

The only outcome that is no next state is READ_AND_CLEAR's on a slot that does not exist, which takes a `CURSOR`
above N. So all that is needed of the invariant is that bound, kept up to the consumer's phase. -/

namespace Sys2Proof.Machine

variable {s t : State}

/-- R44: after INIT, `CURSOR` is at most N. -/
def CursorBounded (s : State) : Prop := s.initDone = true → s.cursor ≤ s.cfg.rxCapacity

theorem Inv.cursorBounded (h : Inv s) : CursorBounded s := fun hi => (h.afterInit hi).cursor_le

/-- The terminator is not returned, so no more bytes are read than are stored (R203). -/
theorem payloadLength_le_cursor (s : State) : payloadLength s ≤ s.cursor := by
  unfold payloadLength
  split
  · exact Nat.sub_le _ _
  · exact Nat.le_refl _

/-- READ_AND_CLEAR reads only slots that exist (R60, R203). -/
theorem runReadAndClear_completes (h : s.cursor ≤ s.cfg.rxCapacity) : ∃ t, runReadAndClear s = .next t := by
  have hread := memReadList_eq s (payloadLength s) ((payloadLength_le_cursor s).trans h)
  unfold runReadAndClear
  rw [hread]
  exact ⟨_, rfl⟩

/-- A command completes if its own rule does: a check of R224 that fails ends it in a next state. -/
theorem commandGate_completes (i : Instr) (run : State → Out) (h : s.ready → ∃ t, run s = .next t) :
    ∃ t, commandGate i run s = .next t := by
  rcases commandGate_cases i run s with ⟨-, e⟩ | ⟨-, -, e⟩ | ⟨-, -, -, e⟩ | ⟨hr, e⟩
  · exact ⟨_, e⟩
  · exact ⟨_, e⟩
  · exact ⟨_, e⟩
  · rw [e]; exact h hr

/-- The same for INIT. -/
theorem initGate_completes (i : Instr) (run : State → Out) (h : ∃ t, run s = .next t) :
    ∃ t, initGate i run s = .next t := by
  rcases initGate_cases i run s with ⟨-, e⟩ | ⟨-, -, e⟩ | ⟨-, -, e⟩
  · exact ⟨_, e⟩
  · exact ⟨_, e⟩
  · rw [e]; exact h

/-- A received-frame class always completes. -/
theorem receiveGate_completes (run : State → State) (s : State) : ∃ t, receiveGate run s = .next t := by
  rcases receiveGate_cases run s with ⟨-, e⟩ | ⟨-, e⟩ <;> exact ⟨_, e⟩

/-- Every operation completes while `CURSOR` is in its range. -/
theorem exec_completes (i : Instr) (h : CursorBounded s) : ∃ t, exec i s = .next t := by
  cases i with
  | init => exact initGate_completes _ _ ⟨_, rfl⟩
  | send msg =>
    refine commandGate_completes _ _ fun _ => ?_
    rcases runSend_cases msg s with ⟨-, e⟩ | ⟨-, e⟩ <;> exact ⟨_, e⟩
  | isDataAvailable =>
    unfold exec execIsDataAvailable
    exact commandGate_completes _ _ fun _ => ⟨_, rfl⟩
  | readAndClear => exact commandGate_completes _ _ fun ⟨_, hi, _⟩ => runReadAndClear_completes (h hi)
  | clear =>
    unfold exec execClear
    exact commandGate_completes _ _ fun _ => ⟨_, rfl⟩
  | disable =>
    unfold exec execDisable
    exact commandGate_completes _ _ fun _ => ⟨_, rfl⟩
  | enable =>
    unfold exec execEnable
    exact commandGate_completes _ _ fun _ => ⟨_, rfl⟩
  | frameStx => exact receiveGate_completes _ s
  | frameEtx =>
    unfold exec execFrameEtx
    exact receiveGate_completes _ s
  | frameData b =>
    unfold exec execFrameData
    exact receiveGate_completes _ s

/-- Phases 1 to 3 leave the bound as it is. -/
theorem CursorBounded.lineSide (h : CursorBounded s) : CursorBounded (edgeDetect (linePhase (drivePhase s))) := by
  have hline := lineSide_untouched s
  rw [CursorBounded, hline.initDone, hline.cursor, hline.cfg]
  exact h

/-- Phase 4 keeps the bound: a byte is pushed only where there is room (R201). -/
theorem CursorBounded.rxPhase (h : CursorBounded s) (hrx : rxPhase s = .next t) : CursorBounded t := by
  obtain ⟨c, hc, ht⟩ := rxPhase_untouched hrx
  rw [CursorBounded, ht.initDone, ht.cursor, ht.cfg]
  intro hi
  have hle := h hi
  rcases hc with rfl | rfl | ⟨hroom, rfl⟩
  · exact Nat.zero_le _
  · exact hle
  · exact hroom

/-- Phase 4 completes, a receive's last tick by its class (R176). -/
theorem rxPhase_completes (h : CursorBounded s) : ∃ t, rxPhase s = .next t := by
  unfold Machine.rxPhase
  split
  · exact ⟨_, rfl⟩
  split
  · unfold rxStep
    dsimp only
    split
    · split
      · exact ⟨_, rfl⟩
      · exact exec_completes _ h
    · exact ⟨_, rfl⟩
  split <;> exact ⟨_, rfl⟩

/-- Phase 5 completes, whatever the consumer issues: an illegal word is a next state too (R89, R224). -/
theorem consumerPhase_completes (h : CursorBounded s) : ∃ t, consumerPhase s = .next t := by
  unfold consumerPhase
  split
  · exact ⟨_, rfl⟩
  split
  · exact ⟨_, rfl⟩
  · exact ⟨_, rfl⟩
  · unfold issueCommand
    split
    · exact exec_completes _ h
    · exact ⟨_, rfl⟩

/-- Settles O56: the bound on `CURSOR` (R44) holds up to the consumer's phase, and with it every phase completes. -/
theorem stepCompletesUnderTheInvariant : Obligations.StepCompletesUnderTheInvariant := by
  intro s hs
  have h3 := hs.cursorBounded.lineSide
  obtain ⟨s4, h4⟩ := rxPhase_completes h3
  obtain ⟨s5, h5⟩ := consumerPhase_completes (h3.rxPhase h4)
  exact ⟨_, (step_eq_next s _).2 ⟨s4, s5, h4, h5, rfl⟩⟩

end Sys2Proof.Machine
end

section
/-! The state after reset and the register view (R24, R39, R46, R250). -/

namespace Sys2Proof.Machine

/-- The implementation at hand meets R8, whatever its OPEN parameters are: P is twice a positive number, and there is
no watchdog. -/
theorem platform_wf : Config.platform.wf := by
  refine ⟨Nat.mul_mod_right 2 _, ?_, by simp [Config.platform]⟩
  change 2 ≤ 2 * (Config.openHalfBitTicks + 1)
  omega

/-- Nothing runs after a hardware reset (R250, R251). -/
theorem powerOn_quiet (c : Config) (e : Env) : Quiet (State.powerOn c e) := ⟨rfl, rfl, rfl, rfl, rfl⟩

/-- The invariant after a hardware reset: the buffer is unwritten and INIT is still to come (R46, R250). -/
theorem powerOn_inv (c : Config) (e : Env) (hc : c.wf) : Inv (State.powerOn c e) where
  cfgWf := hc
  canonical := rfl
  inRange _ h := Bool.noConfusion h
  beforeInit _ := powerOn_quiet c e
  afterInit h := Bool.noConfusion h

/-- Settles O54: `State.reset` is a hardware reset with the platform's configuration. -/
theorem invariantHoldsAtReset : Obligations.InvariantHoldsAtReset :=
  ⟨powerOn_inv _ _ platform_wf, powerOn_inv⟩

/-- A flag's word has that flag at its own place and 0 at every other (R39). -/
theorem statusBit_getLsbD (b : Bool) (place i : Nat) (hi : i < 16) :
    (statusBit b place).getLsbD i = (decide (i = place) && b) := by
  by_cases h : i = place
  · subst h
    simp [statusBit, hi]
  · have hbit : i < place ∨ i - place ≠ 0 := by omega
    rcases hbit with hlt | hne
    · simp [statusBit, h, hlt]
    · simp [statusBit, h, hne]

/-- Every bit of the STATUS word (R39). -/
theorem statusWord_getLsbD (s : State) (i : Nat) (hi : i < 16) :
    (statusWord s).getLsbD i =
      ((linkCode s.link).getLsbD i || (decide (i = 2) && s.startSeen) || (decide (i = 3) && s.dataAvail)
        || (decide (i = 4) && s.ovf) || (decide (i = 5) && s.edgePend) || (decide (i = 6) && s.edgeIE)
        || (decide (i = 7) && s.initDone) || (decide (i = 8) && s.rxActive) || (decide (i = 9) && s.txActive)
        || (decide (i = 10) && s.invalidInput) || (decide (i = 11) && isFaulted s)) := by
  simp only [statusWord, BitVec.getLsbD_or, statusBit_getLsbD _ _ _ hi, BitVec.getLsbD_setWidth, hi, decide_true,
    Bool.true_and]

/-- Bits 1:0 are the code of `LINK` (R24, R39). -/
theorem statusWord_link (s : State) : (statusWord s).extractLsb' 0 2 = linkCode s.link := by
  refine BitVec.eq_of_getLsbD_eq fun i hi => ?_
  rw [BitVec.getLsbD_extractLsb', statusWord_getLsbD _ _ (by omega)]
  interval_cases i <;> simp

/-- Bits 15:12 read 0 (R39). -/
theorem statusWord_reserved (s : State) : (statusWord s).extractLsb' 12 4 = 0 := by
  refine BitVec.eq_of_getLsbD_eq fun i hi => ?_
  rw [BitVec.getLsbD_extractLsb', statusWord_getLsbD _ _ (by omega)]
  interval_cases i <;> simp

/-- The flag of `FAULTED` (R36, R39). -/
theorem isFaulted_eq_decide (s : State) : isFaulted s = decide (s.faulted ≠ none) := by
  rw [Bool.eq_iff_iff, isFaulted_eq_true, decide_eq_true_iff]

/-- Settles O57: each field is read off the word's bits (`statusWord_getLsbD`), in each of which one field alone
can be 1. -/
theorem statusWordFields : Obligations.StatusWordFields := by
  intro s
  refine ⟨statusWord_link s, ?_, ?_, ?_, ?_, ?_, ?_, ?_, ?_, ?_, ?_, statusWord_reserved s⟩ <;>
    rw [statusWord_getLsbD _ _ (by decide)] <;> simp [isFaulted_eq_decide]

end Sys2Proof.Machine
end

section
/-! The commands that empty the buffer, and the phases of a tick that run an operation (R60, R66, R70, R176, R200,
R203, R224). -/

namespace Sys2Proof.Machine

variable {s t : State}

/-! ## READ_AND_CLEAR and CLEAR -/

/-- READ_AND_CLEAR that passes the checks of R224 runs its own rule. -/
theorem exec_readAndClear_ready (h : s.ready) : exec .readAndClear s = runReadAndClear s :=
  commandGate_ready .readAndClear runReadAndClear s h

/-- CLEAR that passes the checks of R224 empties the buffer (R200). -/
theorem exec_clear_ready (h : s.ready) : exec .clear s = .next (clearBuffer s) :=
  commandGate_ready .clear (fun s => .next (clearBuffer s)) s h

/-- READ_AND_CLEAR of a payload that lies in the slots returns it and clears (R203). -/
theorem runReadAndClear_of_le (h : payloadLength s ≤ s.cfg.rxCapacity) :
    runReadAndClear s =
      .next (giveResult (.bytes ((List.range (payloadLength s)).map (slotValue s))) (clearBuffer s)) := by
  unfold runReadAndClear
  rw [memReadList_eq s _ h]

/-- READ_AND_CLEAR of more bytes than there are slots stops at index N (R60). -/
theorem runReadAndClear_past (h : s.cfg.rxCapacity < payloadLength s) :
    runReadAndClear s = .fault (.noSuchSlot s.cfg.rxCapacity) := by
  unfold runReadAndClear
  rw [memReadList_past s _ h]

/-- An empty buffer has no payload (R203). -/
theorem payloadLength_of_cursor_zero (h : s.cursor = 0) : payloadLength s = 0 := by
  simp [payloadLength, h]

/-- The bytes that are read have each written slot's byte in its place (R32, R62). -/
theorem getElem?_of_memReadList {k : Nat} {l : List Byte} (h : memReadList s k = .ok l) (i : Nat) (b : Byte)
    (hi : i < k) (hb : slotRead s.buf i = some b) : l[i]? = some b := by
  obtain ⟨rfl, hread⟩ := (memReadList_ok s k l).1 h
  obtain ⟨-, hval⟩ := (memRead_ok s i l[i]).1 (hread i hi)
  rw [List.getElem?_eq_getElem hi, ← hval, slotValue_written s i b hb]

/-- Settles O14: the read stops at the first index that is no slot (`memReadList_past`). -/
theorem readAndClearStopsAtAnUnreadableSlot : Obligations.ReadAndClearStopsAtAnUnreadableSlot := by
  intro s hready hpast
  rw [exec_readAndClear_ready hready]
  exact runReadAndClear_past hpast

/-- Settles O15: the first read leaves an empty buffer in a state that still passes the checks of R224, so the second
one reads no slot. -/
theorem secondReadReturnsNothing : Obligations.SecondReadReturnsNothing := by
  intro s t hready hexec
  rw [exec_readAndClear_ready hready] at hexec
  obtain ⟨l, hl, rfl⟩ := runReadAndClear_next s t hexec
  refine ⟨⟨l, ((memReadList_ok s _ l).1 hl).1, getElem?_of_memReadList hl, rfl⟩, ?_⟩
  have hready' : (giveResult (.bytes l) (clearBuffer s)).ready := hready
  have hempty : payloadLength (giveResult (.bytes l) (clearBuffer s)) = 0 := payloadLength_of_cursor_zero rfl
  rw [exec_readAndClear_ready hready', runReadAndClear_of_le (by rw [hempty]; exact Nat.zero_le _), hempty]
  rfl

/-- Settles O17: CLEAR leaves a state that still passes the checks of R224, and clearing an empty buffer changes
nothing. -/
theorem clearIsIdempotent : Obligations.ClearIsIdempotent := by
  intro s t hready hexec
  rw [exec_clear_ready hready] at hexec
  injection hexec with hexec
  subst hexec
  exact exec_clear_ready (s := clearBuffer s) hready

/-! ## The phases that run an operation -/

/-- Phase 5 runs the command the consumer issues, unless a SEND blocks it (R70, R137, R224). -/
theorem consumerPhase_issue {cmd : CmdWord} {operand : List Byte} {rest : List ConsumerAction} {i : Instr}
    (ha : s.txActive = false) (hc : s.env.consumer = .issue cmd operand :: rest)
    (hd : decode (.command cmd operand) = .ok i) :
    consumerPhase s = exec i { s with env := { s.env with consumer := rest } } := by
  simp [consumerPhase, ha, hc, issueCommand, hd, popConsumer]

/-- Phase 4 of a receive whose wait goes on (R175). -/
theorem rxPhase_counts {n : Nat} (hf : s.faulted = none) (hr : s.rxActive = true) (ht : s.rxTimer = n + 2) :
    rxPhase s = .next { s with rxTimer := n + 1 } := by
  simp [rxPhase, rxStep, (isFaulted_eq_false s).2 hf, hr, ht]

/-- Phase 4 of a receive whose wait ends with data bits to come (R175). -/
theorem rxPhase_samples (hf : s.faulted = none) (hr : s.rxActive = true) (ht : s.rxTimer = 1) (hb : s.rxBit < 8) :
    rxPhase s = .next (takeSample { s with rxTimer := 0 }) := by
  simp [rxPhase, rxStep, (isFaulted_eq_false s).2 hf, hr, ht, hb]

/-- Phase 4 of a receive whose last wait ends: the handler returns and the byte's class runs (R176). -/
theorem rxPhase_completes_receive (hf : s.faulted = none) (hr : s.rxActive = true) (ht : s.rxTimer = 1)
    (hb : s.rxBit = 8) : rxPhase s = exec (classify s.rxAcc) (handlerReturn { s with rxTimer := 0 }) := by
  simp [rxPhase, rxStep, rxComplete, (isFaulted_eq_false s).2 hf, hr, ht, hb]

/-- Phase 4 of an engine at rest with no edge pending (R172). -/
theorem rxPhase_rests (hr : s.rxActive = false) (he : s.edgePend = false) : rxPhase s = .next s := by
  simp [rxPhase, hr, he]

/-- Settles O42: phase 5 runs the decoded command, and phases 6 and 7 follow. -/
theorem stepRunsTheIssuedCommand : Obligations.StepRunsTheIssuedCommand := by
  intro s s4 cmd operand rest i h4 ha hc hd
  unfold step runTick afterLine
  rw [h4, andThen_next, consumerPhase_issue ha hc hd, ha]
  rfl

/-- Settles O43: phases 1 to 3 leave the receive as it is, so phase 4 completes it, and phases 5 to 7 follow. -/
theorem stepRunsTheReceivedFrame : Obligations.StepRunsTheReceivedFrame := by
  intro s hf hr ht hb
  have h4 := rxPhase_completes_receive (s := edgeDetect (linePhase (drivePhase s)))
    (by simpa using hf) (by simpa using hr) (by simpa using ht) (by simpa using hb)
  have hacc : (edgeDetect (linePhase (drivePhase s))).rxAcc = s.rxAcc := by simp
  unfold step runTick afterLine
  rw [h4, ← hacc]
  rfl

end Sys2Proof.Machine
end

section
/-! A tick of a pair (R70, R75, R236, R237): the line is the one thing that passes between the two, and after
phase 2 no phase writes a pin. -/

namespace Sys2Proof.Machine

variable {s t u : State}

/-- A tick of a pair is phases 3 to 7 of both its ends, once the line has its levels (R70, R75). -/
theorem Pair.step_eq_next (y z : Pair) :
    y.step = .next z ↔ afterLine y.lined.a = .next z.a ∧ afterLine y.lined.b = .next z.b := by
  obtain ⟨a, b⟩ := z
  unfold Pair.step
  cases afterLine y.lined.a <;> cases afterLine y.lined.b <;> simp

/-- Over a dedicated link each RX pin sees the other's TX pin (R237). -/
theorem Pair.lined_dedicated (y : Pair) (h : y.a.cfg.lineTopology = .dedicated) :
    y.lined =
      { a := setLine (drivePhase y.b).txPin (drivePhase y.a)
        b := setLine (drivePhase y.a).txPin (drivePhase y.b) } := by
  simp [Pair.lined, Pair.linePhase, h]

/-- On a shared line both see the wire (R237). -/
theorem Pair.lined_shared (y : Pair) (h : y.a.cfg.lineTopology = .shared) :
    let a := setLine (sharedWire (drivePhase y.a).txPin (drivePhase y.b).txPin) (drivePhase y.a)
    y.lined = { a := a, b := { drivePhase y.b with rxPin := a.rxPin } } := by
  simp [Pair.lined, Pair.linePhase, h]

/-- Settles O58: phases 3 to 7 of A run on what A drove and what its peer's TX pin carries, and both are the same in
the two pairs. -/
theorem peerIsSeenOnlyThroughItsPin : Obligations.PeerIsSeenOnlyThroughItsPin := by
  intro y y' z z' ha htop hpin hz hz'
  obtain ⟨hz, -⟩ := (Pair.step_eq_next y z).1 hz
  obtain ⟨hz', -⟩ := (Pair.step_eq_next y' z').1 hz'
  have hsame : y.lined.a = y'.lined.a := by
    rw [Pair.lined_dedicated y htop, Pair.lined_dedicated y' (ha ▸ htop), ha, hpin]
  rw [hsame, hz'] at hz
  injection hz with hz
  exact hz.symm

/-! ## What phases 3 to 7 leave alone -/

/-- The pins are the same in both states. -/
structure SamePins (s t : State) : Prop where
  txPin : t.txPin = s.txPin
  rxPin : t.rxPin = s.rxPin

theorem SamePins.refl (s : State) : SamePins s s := ⟨rfl, rfl⟩

theorem SamePins.trans (h : SamePins s t) (h' : SamePins t u) : SamePins s u :=
  ⟨h'.txPin.trans h.txPin, h'.rxPin.trans h.rxPin⟩

/-- No class of received byte writes a pin (R178 to R183). -/
theorem exec_classify_samePins (b : Byte) (hf : s.faulted = none) (hx : exec (classify b) s = .next t) :
    SamePins s t := by
  refine rxComplete_keeps (SamePins s) s t b hf (.refl s) ?stx ?fits ?full ?drop ?data ?overflow hx
  case stx => exact fun _ => ⟨rfl, rfl⟩
  case fits => exact fun _ _ => ⟨rfl, rfl⟩
  case full => exact fun _ _ => ⟨rfl, rfl⟩
  case drop => exact fun _ => ⟨rfl, rfl⟩
  case data => exact fun _ _ _ => ⟨rfl, rfl⟩
  case overflow => exact fun _ _ _ => ⟨rfl, rfl⟩

/-- A pending edge that waits, bails or starts a receive writes no pin (R172 to R174). -/
theorem waitOrActivate_samePins (s : State) : SamePins s (waitOrActivate s) := by
  obtain ⟨e, hdraw, -⟩ := afterEdgeDraw_cases s
  rcases waitOrActivate_cases s with ⟨-, -, heq⟩ | ⟨-, -, heq⟩ | ⟨-, -, heq⟩ <;> rw [heq]
  · exact ⟨rfl, rfl⟩
  · rw [hdraw]; exact ⟨rfl, rfl⟩
  · rw [hdraw]; exact ⟨rfl, rfl⟩

/-- Phase 4 reads the RX pin and writes none. -/
theorem rxPhase_samePins (h : rxPhase s = .next t) : SamePins s t := by
  rcases rxPhase_cases s t h with ⟨-, rfl⟩ | ⟨-, -, -, rfl⟩ | ⟨-, -, -, -, rfl⟩ | ⟨hf, -, -, -, hx⟩ |
    ⟨-, -, -, -, rfl⟩ | ⟨-, -, -, rfl⟩
  · exact .refl _
  · exact ⟨rfl, rfl⟩
  · exact ⟨rfl, rfl⟩
  · have p := exec_classify_samePins (s := handlerReturn { s with rxTimer := 0 }) s.rxAcc hf hx
    exact ⟨p.txPin, p.rxPin⟩
  · exact waitOrActivate_samePins s
  · exact .refl _

/-- No command writes a pin: SEND and INIT show on `TX_PIN` from the next tick on (R133). -/
theorem consumerPhase_samePins (h : consumerPhase s = .next t) : SamePins s t := by
  refine consumer_keeps (SamePins s) ?fault ?env ?init ?reject ?send ?result ?clear ?disable ?enable s t (.refl s) h
  case fault => exact fun u _ _ p => ⟨p.txPin, p.rxPin⟩
  case env => exact fun u _ p _ _ => ⟨p.txPin, p.rxPin⟩
  case init =>
    intro u v p _ _ _ hinit
    injection hinit with hinit
    subst hinit
    exact ⟨p.txPin, p.rxPin⟩
  case reject => exact fun u _ p => ⟨p.txPin, p.rxPin⟩
  case send => exact fun u _ _ _ _ p => ⟨p.txPin, p.rxPin⟩
  case result => exact fun u _ p => ⟨p.txPin, p.rxPin⟩
  case clear => exact fun u _ p => ⟨p.txPin, p.rxPin⟩
  case disable => exact fun u _ _ p => ⟨p.txPin, p.rxPin⟩
  case enable => exact fun u _ _ p => ⟨p.txPin, p.rxPin⟩

/-- Phases 6 and 7 write no pin: TX_STEP moves on to the bit that phase 1 drives in the next tick (R133). -/
theorem afterConsumer_samePins (wasActive : Bool) (s : State) : SamePins s (afterConsumer wasActive s) := by
  have htx : SamePins s (txPhase wasActive s) := by
    rcases txPhase_cases wasActive s with ⟨-, e⟩ | ⟨-, -, -, e⟩ <;> rw [e]
    · exact .refl s
    · rcases txStep_cases s with ⟨-, e⟩ | ⟨-, -, e⟩ | ⟨-, -, -, e⟩ | ⟨-, -, -, -, e⟩ | ⟨-, -, -, -, -, e⟩ |
        ⟨-, -, -, -, -, e⟩ <;> rw [e] <;> exact ⟨rfl, rfl⟩
  have hdog : SamePins (txPhase wasActive s) (watchdogPhase (txPhase wasActive s)) := by
    rcases watchdogPhase_cases (txPhase wasActive s) with
      ⟨-, e⟩ | ⟨-, -, -, -, ⟨-, -, -, e⟩ | ⟨-, -, -, e⟩ | ⟨-, e⟩⟩ <;> rw [e] <;> exact ⟨rfl, rfl⟩
  exact (htx.trans hdog).trans ⟨rfl, rfl⟩

/-- Once the line has its level, the pins stay as they are to the end of the tick. -/
theorem afterLine_samePins (h : afterLine s = .next t) : SamePins s t := by
  obtain ⟨s4, s5, h4, h5, rfl⟩ := (afterLine_eq_next s t).1 h
  have hedge : SamePins s (edgeDetect s) := ⟨by simp, by simp⟩
  exact ((hedge.trans (rxPhase_samePins h4)).trans (consumerPhase_samePins h5)).trans (afterConsumer_samePins _ _)

/-- Phases 3 to 7 write no parameter (R47). -/
theorem afterLine_cfg (h : afterLine s = .next t) : t.cfg = s.cfg := by
  obtain ⟨s4, s5, h4, h5, rfl⟩ := (afterLine_eq_next s t).1 h
  obtain ⟨c, -, hrx⟩ := rxPhase_untouched h4
  rw [(afterConsumer_untouched _ _).cfg, (consumerPhase_carried h5).cfg, hrx.cfg]
  exact edgeDetect_cfg s

/-! ## What the line carries -/

/-- A driven line sets the RX pin to its level (R35). -/
@[simp] theorem setLine_driven_rxPin (v : Level) (s : State) : (setLine (.driven v) s).rxPin = v := rfl

/-- A shared wire carries the level of a driven pin that the other pin does not contradict (R237). -/
theorem sharedWire_eq_driven (v : Level) (x y : Drive) :
    (x = .driven v ∧ (y = .driven v ∨ y = .undriven)) ∨ (x = .undriven ∧ y = .driven v) →
      sharedWire x y = .driven v := by
  rintro (⟨rfl, rfl | rfl⟩ | ⟨rfl, rfl⟩) <;> simp [sharedWire]

/-- Settles O59: the pins after a tick are those of its phase 2 (`afterLine_samePins`), where the RX pins take what
the wiring gives them. -/
theorem lineCarriesWhatIsDriven : Obligations.LineCarriesWhatIsDriven := by
  intro y z hz
  obtain ⟨ha, hb⟩ := (Pair.step_eq_next y z).1 hz
  have pa := afterLine_samePins ha
  have pb := afterLine_samePins hb
  refine ⟨fun htop => ?dedicated, fun htop => ?shared⟩
  case dedicated =>
    simp only [Pair.lined_dedicated y htop] at pa pb
    have hta : z.a.txPin = (drivePhase y.a).txPin := by simpa using pa.txPin
    have htb : z.b.txPin = (drivePhase y.b).txPin := by simpa using pb.txPin
    refine ⟨fun v hv => ?_, fun v hv => ?_⟩
    · rw [pb.rxPin, ← hta, hv, setLine_driven_rxPin]
    · rw [pa.rxPin, ← htb, hv, setLine_driven_rxPin]
  case shared =>
    simp only [Pair.lined_shared y htop] at pa pb
    have hta : z.a.txPin = (drivePhase y.a).txPin := by simpa using pa.txPin
    have htb : z.b.txPin = (drivePhase y.b).txPin := pb.txPin
    have hwire (v : Level) (h : sharedWire z.a.txPin z.b.txPin = .driven v) : z.a.rxPin = v := by
      rw [pa.rxPin, ← hta, ← htb, h, setLine_driven_rxPin]
    exact ⟨pa.rxPin.trans pb.rxPin.symm,
      fun v h h' => hwire v (sharedWire_eq_driven v _ _ (.inl ⟨h, h'⟩)),
      fun v h h' => hwire v (sharedWire_eq_driven v _ _ (.inr ⟨h', h⟩))⟩

end Sys2Proof.Machine
end

section
/-! Runs of one end of a dedicated link, and what it sends (R70, R110 to R114, R133, R139, R237).

A dedicated pair falls into two ends that meet only on the wire: in a tick each end drives a level and is given one.
`Emits` is a run of the sender, to which the line brings the idle level, and `Hears` one of the receiver, which drives
it; a pair runs as its ends do when the wave of the one is the wave of the other (`Pair.run_of_emits`). -/

namespace Sys2Proof.Machine

variable {s t u : State}

/-! ## One end of a dedicated link -/

/-- What a pin at rest drives (R9). -/
abbrev idleDrive : Drive := .driven idleLevel

/-- One tick of an end that drives `out` while the line brings it `inn`. -/
def Tick (out inn : Drive) (s t : State) : Prop :=
  (drivePhase s).txPin = out ∧ afterLine (setLine inn (drivePhase s)) = .next t

/-- A run along a wave, one tick of the kind `T` for each of its levels. -/
def Along (T : Drive → State → State → Prop) : List Drive → State → State → Prop
  | [], s, t => t = s
  | d :: w, s, t => ∃ u, T d s u ∧ Along T w u t

/-- The end sends the wave, and the line brings it the idle level. -/
abbrev Emits : List Drive → State → State → Prop := Along fun d => Tick d idleDrive

/-- The end is sent the wave, and drives the idle level. -/
abbrev Hears : List Drive → State → State → Prop := Along fun d => Tick idleDrive d

theorem Along.single {T : Drive → State → State → Prop} {d : Drive} (h : T d s t) : Along T [d] s t := ⟨t, h, rfl⟩

/-- A wave after a wave is one wave. -/
theorem Along.append {T : Drive → State → State → Prop} {v w : List Drive} (h : Along T v s t) (h' : Along T w t u) :
    Along T (v ++ w) s u := by
  induction v generalizing s with
  | nil => exact (show t = s from h) ▸ h'
  | cons d v ih =>
    obtain ⟨r, hd, hv⟩ := h
    exact ⟨r, hd, ih hv⟩

/-- A dedicated pair whose ends do the two sides of a tick does that tick (R75, R237). -/
theorem Pair.step_of_ticks {a a' b b' : State} {d e : Drive} (htop : a.cfg.lineTopology = .dedicated)
    (ha : Tick d e a a') (hb : Tick e d b b') : (Pair.mk a b).step = .next (Pair.mk a' b') := by
  obtain ⟨hda, hla⟩ := ha
  obtain ⟨hdb, hlb⟩ := hb
  rw [Pair.step_eq_next, Pair.lined_dedicated _ htop, hda, hdb]
  exact ⟨hla, hlb⟩

/-- A tick changes no parameter (R47). -/
theorem Tick.cfg {d e : Drive} (h : Tick d e s t) : t.cfg = s.cfg := by
  rw [afterLine_cfg h.2, setLine_cfg, drivePhase_cfg]

/-- A dedicated pair of which A sends what B is sent runs as its two ends do. -/
theorem Pair.run_of_emits {w : List Drive} {a a' b b' : State} (htop : a.cfg.lineTopology = .dedicated)
    (ha : Emits w a a') (hb : Hears w b b') : Pair.run w.length ⟨a, b⟩ = .next ⟨a', b'⟩ := by
  induction w generalizing a b with
  | nil =>
    obtain rfl : a' = a := ha
    obtain rfl : b' = b := hb
    rfl
  | cons d w ih =>
    obtain ⟨a₁, hta, hwa⟩ := ha
    obtain ⟨b₁, htb, hwb⟩ := hb
    rw [List.length_cons, Pair.run, Pair.step_of_ticks htop hta htb]
    exact ih (by rw [hta.cfg]; exact htop) hwa hwb

/-! ## Phases 1 to 3 -/

/-- The state after phases 1 to 3 of a tick in which the line brings the level `v` (R133, R170). -/
def sensed (v : Level) (s : State) : State :=
  { s with
    txPin := txDrive s
    rxPin := v
    rxPrev := v
    edgePend := s.edgePend || (s.edgeIE && !s.rxPrev && v) }

/-- Phase 1 of an end that is not faulted drives the current bit (R133). -/
theorem drivePhase_eq (hf : s.faulted = none) : drivePhase s = { s with txPin := txDrive s } := by
  simp [drivePhase, (isFaulted_eq_false s).2 hf]

/-- A tick is its phases 4 to 7 on what phases 1 to 3 leave. -/
theorem Tick.of_phases {v : Level} {d : Drive} {s4 s5 : State} (hf : s.faulted = none) (hd : txDrive s = d)
    (h4 : rxPhase (sensed v s) = .next s4) (h5 : consumerPhase s4 = .next s5) :
    Tick d (.driven v) s (afterConsumer s4.txActive s5) := by
  have hedge : edgeDetect (setLine (.driven v) (drivePhase s)) = sensed v s := by
    rw [drivePhase_eq hf]
    exact edgeDetect_eq _ hf
  refine ⟨by rw [drivePhase_eq hf]; exact hd, (afterLine_eq_next _ _).2 ⟨s4, s5, ?_, h5, rfl⟩⟩
  rw [hedge, h4]

/-- An end that sends nothing drives the idle level (R133). -/
theorem txDrive_idle (hi : s.initDone = true) (ha : s.txActive = false) : txDrive s = idleDrive := by
  simp [txDrive, hi, ha]

/-- An end at rest sees no edge while the line is at 0 (R170, R172). -/
theorem rxPhase_sensed_idle (hr : s.rxActive = false) (he : s.edgePend = false) :
    rxPhase (sensed idleLevel s) = .next (sensed idleLevel s) :=
  rxPhase_rests hr (by simp [sensed, he, idleLevel])

/-! ## The sender -/

/-- A SEND in flight with no gap, whose head frame is at bit `b` with `n` ticks left of it, and whose end has nothing
to receive. `rest` is what its consumer does after it. -/
structure Sending (c : Config) (rest : List ConsumerAction) (frames : List Frame) (b n : Nat) (s : State) : Prop where
  faulted : s.faulted = none
  initDone : s.initDone = true
  rxActive : s.rxActive = false
  edgePend : s.edgePend = false
  txActive : s.txActive = true
  link : s.link = .txInProgress
  txGap : s.txGap = false
  cfg : s.cfg = c
  consumer : s.env.consumer = rest
  txFrames : s.txFrames = frames
  txBit : s.txBit = b
  txTimer : s.txTimer = n

/-- A SEND that has ended and freed the link and the consumer (R134). -/
structure Sent (rest : List ConsumerAction) (s : State) : Prop where
  txActive : s.txActive = false
  link : s.link = .idle
  consumer : s.env.consumer = rest

variable {c : Config} {rest : List ConsumerAction} {f : Frame} {frames : List Frame} {b n : Nat}

/-- A tick of a SEND in flight sends its current bit and then runs TX_STEP (R133, R137). -/
theorem Sending.tick (h : Sending c rest (f :: frames) b n s) :
    ∃ m, Tick (.driven (f.getLsbD b)) idleDrive s
      (endTick { txStep (sensed idleLevel s) with rxIdleTicks := m }) := by
  have hd : txDrive s = .driven (f.getLsbD b) := by
    simp [txDrive, h.initDone, h.txActive, h.txGap, h.txFrames, h.txBit]
  have h5 : consumerPhase (sensed idleLevel s) = .next (sensed idleLevel s) := by
    simp [consumerPhase, sensed, h.txActive]
  have h6 : txPhase (sensed idleLevel s).txActive (sensed idleLevel s) = txStep (sensed idleLevel s) := by
    simp [txPhase, isFaulted, sensed, h.faulted, h.txActive]
  obtain ⟨m, h7⟩ := watchdogPhase_idle (txStep (sensed idleLevel s)) (by
    rintro ⟨hl, -⟩
    rcases txStep_link (sensed idleLevel s) with hl' | hl' <;> rw [hl'] at hl
    · simp [sensed, h.link] at hl
    · cases hl)
  have ht := Tick.of_phases h.faulted hd (rxPhase_sensed_idle h.rxActive h.edgePend) h5
  rw [afterConsumer, h6, h7] at ht
  exact ⟨m, ht⟩

/-- `Sending` speaks of no element that phases 1 to 3 write when the line is at 0. -/
theorem Sending.sensed_idle (h : Sending c rest frames b n s) : Sending c rest frames b n (sensed idleLevel s) :=
  { h with edgePend := by simp [sensed, h.edgePend, idleLevel] }

/-- Nor does it speak of the watchdog or the tick's number. -/
theorem Sending.endTick_idleTicks (h : Sending c rest frames b n s) (m : Nat) :
    Sending c rest frames b n (endTick { s with rxIdleTicks := m }) :=
  { h with }

/-- A bit is held for one more tick (R112). -/
theorem Sending.holds (h : Sending c rest (f :: frames) b (n + 2) s) :
    ∃ t, Emits [.driven (f.getLsbD b)] s t ∧ Sending c rest (f :: frames) b (n + 1) t := by
  obtain ⟨m, ht⟩ := h.tick
  have hu := h.sensed_idle
  refine ⟨_, .single ht, Sending.endTick_idleTicks ?_ m⟩
  have hstep : txStep (sensed idleLevel s) = { sensed idleLevel s with txTimer := n + 1 } := by
    simp [txStep, hu.txTimer]
  rw [hstep]
  exact { hu with txTimer := rfl }

/-- A bit whose time is over is followed by the next one of its frame (R113). -/
theorem Sending.nextBit (h : Sending c rest (f :: frames) b 1 s) (hc : c.txStretchMax = 0) (hb : b < 9) :
    ∃ t, Emits [.driven (f.getLsbD b)] s t ∧ Sending c rest (f :: frames) (b + 1) c.ticksPerBit t := by
  obtain ⟨m, ht⟩ := h.tick
  have hu := h.sensed_idle
  refine ⟨_, .single ht, Sending.endTick_idleTicks ?_ m⟩
  have hstep : txStep (sensed idleLevel s)
      = armTxTimer { sensed idleLevel s with txTimer := 0, txBit := b + 1 } := by
    simp [txStep, hu.txTimer, hu.txGap, hu.txBit, hb]
  rw [hstep]
  exact { hu with txBit := rfl, txTimer := by simp [hu.cfg, hc], consumer := by simp [hu.consumer] }

/-- A frame whose stop bit is over is followed by the next frame at once where there is no gap (R114). -/
theorem Sending.nextFrame {g : Frame} (h : Sending c rest (f :: g :: frames) 9 1 s) (hc : c.txStretchMax = 0)
    (hg : c.txGapBits = 0) :
    ∃ t, Emits [.driven (f.getLsbD 9)] s t ∧ Sending c rest (g :: frames) 0 c.ticksPerBit t := by
  obtain ⟨m, ht⟩ := h.tick
  have hu := h.sensed_idle
  refine ⟨_, .single ht, Sending.endTick_idleTicks ?_ m⟩
  have hstep : txStep (sensed idleLevel s)
      = armTxTimer { sensed idleLevel s with txTimer := 0, txFrames := g :: frames, txBit := 0 } := by
    simp [txStep, txFrameEnd, hu.txTimer, hu.txGap, hu.txBit, hu.txFrames, hu.cfg, hg]
  rw [hstep]
  exact { hu with txFrames := rfl, txBit := rfl, txTimer := by simp [hu.cfg, hc], consumer := by simp [hu.consumer] }

/-- After the stop bit of the last frame the SEND is over (R134). -/
theorem Sending.lastFrame (h : Sending c rest [f] 9 1 s) :
    ∃ t, Emits [.driven (f.getLsbD 9)] s t ∧ Sent rest t := by
  obtain ⟨m, ht⟩ := h.tick
  have hu := h.sensed_idle
  refine ⟨_, .single ht, ?_⟩
  have hstep : txStep (sensed idleLevel s)
      = txComplete { sensed idleLevel s with txTimer := 0, txFrames := [] } := by
    simp [txStep, txFrameEnd, hu.txTimer, hu.txGap, hu.txBit, hu.txFrames]
  rw [hstep]
  exact ⟨rfl, by simp [txComplete, hu.link], hu.consumer⟩

/-- A bit is sent up to its last tick (R112). -/
theorem Sending.cell (h : Sending c rest (f :: frames) b (n + 1) s) :
    ∃ t, Emits (holdLevel (f.getLsbD b) n) s t ∧ Sending c rest (f :: frames) b 1 t := by
  induction n generalizing s with
  | zero => exact ⟨s, rfl, h⟩
  | succ n ih =>
    obtain ⟨u, hu, hu'⟩ := h.holds
    obtain ⟨t, ht, ht'⟩ := ih hu'
    exact ⟨t, Along.append hu ht, ht'⟩

/-- The levels of the first `b` bits of a frame. -/
def bitsWave (p : Nat) (f : Frame) (b : Nat) : List Drive :=
  ((List.range b).map fun j => f.getLsbD j).flatMap fun v => holdLevel v p

/-- One bit more. -/
theorem bitsWave_succ (p : Nat) (f : Frame) (b : Nat) :
    bitsWave p f (b + 1) = bitsWave p f b ++ holdLevel (f.getLsbD b) p := by
  simp [bitsWave, List.range_succ]

/-- All ten bits are the frame (R111). -/
theorem frameWave_eq_bitsWave (p : Nat) (f : Frame) : frameWave p f = bitsWave p f 10 := rfl

/-- A level held for some ticks, cut around one of them. -/
theorem holdLevel_cut (v : Level) {p m n : Nat} (h : p = m + 1 + n) :
    holdLevel v p = holdLevel v m ++ ([.driven v] ++ holdLevel v n) := by
  subst h
  simp only [holdLevel, ← List.replicate_one, List.replicate_append_replicate, Nat.add_assoc]

/-- The same around the last of them. -/
theorem holdLevel_succ (v : Level) (n : Nat) : holdLevel v (n + 1) = holdLevel v n ++ [.driven v] :=
  List.replicate_succ'

/-- The bits of a frame are sent in their order (R111, R113). -/
theorem Sending.bits (hc : c.txStretchMax = 0) (hP : c.ticksPerBit = n + 1)
    (h : Sending c rest (f :: frames) 0 c.ticksPerBit s) (hb : b ≤ 9) :
    ∃ t, Emits (bitsWave c.ticksPerBit f b) s t ∧ Sending c rest (f :: frames) b c.ticksPerBit t := by
  induction b with
  | zero => exact ⟨s, rfl, h⟩
  | succ b ih =>
    obtain ⟨t, ht, ht'⟩ := ih (by omega)
    obtain ⟨u, hu, hu'⟩ := Sending.cell (hP ▸ ht')
    obtain ⟨v, hv, hv'⟩ := hu'.nextBit hc (by omega)
    refine ⟨v, ?_, hv'⟩
    rw [bitsWave_succ, hP, holdLevel_succ, ← hP]
    exact ht.append (hu.append hv)

/-- A frame is sent up to the last tick of its stop bit. -/
theorem Sending.frame (hc : c.txStretchMax = 0) (hP : c.ticksPerBit = n + 1)
    (h : Sending c rest (f :: frames) 0 c.ticksPerBit s) :
    ∃ w t, frameWave c.ticksPerBit f = w ++ [.driven (f.getLsbD 9)] ∧ Emits w s t
      ∧ Sending c rest (f :: frames) 9 1 t := by
  obtain ⟨t, ht, ht'⟩ := h.bits hc hP (Nat.le_refl 9)
  obtain ⟨u, hu, hu'⟩ := Sending.cell (hP ▸ ht')
  refine ⟨_, u, ?_, ht.append hu, hu'⟩
  rw [frameWave_eq_bitsWave, bitsWave_succ, List.append_assoc, ← holdLevel_succ, hP]

/-- A SEND sends its frames back to back, and is over with them (R114, R117, R134, R139). -/
theorem Sending.emits_frames (hc : c.txStretchMax = 0) (hg : c.txGapBits = 0) (hP : c.ticksPerBit = n + 1)
    (h : Sending c rest (f :: frames) 0 c.ticksPerBit s) :
    ∃ t, Emits (framesWave c.ticksPerBit (f :: frames)) s t ∧ Sent rest t := by
  induction frames generalizing f s with
  | nil =>
    obtain ⟨w, u, hw, hu, hu'⟩ := h.frame hc hP
    obtain ⟨t, ht, ht'⟩ := hu'.lastFrame
    refine ⟨t, ?_, ht'⟩
    rw [framesWave, List.flatMap_singleton, hw]
    exact hu.append ht
  | cons g frames ih =>
    obtain ⟨w, u, hw, hu, hu'⟩ := h.frame hc hP
    obtain ⟨v, hv, hv'⟩ := hu'.nextFrame hc hg
    obtain ⟨t, ht, ht'⟩ := ih hv'
    refine ⟨t, ?_, ht'⟩
    rw [framesWave, List.flatMap_cons, hw]
    exact (hu.append hv).append ht

/-- SEND in an idle link that passes the checks of R224 is admitted (R130, R131). -/
theorem exec_send_idle (hready : s.ready) (hl : s.link = .idle) (msg : List Byte) :
    exec (.send msg) s = .next (admitSend msg s) := by
  refine (commandGate_ready (.send msg) (runSend msg) s hready).trans ?_
  rcases runSend_cases msg s with ⟨hl', -⟩ | ⟨-, e⟩
  · simp [hl] at hl'
  · exact e

/-- An admitted SEND has queued its frames and armed the first bit (R130). -/
theorem Sending.of_admitSend (hready : s.ready) (hl : s.link = .idle) (he : s.edgePend = false)
    (hc : s.cfg.txStretchMax = 0) (msg : List Byte) :
    Sending s.cfg s.env.consumer (sendFrames s.cfg msg) 0 s.cfg.ticksPerBit (admitSend msg s) where
  faulted := hready.1
  initDone := hready.2.1
  rxActive := hready.2.2
  edgePend := he
  txActive := rfl
  link := by simp [admitSend, hl]
  txGap := rfl
  cfg := rfl
  consumer := by simp [admitSend]
  txFrames := rfl
  txBit := rfl
  txTimer := by simp [admitSend, hc]

/-- An idle end whose consumer issues SEND sends the idle level for one more tick, in which the SEND is admitted
(R130, R133). -/
theorem Sending.start {msg : List Byte} (hready : s.ready) (hl : s.link = .idle) (he : s.edgePend = false)
    (ha : s.txActive = false) (hc : s.cfg.txStretchMax = 0) (hcons : s.env.consumer = .issue 0x02 msg :: rest) :
    ∃ t, Emits [idleDrive] s t ∧ Sending s.cfg rest (sendFrames s.cfg msg) 0 s.cfg.ticksPerBit t := by
  obtain ⟨u, hu⟩ : ∃ u : State, u = { sensed idleLevel s with env := { s.env with consumer := rest } } := ⟨_, rfl⟩
  have hready' : u.ready := hu ▸ hready
  have hl' : u.link = .idle := hu ▸ hl
  have hsend : Sending s.cfg rest (sendFrames s.cfg msg) 0 s.cfg.ticksPerBit (admitSend msg u) := by
    have hs := Sending.of_admitSend hready' hl' (by simp [hu, sensed, he, idleLevel]) (hu ▸ hc) msg
    rw [hu] at hs ⊢
    exact hs
  have h5 : consumerPhase (sensed idleLevel s) = .next (admitSend msg u) := by
    rw [← exec_send_idle hready' hl' msg, hu]
    exact consumerPhase_issue (s := sensed idleLevel s) ha hcons rfl
  have h6 : txPhase (sensed idleLevel s).txActive (admitSend msg u) = admitSend msg u := by
    simp [txPhase, sensed, ha]
  obtain ⟨m, h7⟩ := watchdogPhase_idle (admitSend msg u) (by simp [hsend.link])
  obtain ⟨hf, hi, hr⟩ := hready
  have ht := Tick.of_phases hf (txDrive_idle hi ha) (rxPhase_sensed_idle hr he) h5
  rw [afterConsumer, h6, h7] at ht
  exact ⟨_, .single ht, hsend.endTick_idleTicks m⟩

end Sys2Proof.Machine
end

section
/-! One frame at the receiving end of a dedicated link (R61, R81 to R83, R111, R115, R116, R157, R170 to R176).

With no latency and no stretch the RX engine takes the edge of the start bit in the tick in which it comes, so that in
every data cell the wait ends half a bit-period into the cell. A receive is followed cell by cell: `Receiving` says how
many bits are sampled and how long the wait still is. What a receive under way leaves alone is compared by `lasting`.
-/

namespace Sys2Proof.Machine

variable {s t u s₀ : State} {c : Config}

/-! ## What a receive leaves alone -/

/-- The state without the elements that the line, the RX engine and the tick's end write: two states of which this is
the same hold the same message. -/
def lasting (s : State) : State :=
  { s with
    edgePend := false, rxActive := false, rxAcc := 0, rxBit := 0, rxTimer := 0, rxWaited := 0, txPin := .undriven
    rxPin := false, rxPrev := false, rxIdleTicks := 0, trace := []
    env := { Env.fresh 0 with consumer := s.env.consumer } }

/-- An end that INIT has set up, that sends nothing and whose consumer issues nothing. -/
structure Attends (c : Config) (s : State) : Prop where
  faulted : s.faulted = none
  initDone : s.initDone = true
  edgeIE : s.edgeIE = true
  txActive : s.txActive = false
  consumer : s.env.consumer = []
  cfg : s.cfg = c

/-- `Attends` and `listening` speak only of what lasts. -/
theorem Attends.of_lasting (h : Attends c s) (hl : lasting t = lasting s) : Attends c t where
  faulted := (congrArg State.faulted hl :).trans h.faulted
  initDone := (congrArg State.initDone hl :).trans h.initDone
  edgeIE := (congrArg State.edgeIE hl :).trans h.edgeIE
  txActive := (congrArg State.txActive hl :).trans h.txActive
  consumer := (congrArg (fun u => u.env.consumer) hl :).trans h.consumer
  cfg := (congrArg State.cfg hl :).trans h.cfg

theorem listening_of_lasting (h : s.listening) (hl : lasting t = lasting s) : t.listening := by
  have hlink : t.link = s.link := (congrArg State.link hl :)
  unfold State.listening
  rwa [hlink]

/-- No receive is under way, and the line was at 0 with no edge pending. -/
structure Rests (s : State) : Prop where
  rxActive : s.rxActive = false
  edgePend : s.edgePend = false
  rxPrev : s.rxPrev = false

/-- A receiver with no latency and no stretch, of a configuration that R8 allows. -/
structure Prompt (c : Config) : Prop where
  wf : c.wf
  latency : c.rxLatencyMax = 0
  stretch : c.rxStretchMax = 0

/-! ## The watchdog between two frames -/

/-- A watchdog, where there is one, has counted at most `n` ticks (R157). -/
def IdleAtMost (n : Nat) (s : State) : Prop := ∀ k, s.cfg.rxTimeoutBits = some k → s.rxIdleTicks ≤ n

/-- A watchdog is at 0 during a receive (R157). -/
theorem watchdogPhase_receiving (h : Attends c s) (hr : s.rxActive = true) :
    ∃ n, watchdogPhase s = { s with rxIdleTicks := n } ∧ IdleAtMost 0 { s with rxIdleTicks := n } := by
  rcases watchdogPhase_cases s with ⟨h' | h' | h', e⟩ | ⟨-, -, -, -, ⟨-, h', -, -⟩ | ⟨-, h', -, -⟩ | ⟨-, e⟩⟩
  · exact ⟨s.rxIdleTicks, e, fun k hk => by cases h'.symm.trans hk⟩
  · exact absurd h.faulted h'
  · cases h'.symm.trans h.initDone
  · cases h'.symm.trans hr
  · cases h'.symm.trans hr
  · exact ⟨0, e, fun _ _ => Nat.le_refl 0⟩

/-- A pause of less than a bit-period does not let a watchdog run out, whatever its length is (R157). -/
theorem watchdogPhase_pause {m : Nat} (h : Attends c s) (hw : c.wf) (hidle : IdleAtMost m s)
    (hm : m + 1 < c.ticksPerBit) :
    ∃ n, watchdogPhase s = { s with rxIdleTicks := n } ∧ IdleAtMost (m + 1) { s with rxIdleTicks := n } := by
  obtain rfl := h.cfg
  rcases watchdogPhase_cases s with ⟨h' | h' | h', e⟩ | ⟨k, hk, -, -, ⟨-, -, hle, -⟩ | ⟨-, -, -, e⟩ | ⟨-, e⟩⟩
  · exact ⟨s.rxIdleTicks, e, fun k hk => by cases h'.symm.trans hk⟩
  · exact absurd h.faulted h'
  · cases h'.symm.trans h.initDone
  · obtain ⟨-, -, hdog⟩ := hw
    have hpos : 0 < k := Nat.pos_of_ne_zero fun h0 => hdog (h0 ▸ hk)
    have hlong := Nat.le_mul_of_pos_left s.cfg.ticksPerBit hpos
    have hshort := hidle k hk
    omega
  · exact ⟨_, e, fun k hk => Nat.succ_le_succ (hidle k hk)⟩
  · exact ⟨0, e, fun _ _ => Nat.zero_le _⟩

/-! ## A tick of an end that attends -/

/-- Neither the consumer nor the TX engine has anything to do, so a tick is phase 4 and then the watchdog. -/
theorem Attends.tick {v : Level} (h : Attends c s) (h4 : rxPhase (sensed v s) = .next u) (hu : Attends c u) :
    Tick idleDrive (.driven v) s (endTick (watchdogPhase u)) := by
  have h5 : consumerPhase u = .next u := by simp [consumerPhase, hu.txActive, hu.consumer]
  have ht := Tick.of_phases h.faulted (txDrive_idle h.initDone h.txActive) h4 h5
  rw [hu.txActive] at ht
  simpa [afterConsumer, txPhase] using ht

/-! ## The pauses -/

/-- While the line is at 0 for less than a bit-period, an end at rest stays as it is (R170, R172). -/
theorem Attends.pauses {n m : Nat} (h : Attends c s) (hr : Rests s) (hw : c.wf) (hidle : IdleAtMost m s)
    (hm : m + n < c.ticksPerBit) :
    ∃ t, Hears (holdLevel false n) s t ∧ lasting t = lasting s ∧ Rests t := by
  induction n generalizing s m with
  | zero => exact ⟨s, rfl, rfl, hr⟩
  | succ n ih =>
    have hs : Attends c (sensed idleLevel s) := h.of_lasting rfl
    have ht := h.tick (rxPhase_sensed_idle hr.rxActive hr.edgePend) hs
    obtain ⟨i, e, hi⟩ := watchdogPhase_pause (m := m) hs hw hidle (by omega)
    rw [e] at ht
    obtain ⟨t, ht', hl, hr'⟩ := ih (s := endTick { sensed idleLevel s with rxIdleTicks := i }) (m := m + 1)
      (hs.of_lasting rfl) ⟨hr.rxActive, by simp [sensed, hr.edgePend, idleLevel], rfl⟩ hi (by omega)
    exact ⟨t, Along.append (.single ht) ht', hl.trans rfl, hr'⟩

/-! ## The receive -/

/-- A receive of the byte `b` under way: `k` of its bits are sampled, and the wait is `n` ticks more. `s₀` is what the
end held when the receive began. -/
structure Receiving (s₀ : State) (b : Byte) (k n : Nat) (s : State) : Prop where
  lasts : lasting s = lasting s₀
  rxActive : s.rxActive = true
  rxBit : s.rxBit = k
  rxTimer : s.rxTimer = n
  rxAcc : ∀ j, j < k → s.rxAcc.getLsbD j = b.getLsbD j
  idle : IdleAtMost 0 s

variable {b : Byte} {k n : Nat}

/-- A receive goes on from what phase 4 leaves of it: the watchdog is at rest. -/
theorem Receiving.after_phases {v : Level} (h₀ : Attends c s₀) (h : Attends c s) (h4 : rxPhase (sensed v s) = .next u)
    (hl : lasting u = lasting s₀) (ha : u.rxActive = true) (hb : u.rxBit = k) (hn : u.rxTimer = n)
    (hacc : ∀ j, j < k → u.rxAcc.getLsbD j = b.getLsbD j) :
    ∃ t, Hears [.driven v] s t ∧ Receiving s₀ b k n t := by
  have hu : Attends c u := h₀.of_lasting hl
  obtain ⟨i, e, hi⟩ := watchdogPhase_receiving hu ha
  have ht := h.tick h4 hu
  rw [e] at ht
  exact ⟨_, .single ht, hl, ha, hb, hn, hacc, hi⟩

/-- The start bit's edge is taken in its own tick, and the first wait is 1.5 bit-periods (R172, R174). -/
theorem Receiving.start (hc : Prompt c) (h : Attends c s) (hr : Rests s) (hl : s.listening) (b : Byte) :
    ∃ t, Hears [.driven true] s t ∧ Receiving s b 0 (3 * c.ticksPerBit / 2) t := by
  obtain rfl := h.cfg
  have hlat : (sensed true s).cfg.rxLatencyMax = 0 := hc.latency
  have hstr : s.cfg.rxStretchMax = 0 := hc.stretch
  have h4 : rxPhase (sensed true s) = .next (handlerStart { sensed true s with rxWaited := 0 }) := by
    rw [← handlerEntry_start { sensed true s with rxWaited := 0 } hl,
      show handlerEntry { sensed true s with rxWaited := 0 } = waitOrActivate (sensed true s) by
        simp [waitOrActivate, takesEdge, afterEdgeDraw, hlat]]
    simp [rxPhase, sensed, isFaulted, h.faulted, hr.rxActive, hr.rxPrev, h.edgeIE, h.initDone]
  exact Receiving.after_phases h h h4 (by simp [lasting, sensed]) rfl rfl (by simp [sensed, hstr])
    fun j hj => absurd hj (Nat.not_lt_zero j)

/-- The wait goes on for one tick, whatever the line carries (R175). -/
theorem Receiving.counts (h₀ : Attends c s₀) (h : Receiving s₀ b k (n + 2) s) (v : Level) :
    ∃ t, Hears [.driven v] s t ∧ Receiving s₀ b k (n + 1) t := by
  have hs := h₀.of_lasting h.lasts
  have h4 := rxPhase_counts (s := sensed v s) (n := n) hs.faulted h.rxActive h.rxTimer
  exact Receiving.after_phases h₀ hs h4 h.lasts h.rxActive h.rxBit rfl h.rxAcc

/-- The wait goes on for some ticks. -/
theorem Receiving.waits {m : Nat} (h₀ : Attends c s₀) (h : Receiving s₀ b k (m + n + 1) s) (v : Level) :
    ∃ t, Hears (holdLevel v m) s t ∧ Receiving s₀ b k (n + 1) t := by
  induction m generalizing s with
  | zero => exact ⟨s, rfl, by simpa using h⟩
  | succ m ih =>
    obtain ⟨u, hu, hu'⟩ := Receiving.counts (n := m + n) h₀ (by rwa [show m + n + 2 = m + 1 + n + 1 by omega]) v
    obtain ⟨t, ht, ht'⟩ := ih hu'
    exact ⟨t, Along.append hu ht, ht'⟩

/-- At the end of a wait the bit on the line is sampled, and the next wait is one bit-period (R115, R175). -/
theorem Receiving.samples (hc : Prompt c) (h₀ : Attends c s₀) (h : Receiving s₀ b k 1 s) (hk : k < 8) :
    ∃ t, Hears [.driven (b.getLsbD k)] s t ∧ Receiving s₀ b (k + 1) c.ticksPerBit t := by
  have hs := h₀.of_lasting h.lasts
  have h4 := rxPhase_samples (s := sensed (b.getLsbD k) s) hs.faulted h.rxActive h.rxTimer (by
    rw [← h.rxBit] at hk; exact hk)
  obtain rfl := hs.cfg
  have hstr : s.cfg.rxStretchMax = 0 := hc.stretch
  refine Receiving.after_phases h₀ hs h4 ?_ h.rxActive (congrArg (· + 1) h.rxBit) (by simp [sensed, hstr]) ?_
  · rw [← h.lasts]
    simp [lasting, sensed, takeSample]
  · intro j hj
    rw [takeSample_rxAcc, putBit_getLsbD _ _ _ _ (by omega)]
    have hbit : (sensed (b.getLsbD k) s).rxBit = k := h.rxBit
    simp only [hbit]
    split
    · next e => rw [e]; rfl
    · exact h.rxAcc j (by omega)

/-- One data cell: half of it is waited for, its bit is sampled, and the rest of it belongs to the next wait (R116). -/
theorem Receiving.cell (hc : Prompt c) (h₀ : Attends c s₀) (h : Receiving s₀ b k (c.ticksPerBit / 2 + 1) s)
    (hk : k < 8) :
    ∃ t, Hears (holdLevel (b.getLsbD k) c.ticksPerBit) s t ∧ Receiving s₀ b (k + 1) (c.ticksPerBit / 2 + 1) t := by
  obtain ⟨heven, htwo, -⟩ := hc.wf
  obtain ⟨u, hu, hu'⟩ := Receiving.waits (n := 0) h₀ h (b.getLsbD k)
  obtain ⟨v, hv, hv'⟩ := hu'.samples hc h₀ hk
  rw [show c.ticksPerBit = (c.ticksPerBit / 2 - 1) + c.ticksPerBit / 2 + 1 by omega] at hv'
  obtain ⟨t, ht, ht'⟩ := hv'.waits h₀ (b.getLsbD k)
  refine ⟨t, ?_, ht'⟩
  rw [holdLevel_cut (b.getLsbD k) (m := c.ticksPerBit / 2) (n := c.ticksPerBit / 2 - 1) (by omega)]
  exact hu.append (hv.append ht)

/-- The data cells in their order (R61, R83). -/
theorem Receiving.cells (hc : Prompt c) (h₀ : Attends c s₀) (h : Receiving s₀ b 0 (c.ticksPerBit / 2 + 1) s)
    (hk : k ≤ 8) :
    ∃ t, Hears (((List.range k).map fun j => b.getLsbD j).flatMap fun v => holdLevel v c.ticksPerBit) s t
      ∧ Receiving s₀ b k (c.ticksPerBit / 2 + 1) t := by
  induction k with
  | zero => exact ⟨s, rfl, h⟩
  | succ k ih =>
    obtain ⟨u, hu, hu'⟩ := ih (by omega)
    obtain ⟨t, ht, ht'⟩ := hu'.cell hc h₀ (by omega)
    refine ⟨t, ?_, ht'⟩
    simpa [List.range_succ] using hu.append ht

/-- The start cell: the edge is taken, and the wait that follows reaches into the first data cell. -/
theorem Receiving.startCell (hc : Prompt c) (h : Attends c s) (hr : Rests s) (hl : s.listening) (b : Byte) :
    ∃ t, Hears (holdLevel true c.ticksPerBit) s t ∧ Receiving s b 0 (c.ticksPerBit / 2 + 1) t := by
  obtain ⟨heven, htwo, -⟩ := hc.wf
  obtain ⟨u, hu, hu'⟩ := Receiving.start hc h hr hl b
  rw [show 3 * c.ticksPerBit / 2 = (c.ticksPerBit - 1) + c.ticksPerBit / 2 + 1 by omega] at hu'
  obtain ⟨t, ht, ht'⟩ := hu'.waits h true
  refine ⟨t, ?_, ht'⟩
  rw [holdLevel_cut true (m := 0) (n := c.ticksPerBit - 1) (by omega)]
  exact hu.append ht

/-! ## The completion -/

/-- The byte that eight samples have made. -/
theorem Receiving.byte (h : Receiving s₀ b 8 n s) : s.rxAcc = b :=
  BitVec.eq_of_getLsbD_eq h.rxAcc

/-- A class of received byte leaves an end that attends and rests as such. -/
theorem exec_classify_attends (h : Attends c s) (hr : Rests s) (hx : exec (classify b) s = .next u) :
    Attends c u ∧ Rests u := by
  refine rxComplete_keeps (fun u => Attends c u ∧ Rests u) s u b h.faulted ⟨h, hr⟩ ?stx ?fits ?full ?drop ?data
    ?overflow hx
  case stx => exact fun _ => ⟨{ h with }, { hr with }⟩
  case fits => exact fun _ _ => ⟨{ h with }, { hr with }⟩
  case full => exact fun _ _ => ⟨{ h with }, { hr with }⟩
  case drop => exact fun _ => ⟨{ h with }, { hr with }⟩
  case data => exact fun _ _ _ => ⟨{ h with }, { hr with }⟩
  case overflow => exact fun _ _ _ => ⟨{ h with }, { hr with }⟩

/-- What a class of received byte does to a watchdog's count: nothing. -/
theorem exec_classify_idle (h : s.faulted = none) (hidle : IdleAtMost n s) (hx : exec (classify b) s = .next u) :
    IdleAtMost n u :=
  rxComplete_keeps (IdleAtMost n) s u b h hidle (fun _ => hidle) (fun _ _ => hidle) (fun _ _ => hidle)
    (fun _ => hidle) (fun _ _ _ => hidle) (fun _ _ _ => hidle) hx

/-- A class of received byte completes. -/
theorem exec_classify_completes (b : Byte) (h : s.faulted = none) : ∃ u, exec (classify b) s = .next u := by
  rcases exec_classify_cases b s h with ⟨-, e⟩ | ⟨-, -, e⟩ | ⟨-, -, e⟩ | ⟨-, -, -, e⟩ | ⟨-, -, -, e⟩ <;>
    exact ⟨_, e⟩

/-- From `s` to `t` a frame of the byte `b` was received: the byte's class has run once, on a state that holds the same
message as `s`, and the end rests again (R176, R178, R189). -/
structure Received (c : Config) (b : Byte) (s t : State) : Prop where
  ran : ∃ r u, lasting r = lasting s ∧ exec (classify b) r = .next u ∧ lasting t = lasting u
  attends : Attends c t
  rests : Rests t

/-- At the end of the last wait, with the line at 0, the handler returns and the byte's class runs (R176, R185). -/
theorem Receiving.completes (hc : Prompt c) (h₀ : Attends c s₀) (h : Receiving s₀ b 8 1 s) :
    ∃ t, Hears [.driven false] s t ∧ Received c b s₀ t ∧ IdleAtMost 1 t := by
  have hs := h₀.of_lasting h.lasts
  obtain ⟨r, hr⟩ : ∃ r, r = handlerReturn { sensed false s with rxTimer := 0 } := ⟨_, rfl⟩
  have hrl : lasting r = lasting s₀ := hr ▸ h.lasts
  have hrA : Attends c r := h₀.of_lasting hrl
  have hrR : Rests r := by rw [hr]; exact ⟨rfl, rfl, rfl⟩
  have hri : IdleAtMost 0 r := hr ▸ h.idle
  obtain ⟨u, hu⟩ := exec_classify_completes b hrA.faulted
  obtain ⟨huA, huR⟩ := exec_classify_attends hrA hrR hu
  have h4 : rxPhase (sensed false s) = .next u := by
    rw [rxPhase_completes_receive (s := sensed false s) hs.faulted h.rxActive h.rxTimer h.rxBit, ← hr, ← hu]
    exact congrArg (fun b => exec (classify b) r) h.byte
  have ht := hs.tick h4 huA
  obtain ⟨-, htwo, -⟩ := hc.wf
  obtain ⟨i, e, hi⟩ := watchdogPhase_pause huA hc.wf (exec_classify_idle hrA.faulted hri hu) (by omega)
  rw [e] at ht
  exact ⟨_, .single ht, ⟨⟨r, u, hrl, hu, rfl⟩, huA.of_lasting rfl, { huR with }⟩, hi⟩

/-- The stop cell: halfway through it the receive completes, and for its other half the end rests. -/
theorem Receiving.stopCell (hc : Prompt c) (h₀ : Attends c s₀) (h : Receiving s₀ b 8 (c.ticksPerBit / 2 + 1) s) :
    ∃ t, Hears (holdLevel false c.ticksPerBit) s t ∧ Received c b s₀ t := by
  obtain ⟨heven, htwo, -⟩ := hc.wf
  obtain ⟨v, hv, hv'⟩ := Receiving.waits (n := 0) h₀ h false
  obtain ⟨w, hw, ⟨⟨r, u, hr, hu, hwl⟩, hwA, hwR⟩, hidle⟩ := hv'.completes hc h₀
  obtain ⟨t, ht, htl, htR⟩ := hwA.pauses (n := c.ticksPerBit / 2 - 1) hwR hc.wf hidle (by omega)
  refine ⟨t, ?_, ⟨r, u, hr, hu, htl.trans hwl⟩, hwA.of_lasting htl, htR⟩
  rw [holdLevel_cut false (m := c.ticksPerBit / 2) (n := c.ticksPerBit / 2 - 1) (by omega)]
  exact hv.append (hw.append ht)

/-! ## The frame -/

/-- The levels of a byte's frame: the start bit, the data bits from bit 0 on, the stop bit (R82, R83). -/
theorem wireBits_of_encodeByte (b : Byte) :
    wireBits (encodeByte b) = true :: ((List.range 8).map (fun j => b.getLsbD j) ++ [false]) := by
  have hstart : (encodeByte b).getLsbD 0 = true := by rw [encodeByte, BitVec.getLsbD_append]; rfl
  have hstop : (encodeByte b).getLsbD 9 = false := by
    rw [encodeByte, BitVec.getLsbD_append, BitVec.getLsbD_append]; rfl
  have hdata (j : Nat) (hj : j ∈ List.range 8) : (encodeByte b).getLsbD (j + 1) = b.getLsbD j := by
    have hj : j < 8 := List.mem_range.1 hj
    rw [encodeByte, BitVec.getLsbD_append, BitVec.getLsbD_append]
    simp [hj]
  rw [wireBits, frameBits, List.range_succ_eq_map, List.range_succ, ← List.map_congr_left hdata]
  simp only [List.map_cons, List.map_append, List.map_map, List.map_nil, Function.comp_def, Nat.succ_eq_add_one,
    Nat.reduceAdd, hstart, hstop]

/-- A frame that comes to an end at rest is received: the byte sent is the byte whose class runs (R116, R176). -/
theorem Attends.hears_frame (hc : Prompt c) (h : Attends c s) (hr : Rests s) (hl : s.listening) (b : Byte) :
    ∃ t, Hears (frameWave c.ticksPerBit (encodeByte b)) s t ∧ Received c b s t := by
  obtain ⟨u, hu, hu'⟩ := Receiving.startCell hc h hr hl b
  obtain ⟨v, hv, hv'⟩ := hu'.cells hc h (Nat.le_refl 8)
  obtain ⟨t, ht, ht'⟩ := hv'.stopCell hc h
  refine ⟨t, ?_, ht'⟩
  have hcut : frameWave c.ticksPerBit (encodeByte b) = holdLevel true c.ticksPerBit
      ++ ((((List.range 8).map fun j => b.getLsbD j).flatMap fun v => holdLevel v c.ticksPerBit)
      ++ holdLevel false c.ticksPerBit) := by
    simp only [frameWave, wireBits_of_encodeByte, List.flatMap_cons, List.flatMap_append, List.flatMap_nil,
      List.append_nil]
  rw [hcut]
  exact hu.append (hv.append ht)

end Sys2Proof.Machine
end

section
/-! A message over a dedicated link (R62, R117, R139, R179, R180, R182, R203).

The receiving end takes the frames of a message one after the other, in each of which the byte's class runs once; the
sending end sends exactly these frames. `Collecting` is what the receiving end holds between two of them. -/

namespace Sys2Proof.Machine

variable {s t r u : State} {c : Config} {rs : List Result} {l : List Byte} {b : Byte}

/-! ## The classes of a message's bytes -/

/-- The class of the start marker (R179). -/
theorem exec_classify_stx (hf : s.faulted = none) : exec (classify stx) s = .next (rxStx s) := by
  rcases exec_classify_cases stx s hf with ⟨-, e⟩ | ⟨h, -⟩ | ⟨h, -⟩ | ⟨h, -⟩ | ⟨h, -⟩
  · exact e
  · exact absurd h (by decide)
  · exact absurd h (by decide)
  · exact absurd rfl h
  · exact absurd rfl h

/-- The class of the end marker within a message (R180). -/
theorem exec_classify_etx (hf : s.faulted = none) (hs : s.startSeen = true) :
    exec (classify etx) s = .next (rxEtx s) := by
  rcases exec_classify_cases etx s hf with ⟨h, -⟩ | ⟨-, -, e⟩ | ⟨-, h, -⟩ | ⟨-, h, -⟩ | ⟨-, h, -⟩
  · exact absurd h (by decide)
  · exact e
  · cases hs.symm.trans h
  · exact absurd rfl h
  · exact absurd rfl h

/-- The class of a payload byte within a message (R182). -/
theorem exec_classify_payload (hf : s.faulted = none) (hs : s.startSeen = true) (hb : b ≠ stx ∧ b ≠ etx) :
    exec (classify b) s = .next (rxData b s) := by
  obtain ⟨hstx, hetx⟩ := hb
  rcases exec_classify_cases b s hf with ⟨h, -⟩ | ⟨h, -⟩ | ⟨h, -⟩ | ⟨-, -, -, e⟩ | ⟨-, -, h, -⟩
  · exact absurd h hstx
  · exact absurd h hetx
  · exact absurd h hetx
  · exact e
  · cases hs.symm.trans h

/-! ## What the receiving end holds -/

/-- The slots from 0 on hold these bytes, and `CURSOR` is behind them (R31, R32). -/
structure Stores (l : List Byte) (s : State) : Prop where
  cursor : s.cursor = l.length
  slots : ∀ i b, l[i]? = some b → slotRead s.buf i = some b

theorem Stores.of_lasting (h : Stores l s) (hl : lasting t = lasting s) : Stores l t where
  cursor := (congrArg State.cursor hl :).trans h.cursor
  slots i b hi := (congrArg (fun u => slotRead u.buf i) hl :).trans (h.slots i b hi)

/-- A byte pushed at `CURSOR` comes behind the others (R201). -/
theorem Stores.push (h : Stores l s) (b : Byte) :
    Stores (l ++ [b]) { s with buf := slotWrite s.buf s.cursor b, cursor := s.cursor + 1 } where
  cursor := by simp [h.cursor]
  slots i x hi := by
    rw [slotRead_slotWrite, h.cursor]
    rw [List.getElem?_append] at hi
    by_cases hlast : i = l.length
    · simpa [hlast] using hi
    · rw [if_neg hlast]
      split at hi
      · exact h.slots i x hi
      · rw [List.getElem?_eq_none (by simp; omega)] at hi
        cases hi

/-- A message of which these bytes have come. -/
structure Collecting (rs : List Result) (l : List Byte) (s : State) : Prop where
  link : s.link = .rxInProgress
  startSeen : s.startSeen = true
  results : s.results = rs
  stores : Stores l s

theorem Collecting.of_lasting (h : Collecting rs l s) (hl : lasting t = lasting s) : Collecting rs l t where
  link := (congrArg State.link hl :).trans h.link
  startSeen := (congrArg State.startSeen hl :).trans h.startSeen
  results := (congrArg State.results hl :).trans h.results
  stores := h.stores.of_lasting hl

/-- A whole message with its terminator is in the buffer (R43, R180). -/
structure Delivered (rs : List Result) (l : List Byte) (s : State) : Prop where
  link : s.link = .idle
  dataAvail : s.dataAvail = true
  results : s.results = rs
  stores : Stores (l ++ [s.cfg.terminator]) s

theorem Delivered.of_lasting (h : Delivered rs l s) (hl : lasting t = lasting s) : Delivered rs l t where
  link := (congrArg State.link hl :).trans h.link
  dataAvail := (congrArg State.dataAvail hl :).trans h.dataAvail
  results := (congrArg State.results hl :).trans h.results
  stores := by
    have hcfg : t.cfg = s.cfg := (congrArg State.cfg hl :)
    rw [hcfg]
    exact h.stores.of_lasting hl

/-! ## One frame of a message -/

/-- What a received frame's class `f` does to the message is all that lasts of the frame. -/
theorem Received.lasts {f : State → State} (h : Received c b s t) (hf : s.faulted = none)
    (hx : ∀ r, lasting r = lasting s → r.faulted = none → exec (classify b) r = .next (f r)) :
    ∃ r, lasting r = lasting s ∧ lasting t = lasting (f r) := by
  obtain ⟨r, u, hr, hu, ht⟩ := h.ran
  have hrf : r.faulted = none := (congrArg State.faulted hr :).trans hf
  rw [hx r hr hrf] at hu
  injection hu with hu
  exact ⟨r, hr, ht.trans (congrArg lasting hu.symm)⟩

/-- RX_STX empties the buffer and begins a message (R179). -/
theorem Collecting.rxStx (s : State) : Collecting s.results [] (rxStx s) :=
  ⟨rfl, rfl, rfl, rfl, fun i b hi => by simp at hi⟩

/-- RX_DATA stores the byte behind the others while there is room (R182). -/
theorem Collecting.rxData (h : Collecting rs l s) (hroom : l.length < s.cfg.rxCapacity) (b : Byte) :
    Collecting rs (l ++ [b]) (rxData b s) := by
  rw [rxData_fits b s (h.stores.cursor ▸ hroom)]
  exact ⟨h.link, h.startSeen, h.results, h.stores.push b⟩

/-- RX_ETX stores the terminator and delivers the message while there is room (R180). -/
theorem Collecting.rxEtx (h : Collecting rs l s) (hroom : l.length < s.cfg.rxCapacity) :
    Delivered rs l (rxEtx s) := by
  have hpush := h.stores.push s.cfg.terminator
  rw [rxEtx_fits s (h.stores.cursor ▸ hroom)]
  exact ⟨rfl, rfl, h.results, hpush.cursor, hpush.slots⟩

/-- The start marker begins a message, whatever the end held. -/
theorem Received.startMarker (h : Received c stx s t) (hf : s.faulted = none) : Collecting s.results [] t := by
  obtain ⟨r, hr, ht⟩ := h.lasts hf fun r _ hrf => exec_classify_stx hrf
  have hres : r.results = s.results := (congrArg State.results hr :)
  exact hres ▸ (Collecting.rxStx r).of_lasting ht

/-- A payload byte of a message is stored. -/
theorem Received.payload (h : Received c b s t) (hs : Attends c s) (hl : Collecting rs l s) (hb : b ≠ stx ∧ b ≠ etx)
    (hroom : l.length < c.rxCapacity) : Collecting rs (l ++ [b]) t := by
  obtain ⟨r, hr, ht⟩ := h.lasts hs.faulted fun r hr hrf => exec_classify_payload hrf (hl.of_lasting hr).startSeen hb
  exact ((hl.of_lasting hr).rxData ((hs.of_lasting hr).cfg ▸ hroom) b).of_lasting ht

/-- The end marker delivers the message. -/
theorem Received.endMarker (h : Received c etx s t) (hs : Attends c s) (hl : Collecting rs l s)
    (hroom : l.length < c.rxCapacity) : Delivered rs l t := by
  obtain ⟨r, hr, ht⟩ := h.lasts hs.faulted fun r hr hrf => exec_classify_etx hrf (hl.of_lasting hr).startSeen
  exact ((hl.of_lasting hr).rxEtx ((hs.of_lasting hr).cfg ▸ hroom)).of_lasting ht

/-! ## The frames of a message -/

/-- The payload is received byte by byte (R62, R117). -/
theorem Collecting.hears_payload (hc : Prompt c) {msg : List Byte} (h : Attends c s) (hr : Rests s)
    (hl : Collecting rs l s) (hmsg : ∀ b, b ∈ msg → b ≠ stx ∧ b ≠ etx)
    (hroom : l.length + msg.length ≤ c.rxCapacity) :
    ∃ t, Hears (framesWave c.ticksPerBit (msg.map encodeByte)) s t ∧ Attends c t ∧ Rests t
      ∧ Collecting rs (l ++ msg) t := by
  induction msg generalizing l s with
  | nil => exact ⟨s, rfl, h, hr, by simpa using hl⟩
  | cons b msg ih =>
    rw [List.length_cons] at hroom
    obtain ⟨u, hu, hgot⟩ := h.hears_frame hc hr (.inr hl.link) b
    have hlu := hgot.payload h hl (hmsg b (by simp)) (by omega)
    obtain ⟨t, ht, htA, htR, hlt⟩ := ih hgot.attends hgot.rests hlu (fun x hx => hmsg x (by simp [hx]))
      (by rw [List.length_append, List.length_singleton]; omega)
    refine ⟨t, ?_, htA, htR, by simpa using hlt⟩
    simpa [framesWave] using hu.append ht

/-- A message that fits, with its markers, is delivered (R117, R180). -/
theorem Attends.hears_message (hc : Prompt c) {msg : List Byte} (h : Attends c s) (hr : Rests s) (hl : s.listening)
    (hmsg : ∀ b, b ∈ msg → b ≠ stx ∧ b ≠ etx) (hroom : msg.length + 1 ≤ c.rxCapacity) :
    ∃ t, Hears (framesWave c.ticksPerBit (([stx] ++ msg ++ [etx]).map encodeByte)) s t ∧ Attends c t ∧ Rests t
      ∧ Delivered s.results msg t := by
  obtain ⟨u, hu, hstx⟩ := h.hears_frame hc hr hl stx
  have hcoll := hstx.startMarker h.faulted
  obtain ⟨v, hv, hvA, hvR, hlv⟩ := hcoll.hears_payload hc hstx.attends hstx.rests hmsg (by simp; omega)
  obtain ⟨t, ht, hetx⟩ := hvA.hears_frame hc hvR (.inr hlv.link) etx
  refine ⟨t, ?_, hetx.attends, hetx.rests, hetx.endMarker hvA hlv hroom⟩
  simpa [framesWave] using hu.append (hv.append ht)

/-- READ_AND_CLEAR returns a delivered message without its terminator (R203). -/
theorem Delivered.read (h : Delivered rs l s) (hready : s.ready) (hroom : l.length ≤ s.cfg.rxCapacity) :
    ∃ w, exec .readAndClear s = .next w ∧ w.results = rs ++ [.bytes l] := by
  have hlen : payloadLength s = l.length := by simp [payloadLength, h.dataAvail, h.stores.cursor]
  have hbytes : (List.range l.length).map (slotValue s) = l := by
    refine List.ext_getElem (by simp) fun i hi hil => ?_
    rw [List.getElem_map, List.getElem_range]
    exact slotValue_written s i _ (h.stores.slots i _ (by simp [List.getElem?_append_left hil]))
  rw [exec_readAndClear_ready hready, runReadAndClear_of_le (hlen ▸ hroom), hlen, hbytes]
  exact ⟨_, rfl, by simp [h.results]⟩

/-! ## The whole link -/

/-- In a tick in which the line is at 0, an end that attends with no receive under way comes to rest, whatever the line
was before; a watchdog may end an old message in it (R157, R170). -/
theorem Attends.settles (h : Attends c s) (hr : s.rxActive = false) (he : s.edgePend = false) (hl : s.listening) :
    ∃ t, Hears [idleDrive] s t ∧ Attends c t ∧ Rests t ∧ t.listening ∧ t.results = s.results := by
  have hs : Attends c (sensed idleLevel s) := h.of_lasting rfl
  have ht := h.tick (rxPhase_sensed_idle hr he) hs
  have hrest : Rests (sensed idleLevel s) := ⟨hr, by simp [sensed, he, idleLevel], rfl⟩
  refine ⟨_, .single ht, ?_⟩
  rcases watchdogPhase_cases (sensed idleLevel s) with
    ⟨-, e⟩ | ⟨-, -, -, -, ⟨-, -, -, e⟩ | ⟨-, -, -, e⟩ | ⟨-, e⟩⟩ <;> rw [e]
  · exact ⟨{ hs with }, { hrest with }, hl, rfl⟩
  · exact ⟨{ hs with }, { hrest with }, .inl rfl, rfl⟩
  · exact ⟨{ hs with }, { hrest with }, hl, rfl⟩
  · exact ⟨{ hs with }, { hrest with }, hl, rfl⟩

/-- The frames of a message that is not truncated (R132, R135). -/
theorem sendFrames_of_le (msg : List Byte) (h : msg.length ≤ c.maxTransmitLen) :
    sendFrames c msg = ([stx] ++ msg ++ [etx]).map encodeByte := by
  simp [sendFrames, sendBody, Nat.min_eq_left h]

/-- How long frames last, back to back (R139). -/
theorem framesWave_length (p : Nat) (frames : List Frame) : (framesWave p frames).length = 10 * p * frames.length := by
  have hframe (f : Frame) : (frameWave p f).length = 10 * p := by
    simp [frameWave, holdLevel, wireBits, frameBits, List.length_flatMap, Function.comp_def]
    omega
  induction frames with
  | nil => rfl
  | cons f frames ih =>
    rw [framesWave, List.flatMap_cons, List.length_append, hframe, List.length_cons]
    rw [framesWave] at ih
    rw [ih, Nat.mul_succ, Nat.add_comm]

/-- Settles O60: the wave that A's SEND emits is the one from which B takes the message, so the pair runs along it
(`Pair.run_of_emits`), after the one tick in which the SEND is admitted. -/
theorem messageCrossesTheLink : Obligations.MessageCrossesTheLink := by
  intro y msg rest htop hwfA hwfB hP hstrA hgap hlat hstrB hreadyA hlinkA hedgeA htxA hconsA hreadyB hlistenB hieB
    hedgeB htxB hconsB hmsg hlen hroom
  obtain ⟨hfB, hiB, hrB⟩ := hreadyB
  have hprompt : Prompt y.b.cfg := ⟨hwfB, hlat, hstrB⟩
  have hattends : Attends y.b.cfg y.b := ⟨hfB, hiB, hieB, htxB, hconsB, rfl⟩
  obtain ⟨a₁, ha₁, hsend⟩ := Sending.start hreadyA hlinkA hedgeA htxA hstrA hconsA
  obtain ⟨b₁, hb₁, hattends₁, hrest₁, hlisten₁, hresults₁⟩ := hattends.settles hrB hedgeB hlistenB
  obtain ⟨b₂, hb₂, hattends₂, hrest₂, hdel⟩ := hattends₁.hears_message hprompt hrest₁ hlisten₁ hmsg hroom
  rw [sendFrames_of_le msg hlen] at hsend
  obtain ⟨a₂, ha₂, hsent⟩ := hsend.emits_frames hstrA hgap
    (show y.a.cfg.ticksPerBit = (y.a.cfg.ticksPerBit - 1) + 1 by obtain ⟨-, htwo, -⟩ := hwfA; omega)
  have hrun := Pair.run_of_emits htop (ha₁.append ha₂) (hb₁.append (hP ▸ hb₂))
  obtain ⟨w, hw, hres⟩ := hdel.read ⟨hattends₂.faulted, hattends₂.initDone, hrest₂.rxActive⟩
    (by rw [hattends₂.cfg]; omega)
  have hframes : (([stx] ++ msg ++ [etx]).map encodeByte).length = msg.length + 2 := by simp
  have hticks : ([idleDrive] ++ framesWave y.a.cfg.ticksPerBit (([stx] ++ msg ++ [etx]).map encodeByte)).length
      = 10 * y.a.cfg.ticksPerBit * (msg.length + 2) + 1 := by
    rw [List.length_append, framesWave_length, hframes, List.length_singleton, Nat.add_comm]
  refine ⟨⟨a₂, b₂⟩, w, hticks ▸ hrun, hsent.txActive, hsent.link, hsent.consumer, hdel.dataAvail, hdel.link, hw,
    hres.trans (by rw [hresults₁])⟩

end Sys2Proof.Machine
end

section
/-! The two encodings: frames and command words (R61, R80 to R85, R88 to R90, R222).

A frame is read through its byte alone: the masks of the two marker rows keep bits 8:1, so each compares `frameByte`
with a marker, and `frameByte` undoes `encodeByte`. A command word is either the word of one operation or illegal
(`decode_command_cases`). -/

namespace Sys2Proof.Machine

/-! ## The frame as sent -/

/-- The level at a place in time is the bit at that place in the word (R61, R83). -/
theorem wireBits_getElem? (raw : Frame) (j : Nat) (hj : j < 10) : (wireBits raw)[j]? = some (raw.getLsbD j) := by
  rw [wireBits, frameBits, List.getElem?_map, List.getElem?_range hj, Option.map_some]

/-- The start bit is 1 (R82). -/
theorem encodeByte_getLsbD_zero (b : Byte) : (encodeByte b).getLsbD 0 = true := by
  have h := wireBits_getElem? (encodeByte b) 0 (by decide)
  simpa [wireBits_of_encodeByte] using h.symm

/-- The data bits (R82). -/
theorem encodeByte_getLsbD_succ (b : Byte) (k : Nat) (hk : k < 8) : (encodeByte b).getLsbD (k + 1) = b.getLsbD k := by
  have h := wireBits_getElem? (encodeByte b) (k + 1) (by omega)
  simpa [wireBits_of_encodeByte, List.getElem?_append, hk] using h.symm

/-- The stop bit is 0 (R82). -/
theorem encodeByte_getLsbD_nine (b : Byte) : (encodeByte b).getLsbD 9 = false := by
  have h := wireBits_getElem? (encodeByte b) 9 (by decide)
  simpa [wireBits_of_encodeByte] using h.symm

/-- The frame as sent has the value R85's table gives it. -/
theorem encodeByte_toNat (b : Byte) : (encodeByte b).toNat = 2 * b.toNat + 1 := by
  rw [encodeByte, BitVec.toNat_append, BitVec.toNat_append, ← Nat.shiftLeft_add_eq_or_of_lt (by decide)]
  simp [Nat.shiftLeft_eq, Nat.mul_comm]

/-! ## The byte that is read -/

/-- What is read of a frame is its bits 8:1 (R84). -/
theorem frameByte_getLsbD (raw : Frame) (k : Nat) (hk : k < 8) : (frameByte raw).getLsbD k = raw.getLsbD (k + 1) := by
  rw [frameByte, BitVec.getLsbD_extractLsb', Nat.add_comm 1 k]
  simp [hk]

/-- The byte read of a frame as sent is the byte sent (R82, R84). -/
@[simp] theorem frameByte_encodeByte (b : Byte) : frameByte (encodeByte b) = b :=
  BitVec.eq_of_getLsbD_eq fun k hk => by rw [frameByte_getLsbD _ k hk, encodeByte_getLsbD_succ b k hk]

/-- Two frames hold the same byte exactly when they agree in bits 8:1 (R84). -/
theorem frameByte_eq_iff (raw raw' : Frame) :
    frameByte raw = frameByte raw' ↔ ∀ k, 1 ≤ k → k ≤ 8 → raw.getLsbD k = raw'.getLsbD k := by
  constructor
  · intro h k h1 h8
    have hbit := congrArg (BitVec.getLsbD · (k - 1)) h
    simpa only [frameByte_getLsbD _ (k - 1) (by omega), Nat.sub_add_cancel h1] using hbit
  · intro h
    refine BitVec.eq_of_getLsbD_eq fun k hk => ?_
    rw [frameByte_getLsbD _ k hk, frameByte_getLsbD _ k hk, h (k + 1) (by omega) (by omega)]

/-- The mask of the marker rows keeps bits 8:1 (R85). -/
theorem frameMask_getLsbD (k : Nat) : (0x1FE : Frame).getLsbD k = decide (1 ≤ k ∧ k ≤ 8) := by
  by_cases hk : k < 10
  · interval_cases k <;> rfl
  · rw [BitVec.getLsbD_of_ge _ _ (by omega)]
    exact (decide_eq_false (by omega)).symm

/-- Two frames agree under the mask of the marker rows exactly when they hold the same byte (R84, R85). -/
theorem masked_eq_iff (raw raw' : Frame) : raw &&& 0x1FE = raw' &&& 0x1FE ↔ frameByte raw = frameByte raw' := by
  rw [frameByte_eq_iff]
  constructor
  · intro h k h1 h8
    have hbit := congrArg (BitVec.getLsbD · k) h
    simpa only [BitVec.getLsbD_and, frameMask_getLsbD, h1, h8, and_self, decide_true, Bool.and_true] using hbit
  · intro h
    refine BitVec.eq_of_getLsbD_eq fun k _ => ?_
    rw [BitVec.getLsbD_and, BitVec.getLsbD_and, frameMask_getLsbD]
    by_cases hk : 1 ≤ k ∧ k ≤ 8
    · rw [h k hk.1 hk.2]
    · rw [decide_eq_false hk, Bool.and_false, Bool.and_false]

/-- A frame lies in the row whose match is the byte's frame under the mask exactly when it holds that byte (R85). -/
theorem masked_eq_iff_frameByte_eq (raw : Frame) (b : Byte) :
    raw &&& 0x1FE = encodeByte b &&& 0x1FE ↔ frameByte raw = b := by
  rw [masked_eq_iff, frameByte_encodeByte]

/-- The match and mask rows decide by the byte, in the order of CLASSIFY (R85, R178). -/
theorem decodeFrame_eq_classify (raw : Frame) : decodeFrame raw = classify (frameByte raw) := by
  have hstx : raw &&& 0x1FE = 0x004 ↔ frameByte raw = stx := masked_eq_iff_frameByte_eq raw stx
  have hetx : raw &&& 0x1FE = 0x006 ↔ frameByte raw = etx := masked_eq_iff_frameByte_eq raw etx
  simp only [decodeFrame, classify, hstx, hetx]

/-- Every frame decodes, to the class of its byte (R85). -/
theorem decode_frame (raw : Frame) : decode (.frame raw) = .ok (classify (frameByte raw)) := by
  rw [decode, decodeFrame_eq_classify]

/-- A byte's frame decodes to the byte's class (R82, R85). -/
theorem decode_encodeByte (b : Byte) : decode (.frame (encodeByte b)) = .ok (classify b) := by
  rw [decode_frame, frameByte_encodeByte]

/-- A byte that is no marker is data (R85, R86). -/
theorem classify_of_not_isMarker (b : Byte) (h : isMarker b = false) : classify b = .frameData b := by
  obtain ⟨hstx, hetx⟩ : b ≠ stx ∧ b ≠ etx := by simpa [isMarker] using h
  rw [classify, if_neg hstx, if_neg hetx]

/-- Settles O5: a command's word selects it again, and a frame decodes to the class of the byte it was made from, which
for a data byte is FRAME_DATA because a well-formed one is no marker. -/
theorem decodeOfEncode : Obligations.DecodeOfEncode := by
  intro i hi
  cases i with
  | init => rfl
  | send msg => rfl
  | isDataAvailable => rfl
  | readAndClear => rfl
  | clear => rfl
  | disable => rfl
  | enable => rfl
  | frameStx => exact decode_encodeByte stx
  | frameEtx => exact decode_encodeByte etx
  | frameData b =>
    have hb : isMarker b = false := by simpa [Instr.wellFormed] using hi
    rw [encode, decode_encodeByte, classify_of_not_isMarker b hb]

/-- Settles O1: the bits are those of the wire order, and the value is read off the three fields. -/
theorem encodeLaysOutTheFrame : Obligations.EncodeLaysOutTheFrame := fun b =>
  ⟨encodeByte_toNat b, encodeByte_getLsbD_zero b, encodeByte_getLsbD_succ b, encodeByte_getLsbD_nine b⟩

/-- Settles O2: this is the wire order that the receiving end's proof rests on. -/
theorem wireOrderIsLeastSignificantFirst : Obligations.WireOrderIsLeastSignificantFirst := wireBits_of_encodeByte

/-- Settles O3: decoding reads the byte alone (`decode_frame`). -/
theorem startAndStopBitsAreNotRead : Obligations.StartAndStopBitsAreNotRead := by
  intro raw raw' h
  rw [decode_frame, decode_frame, (frameByte_eq_iff raw raw').2 h]

/-- Settles O4: the two sides of R85, for any frame and for the frame as sent. -/
theorem frameDecodeIsClassification : Obligations.FrameDecodeIsClassification := ⟨decode_frame, decode_encodeByte⟩

/-! ## The command word -/

/-- A command word is the word of the operation it decodes to, or it is illegal (R88, R89). -/
theorem decode_command_cases (cmd : CmdWord) (operand : List Byte) :
    (∃ i, decode (.command cmd operand) = .ok i ∧ i.wellFormed = true ∧ commandWord i = cmd
      ∧ 1 ≤ cmd.toNat ∧ cmd.toNat ≤ 7) ∨
    (decode (.command cmd operand) = .error (.illegalCommand cmd) ∧ (cmd = 0x00 ∨ 0x08 ≤ cmd.toNat)) := by
  rw [decode, decodeCommand]
  split_ifs with h1 h2 h3 h4 h5 h6 h7
  case neg => exact .inr ⟨rfl, by bv_omega⟩
  all_goals
    subst cmd
    exact .inl ⟨_, rfl, rfl, rfl, by decide, by decide⟩

/-- Settles O6: the two cases of `decode_command_cases` exclude each other by the word's value. -/
theorem commandWordsAreOneToSeven : Obligations.CommandWordsAreOneToSeven := by
  intro cmd operand
  rcases decode_command_cases cmd operand with ⟨i, hd, hwf, hword, hrange⟩ | ⟨hd, hillegal⟩
  · refine ⟨⟨fun _ => hrange, fun _ => ⟨i, hd⟩⟩, fun j hj => ?_⟩
    obtain rfl : i = j := Except.ok.inj (hd.symm.trans hj)
    exact ⟨hwf, hword⟩
  · have hno (i : Instr) : decode (.command cmd operand) ≠ .ok i := by simp [hd]
    refine ⟨⟨fun ⟨i, hi⟩ => absurd hi (hno i), fun hrange => ?_⟩, fun i hi => absurd hi (hno i)⟩
    bv_omega

/-- An illegal word is no operation, and the word is what the decoder reports (R89). -/
theorem decode_illegalCommand (cmd : CmdWord) (operand : List Byte) (h : cmd = 0x00 ∨ 0x08 ≤ cmd.toNat) :
    decode (.command cmd operand) = .error (.illegalCommand cmd) := by
  rcases decode_command_cases cmd operand with ⟨i, -, -, -, hrange⟩ | ⟨hd, -⟩
  · bv_omega
  · exact hd

/-- Settles O8: the decode check comes first (R224), and with no earlier fault the fault is recorded. -/
theorem illegalCommandFaults : Obligations.IllegalCommandFaults := by
  intro s cmd operand hf h
  simp only [issueCommand, decode_illegalCommand cmd operand h, raiseFault_none _ s hf]

/-! ## The opcode table's words -/

/-- A word that the table's numbering reads as an operation's encoding decodes to that operation (log entry 5). -/
theorem decodeTableWord_of_encode (nbits w : Nat) (i : Instr) (hi : i.wellFormed = true)
    (h : tableEncoding nbits w = encode i) : decodeTableWord nbits w = some i := by
  rw [decodeTableWord, h, decodeOfEncode i hi]

/-- Settles O7: each of the words is an operation's own encoding, so `decodeOfEncode` reads it back. -/
theorem tableWordsDecode : Obligations.TableWordsDecode :=
  ⟨fun msg => decodeOfEncode (.send msg) rfl,
    decodeOfEncode .init rfl,
    decodeOfEncode .enable rfl,
    decodeOfEncode .frameStx rfl,
    decodeOfEncode .frameEtx rfl,
    decodeOfEncode (.frameData 0x46) rfl,
    decodeTableWord_of_encode _ _ .init rfl rfl,
    decodeTableWord_of_encode _ _ (.send []) rfl rfl,
    decodeTableWord_of_encode _ _ .enable rfl rfl,
    decodeTableWord_of_encode _ _ .frameStx rfl rfl,
    decodeTableWord_of_encode _ _ .frameEtx rfl rfl,
    decodeTableWord_of_encode _ _ (.frameData 0x46) rfl rfl⟩

end Sys2Proof.Machine
end

section
/-! A receive of a block modelled alone (R115, R116, R175, R176, R185).

In a tick the surroundings bring one level, a driven one or a drawn one (R237), so a tick of such a block is a tick of
the receiving end of a link that is brought that level (`step_of_hears`). The receive is then followed tick by tick:
`Receiving` counts the samples and the wait, and what the line still has to carry moves on by one level a tick. -/

namespace Sys2Proof.Machine

variable {s t u s₀ : State} {c : Config} {b : Byte} {k n : Nat}

/-! ## A sample -/

/-- Settles O35: a wait that ends with data bits to come takes a sample, which writes the bit of its number. -/
theorem sampleWritesItsOwnBit : Obligations.SampleWritesItsOwnBit := by
  intro s hf hr ht hb
  exact ⟨takeSample { s with rxTimer := 0 }, rxPhase_samples hf hr ht hb, rfl,
    fun j hj => putBit_getLsbD s.rxAcc s.rxBit j s.rxPin hj⟩

/-! ## The schedule of the line -/

/-- Both states have the same levels before them. -/
structure SameSchedule (s t : State) : Prop where
  rxSchedule : t.env.rxSchedule = s.env.rxSchedule
  rxRest : t.env.rxRest = s.env.rxRest

theorem SameSchedule.refl (s : State) : SameSchedule s s := ⟨rfl, rfl⟩

theorem SameSchedule.trans (h : SameSchedule s t) (h' : SameSchedule t u) : SameSchedule s u :=
  ⟨h'.rxSchedule.trans h.rxSchedule, h'.rxRest.trans h.rxRest⟩

theorem SameSchedule.lineAt (h : SameSchedule s t) (n : Nat) : lineAt t n = lineAt s n := by
  rw [Machine.lineAt, Machine.lineAt, h.rxSchedule, h.rxRest]

/-- No class of received byte touches the line's schedule (R178 to R183). -/
theorem exec_classify_sameSchedule (hf : s.faulted = none) (hx : exec (classify b) s = .next t) :
    SameSchedule s t := by
  refine rxComplete_keeps (SameSchedule s) s t b hf (.refl s) ?stx ?fits ?full ?drop ?data ?overflow hx
  case stx => exact fun _ => ⟨rfl, rfl⟩
  case fits => exact fun _ _ => ⟨rfl, rfl⟩
  case full => exact fun _ _ => ⟨rfl, rfl⟩
  case drop => exact fun _ => ⟨rfl, rfl⟩
  case data => exact fun _ _ _ => ⟨rfl, rfl⟩
  case overflow => exact fun _ _ _ => ⟨rfl, rfl⟩

/-- Nor does a pending edge that waits, bails or starts a receive (R172 to R174). -/
theorem waitOrActivate_sameSchedule (s : State) : SameSchedule s (waitOrActivate s) := by
  have hdraw : SameSchedule s (afterEdgeDraw s) := by
    unfold afterEdgeDraw
    split
    · exact ⟨by simp, by simp⟩
    · exact .refl s
  rcases waitOrActivate_cases s with ⟨-, -, e⟩ | ⟨-, -, e⟩ | ⟨-, -, e⟩ <;> rw [e]
  · exact ⟨by simp, by simp⟩
  · exact hdraw.trans ⟨rfl, rfl⟩
  · exact hdraw.trans ⟨by simp, by simp⟩

/-- Phase 4 draws its stretches and touches nothing else of the surroundings' supplies. -/
theorem rxPhase_sameSchedule (h : rxPhase s = .next t) : SameSchedule s t := by
  rcases rxPhase_cases s t h with ⟨-, rfl⟩ | ⟨-, -, -, rfl⟩ | ⟨-, -, -, -, rfl⟩ | ⟨hf, -, -, -, hx⟩ |
    ⟨-, -, -, -, rfl⟩ | ⟨-, -, -, rfl⟩
  · exact .refl _
  · exact ⟨rfl, rfl⟩
  · exact ⟨by simp, by simp⟩
  · exact .trans (t := handlerReturn { s with rxTimer := 0 }) ⟨rfl, rfl⟩ (exec_classify_sameSchedule hf hx)
  · exact waitOrActivate_sameSchedule s
  · exact .refl _

/-- No command touches the line's schedule. -/
theorem exec_command_sameSchedule (cmd : CmdWord) (operand : List Byte) (i : Instr)
    (hd : decode (.command cmd operand) = .ok i) (hx : exec i s = .next t) : SameSchedule s t := by
  rcases exec_command_cases cmd operand i s t hd hx with ⟨-, rfl⟩ | ⟨-, -, -, rfl⟩ | ⟨-, -, rfl⟩ |
    ⟨-, -, -, hinit⟩ | ⟨-, ⟨msg, -, hsend⟩ | ⟨-, rfl⟩ | ⟨-, hread⟩ | ⟨-, rfl⟩ | ⟨-, rfl⟩ | ⟨-, rfl⟩⟩
  · exact .refl _
  · exact ⟨rfl, rfl⟩
  · exact ⟨rfl, rfl⟩
  · injection hinit with hinit
    subst hinit
    exact ⟨rfl, rfl⟩
  · rcases runSend_cases msg s with ⟨-, e⟩ | ⟨-, e⟩ <;> rw [e] at hsend <;> injection hsend with hsend <;> subst hsend
    · exact ⟨rfl, rfl⟩
    · exact ⟨by simp [admitSend, markInput], by simp [admitSend, markInput]⟩
  · exact ⟨rfl, rfl⟩
  · obtain ⟨l, -, rfl⟩ := runReadAndClear_next s t hread
    exact ⟨rfl, rfl⟩
  · exact ⟨rfl, rfl⟩
  · exact ⟨rfl, rfl⟩
  · exact ⟨rfl, rfl⟩

/-- Phase 5 moves the consumer on, not the line. -/
theorem consumerPhase_sameSchedule (h : consumerPhase s = .next t) : SameSchedule s t := by
  rcases consumerPhase_cases s t h with ⟨-, rfl⟩ | ⟨-, -, rfl⟩ | ⟨-, -, rfl⟩ |
    ⟨cmd, operand, -, i, -, -, hd, hx⟩ | ⟨-, -, -, w, -, -, -, rfl⟩
  · exact .refl _
  · exact .refl _
  · exact ⟨rfl, rfl⟩
  · exact .trans (t := popConsumer s) ⟨rfl, rfl⟩ (exec_command_sameSchedule cmd operand i hd hx)
  · unfold raiseFault
    split <;> exact ⟨rfl, rfl⟩

/-- Phases 6 and 7 and the end of the tick. -/
theorem afterConsumer_sameSchedule (wasActive : Bool) (s : State) : SameSchedule s (afterConsumer wasActive s) := by
  have hstep : SameSchedule s (txStep s) := by
    rcases txStep_cases s with ⟨-, e⟩ | ⟨-, -, e⟩ | ⟨-, -, -, e⟩ | ⟨-, -, -, -, e⟩ | ⟨-, -, -, -, -, e⟩ |
      ⟨-, -, -, -, -, e⟩ <;> rw [e] <;> exact ⟨by simp [txComplete], by simp [txComplete]⟩
  have htx : SameSchedule s (txPhase wasActive s) := by
    rcases txPhase_cases wasActive s with ⟨-, e⟩ | ⟨-, -, -, e⟩ <;> rw [e]
    · exact .refl s
    · exact hstep
  have hdog : SameSchedule (txPhase wasActive s) (watchdogPhase (txPhase wasActive s)) := by
    rcases watchdogPhase_cases (txPhase wasActive s) with
      ⟨-, e⟩ | ⟨-, -, -, -, ⟨-, -, -, e⟩ | ⟨-, -, -, e⟩ | ⟨-, e⟩⟩ <;> rw [e] <;> exact ⟨rfl, rfl⟩
  exact (htx.trans hdog).trans ⟨rfl, rfl⟩

/-- Only phase 2 moves the line's schedule on (R35, R70). -/
theorem afterLine_sameSchedule (h : afterLine s = .next t) : SameSchedule s t := by
  obtain ⟨s4, s5, h4, h5, rfl⟩ := (afterLine_eq_next s t).1 h
  have hedge : SameSchedule s (edgeDetect s) := ⟨by simp, by simp⟩
  exact ((hedge.trans (rxPhase_sameSchedule h4)).trans (consumerPhase_sameSchedule h5)).trans
    (afterConsumer_sameSchedule _ _)

/-! ## A tick of a block modelled alone -/

/-- The schedule without its first level is the line from the next tick on. -/
theorem lineAt_tail (s : State) (e : Env) (hsched : e.rxSchedule = s.env.rxSchedule.tail)
    (hrest : e.rxRest = s.env.rxRest) (n : Nat) : lineAt { s with env := e } n = lineAt s (n + 1) := by
  cases h : s.env.rxSchedule <;> simp [lineAt, hsched, hrest, h]

/-- Phase 2 brings one level, the scheduled one where the line is driven, and takes it off the schedule (R35, R237). -/
theorem linePhase_brings (s : State) :
    ∃ v e, linePhase s = setLine (.driven v) { s with env := e }
      ∧ (∀ w, lineAt s 0 = .driven w → v = w) ∧ e.consumer = s.env.consumer
      ∧ ∀ n, lineAt { s with env := e } n = lineAt s (n + 1) := by
  have hhead : lineDrive s = lineAt s 0 := by
    cases h : s.env.rxSchedule <;> simp [lineDrive, lineAt, h]
  obtain ⟨e, he⟩ : ∃ e : Env, e = { s.env with rxSchedule := s.env.rxSchedule.tail } := ⟨_, rfl⟩
  have hphase : linePhase s = setLine (lineAt s 0) { s with env := e } := by rw [linePhase, hhead, he]
  have htail : e.rxSchedule = s.env.rxSchedule.tail ∧ e.rxRest = s.env.rxRest ∧ e.consumer = s.env.consumer := by
    simp [he]
  obtain ⟨hsched, hrest, hcons⟩ := htail
  cases hd : lineAt s 0 with
  | driven v =>
    refine ⟨v, e, ?_, fun w hw => by injection hw, hcons, lineAt_tail s e hsched hrest⟩
    rw [hphase, hd]
  | undriven =>
    refine ⟨decide (drawValue 1 e = 1), drawEnv 1 e, ?_, fun w hw => Drive.noConfusion hw, by simp [hcons],
      lineAt_tail s _ (by simp [hsched]) (by simp [hrest])⟩
    rw [hphase, hd]
    rfl

/-- A block modelled alone does in a tick what an end of a link does that is brought the level of its schedule; where
the schedule drives nothing that is any level. -/
theorem step_of_hears (hf : s.faulted = none) {Q : State → Prop}
    (h : ∀ v e, e.consumer = s.env.consumer → (∀ w, lineAt s 0 = .driven w → v = w) →
      ∃ t, Hears [.driven v] { s with env := e } t ∧ Q t) :
    ∃ t, step s = .next t ∧ Q t ∧ ∀ n, lineAt t n = lineAt s (n + 1) := by
  obtain ⟨v, e, hline, hlevel, hcons, hsched⟩ := linePhase_brings (drivePhase s)
  rw [drivePhase_eq hf] at hline hlevel hcons hsched
  obtain ⟨t, ⟨t', ⟨-, htick⟩, rfl⟩, hQ⟩ := h v e hcons hlevel
  rw [drivePhase_eq (s := { s with env := e }) hf] at htick
  refine ⟨t, ?_, hQ, fun n => ?_⟩
  · rw [step, runTick, drivePhase_eq hf, hline]
    exact htick
  · rw [(afterLine_sameSchedule htick).lineAt n]
    exact hsched n

/-! ## The ticks of a receive -/

/-- What lasts of the surroundings is the consumer. -/
theorem lasting_env (s : State) {e : Env} (he : e.consumer = s.env.consumer) :
    lasting { s with env := e } = lasting s := by
  simp [lasting, he]

/-- A receive does not depend on the rest of the surroundings. -/
theorem Receiving.with_env (h : Receiving s₀ b k n s) {e : Env} (he : e.consumer = s.env.consumer) :
    Receiving s₀ b k n { s with env := e } :=
  { h with lasts := (lasting_env s he).trans h.lasts }

/-- The tick of the edge (R172, R174). -/
theorem Receiving.step_start (hc : Prompt c) (h : Attends c s) (hr : Rests s) (hl : s.listening)
    (hedge : lineAt s 0 = .driven true) (b : Byte) :
    ∃ t, step s = .next t ∧ Receiving s b 0 (3 * c.ticksPerBit / 2) t ∧ ∀ n, lineAt t n = lineAt s (n + 1) := by
  refine step_of_hears h.faulted fun v e he hv => ?_
  obtain rfl := hv true hedge
  have hlast := lasting_env s he
  obtain ⟨t, ht, ht'⟩ := Receiving.start hc (h.of_lasting hlast) (s := { s with env := e }) { hr with } hl b
  exact ⟨t, ht, { ht' with lasts := ht'.lasts.trans hlast }⟩

/-- A tick of the wait, whatever the line carries (R175). -/
theorem Receiving.step_counts (h₀ : Attends c s₀) (h : Receiving s₀ b k (n + 2) s) :
    ∃ t, step s = .next t ∧ Receiving s₀ b k (n + 1) t ∧ ∀ n, lineAt t n = lineAt s (n + 1) :=
  step_of_hears (h₀.of_lasting h.lasts).faulted fun v _ he _ => Receiving.counts h₀ (h.with_env he) v

/-- The tick of a sample (R115, R175). -/
theorem Receiving.step_samples (hc : Prompt c) (h₀ : Attends c s₀) (h : Receiving s₀ b k 1 s) (hk : k < 8)
    (hbit : lineAt s 0 = .driven (b.getLsbD k)) :
    ∃ t, step s = .next t ∧ Receiving s₀ b (k + 1) c.ticksPerBit t ∧ ∀ n, lineAt t n = lineAt s (n + 1) := by
  refine step_of_hears (h₀.of_lasting h.lasts).faulted fun v e he hv => ?_
  obtain rfl := hv _ hbit
  exact (h.with_env he).samples hc h₀ hk

/-! ## The ticks up to the completion -/

/-- `n` ticks after that of the edge the receive is under way: `k` bits are sampled, and the wait for the next sample,
or for the completion after the last, ends 1.5 + k bit-periods after the edge (R116). -/
structure UnderWay (c : Config) (s₀ : State) (b : Byte) (n : Nat) (s : State) : Prop where
  receiving : ∃ k m, k ≤ 8 ∧ n + (m + 1) = 3 * c.ticksPerBit / 2 + k * c.ticksPerBit ∧ Receiving s₀ b k (m + 1) s
  line : ∀ j, lineAt s j = lineAt s₀ (n + 1 + j)

/-- The wait goes on, or a sample is taken of the level that the line carries at its mid-cell. -/
theorem UnderWay.step (hc : Prompt c) (h₀ : Attends c s₀) (h : UnderWay c s₀ b n s)
    (hv : ∀ k, k < 8 → lineAt s₀ (3 * c.ticksPerBit / 2 + k * c.ticksPerBit) = .driven (b.getLsbD k))
    (hn : n + 1 < 19 * c.ticksPerBit / 2) : ∃ t, step s = .next t ∧ UnderWay c s₀ b (n + 1) t := by
  obtain ⟨⟨k, m, hk, htime, hrec⟩, hline⟩ := h
  obtain ⟨heven, htwo, -⟩ := hc.wf
  have hline' (t : State) (ht : ∀ j, lineAt t j = lineAt s (j + 1)) (j : Nat) :
      lineAt t j = lineAt s₀ (n + 1 + 1 + j) := by
    rw [ht, hline]
    congr 1
    omega
  cases m with
  | succ m =>
    obtain ⟨t, hstep, ht, htline⟩ := hrec.step_counts h₀
    exact ⟨t, hstep, ⟨k, m, hk, by omega, ht⟩, hline' t htline⟩
  | zero =>
    have hk8 : k < 8 := by
      by_contra hlast
      obtain rfl : k = 8 := by omega
      omega
    have hbit : lineAt s 0 = .driven (b.getLsbD k) := by
      rw [hline, ← hv k hk8, ← htime]
    obtain ⟨t, hstep, ht, htline⟩ := hrec.step_samples hc h₀ hk8 hbit
    refine ⟨t, hstep, ⟨k + 1, c.ticksPerBit - 1, hk8, ?_, ?_⟩, hline' t htline⟩
    · rw [Nat.succ_mul k]
      omega
    · rwa [Nat.sub_add_cancel (by omega)]

/-- The receive is under way for 9.5 bit-periods from the tick of its edge on (R116, R185). -/
theorem UnderWay.of_edge (hc : Prompt c) (h : Attends c s) (hr : Rests s) (hl : s.listening)
    (hedge : lineAt s 0 = .driven true)
    (hv : ∀ k, k < 8 → lineAt s (3 * c.ticksPerBit / 2 + k * c.ticksPerBit) = .driven (b.getLsbD k))
    (hn : n < 19 * c.ticksPerBit / 2) :
    ∃ t, Host.Core.run Sys2Proof.core (n + 1) s = .next t ∧ UnderWay c s b n t := by
  induction n with
  | zero =>
    obtain ⟨t, hstep, ht, hline⟩ := Receiving.step_start hc h hr hl hedge b
    obtain ⟨-, htwo, -⟩ := hc.wf
    refine ⟨t, run_succ_of_step 0 s t hstep, ⟨0, 3 * c.ticksPerBit / 2 - 1, by omega, by omega, ?_⟩, fun j => ?_⟩
    · rwa [Nat.sub_add_cancel (by omega)]
    · rw [hline, Nat.add_comm j, Nat.zero_add]
  | succ n ih =>
    obtain ⟨u, hu, hway⟩ := ih (by omega)
    obtain ⟨t, hstep, ht⟩ := hway.step hc h hv hn
    exact ⟨t, (run_add (n + 1) 1 s u hu).trans (run_succ_of_step 0 u t hstep), ht⟩

/-! ## The completion -/

/-- What the operation leaves of the message depends on the message alone. -/
def OfMessage (f : State → State) : Prop := ∀ s, lasting (f (lasting s)) = lasting (f s)

theorem ofMessage_rxDrop (b : Byte) : OfMessage (rxDrop b) := fun _ => rfl

theorem ofMessage_rxEtx : OfMessage rxEtx := by
  intro s
  by_cases hroom : s.cursor < s.cfg.rxCapacity
  · rw [rxEtx_fits s hroom, rxEtx_fits (lasting s) hroom]
    rfl
  · rw [rxEtx_full s (Nat.not_lt.1 hroom), rxEtx_full (lasting s) (Nat.not_lt.1 hroom)]
    rfl

theorem ofMessage_rxData (b : Byte) : OfMessage (rxData b) := by
  intro s
  by_cases hroom : s.cursor < s.cfg.rxCapacity
  · rw [rxData_fits b s hroom, rxData_fits b (lasting s) hroom]
    rfl
  · rw [rxData_full b s (Nat.not_lt.1 hroom), rxData_full b (lasting s) (Nat.not_lt.1 hroom)]
    rfl

/-- `START_SEEN` lasts, so a choice by it is one of the message. -/
theorem OfMessage.ite_startSeen {f g : State → State} (hf : OfMessage f) (hg : OfMessage g) :
    OfMessage fun s => if s.startSeen then f s else g s := by
  intro s
  change lasting (if s.startSeen then f (lasting s) else g (lasting s)) = _
  dsimp only
  split
  · exact hf s
  · exact hg s

/-- Every class of received byte is an effect on the message behind the check of R223. -/
theorem exec_classify_ofMessage (b : Byte) : ∃ f, OfMessage f ∧ ∀ s, exec (classify b) s = receiveGate f s := by
  unfold classify
  split_ifs
  · exact ⟨rxStx, fun _ => rfl, fun _ => rfl⟩
  · exact ⟨_, ofMessage_rxEtx.ite_startSeen (ofMessage_rxDrop etx), fun _ => rfl⟩
  · exact ⟨_, (ofMessage_rxData b).ite_startSeen (ofMessage_rxDrop b), fun _ => rfl⟩

/-- Run on two states of the same message, a class of received byte leaves the same message. -/
theorem exec_classify_lasting (hf : s.faulted = none) (hl : lasting t = lasting s)
    (hx : exec (classify b) t = .next u) : ∃ w, exec (classify b) s = .next w ∧ lasting u = lasting w := by
  obtain ⟨f, hof, hexec⟩ := exec_classify_ofMessage b
  have hft : t.faulted = none := (congrArg State.faulted hl :).trans hf
  have hgate (r : State) (hr : r.faulted = none) : exec (classify b) r = .next (f r) := by
    rw [hexec, receiveGate, if_neg (by simpa using hr)]
  rw [hgate t hft] at hx
  injection hx with hx
  exact ⟨f s, hgate s hf, by rw [← hx, ← hof t, ← hof s, hl]⟩

/-- No receive is under way any more, and the last one was of the byte `b`. -/
structure Ended (c : Config) (b : Byte) (s : State) : Prop extends Attends c s where
  rxActive : s.rxActive = false
  edgePend : s.edgePend = false
  rxAcc : s.rxAcc = b

/-- A class of received byte leaves the RX engine as the handler's return left it. -/
theorem exec_classify_ended {b' : Byte} (h : Ended c b s) (hx : exec (classify b') s = .next u) : Ended c b u := by
  refine rxComplete_keeps (Ended c b) s u b' h.faulted h ?stx ?fits ?full ?drop ?data ?overflow hx
  case stx => exact fun _ => { h with }
  case fits => exact fun _ _ => { h with }
  case full => exact fun _ _ => { h with }
  case drop => exact fun _ => { h with }
  case data => exact fun _ _ _ => { h with }
  case overflow => exact fun _ _ _ => { h with }

/-- The receive of the byte `b` has ended, and the byte's class has run on a state of the message that `s` holds
(R176). -/
structure Completed (c : Config) (b : Byte) (s t : State) : Prop extends Ended c b t where
  ran : ∃ r u, lasting r = lasting s ∧ exec (classify b) r = .next u ∧ lasting t = lasting u

/-- At the end of the last wait the handler returns and the byte's class runs, whatever the line carries (R176). -/
theorem Receiving.ends (hc : Prompt c) (h₀ : Attends c s₀) (h : Receiving s₀ b 8 1 s) (v : Level) :
    ∃ t, Hears [.driven v] s t ∧ Completed c b s₀ t := by
  have hs := h₀.of_lasting h.lasts
  obtain ⟨r, hr⟩ : ∃ r, r = handlerReturn { sensed v s with rxTimer := 0 } := ⟨_, rfl⟩
  have hrl : lasting r = lasting s₀ := hr ▸ h.lasts
  have hrE : Ended c b r := { h₀.of_lasting hrl with
    rxActive := by rw [hr]; rfl
    edgePend := by rw [hr]; rfl
    rxAcc := by rw [hr]; exact h.byte }
  have hri : IdleAtMost 0 r := hr ▸ h.idle
  obtain ⟨u, hu⟩ := exec_classify_completes b hrE.faulted
  have huE := exec_classify_ended hrE hu
  have h4 : rxPhase (sensed v s) = .next u := by
    rw [rxPhase_completes_receive (s := sensed v s) hs.faulted h.rxActive h.rxTimer h.rxBit, ← hr, ← hu]
    exact congrArg (fun b => exec (classify b) r) h.byte
  have ht := hs.tick h4 huE.toAttends
  obtain ⟨-, htwo, -⟩ := hc.wf
  obtain ⟨i, e, -⟩ := watchdogPhase_pause huE.toAttends hc.wf (exec_classify_idle hrE.faulted hri hu) (by omega)
  rw [e] at ht
  exact ⟨_, .single ht, { huE with ran := ⟨r, u, hrl, hu, rfl⟩ }⟩

/-- The tick of the completion (R176, R185). -/
theorem Receiving.step_ends (hc : Prompt c) (h₀ : Attends c s₀) (h : Receiving s₀ b 8 1 s) :
    ∃ t, step s = .next t ∧ Completed c b s₀ t := by
  obtain ⟨t, hstep, ht, -⟩ := step_of_hears (h₀.of_lasting h.lasts).faulted fun v _ he _ =>
    (h.with_env he).ends hc h₀ v
  exact ⟨t, hstep, ht⟩

/-- The last wait ends 9.5 bit-periods after the edge (R116, R185). -/
theorem UnderWay.ends (hc : Prompt c) (h₀ : Attends c s₀) (h : UnderWay c s₀ b n s)
    (hn : n + 1 = 19 * c.ticksPerBit / 2) : ∃ t, Machine.step s = .next t ∧ Completed c b s₀ t := by
  obtain ⟨k, m, hk, htime, hrec⟩ := h.receiving
  obtain ⟨heven, htwo, -⟩ := hc.wf
  have hlast : 8 ≤ k := Nat.le_of_mul_le_mul_right (c := c.ticksPerBit) (by omega) (by omega)
  obtain rfl : k = 8 := by omega
  obtain rfl : m = 0 := by omega
  exact hrec.step_ends hc h₀

/-- Settles O36: `UnderWay` follows the receive up to its last tick, in which the class of the byte made of the sampled
levels runs on a state that holds the same message as the first one. -/
theorem receiveSamplesEightMidCellLevels : Obligations.ReceiveSamplesEightMidCellLevels := by
  intro s v hready hie hedge htx hlisten hprev hwf hlat hstr hcons hstart hv
  obtain ⟨hf, hi, hr⟩ := hready
  have hc : Prompt s.cfg := ⟨hwf, hlat, hstr⟩
  have hA : Attends s.cfg s := ⟨hf, hi, hie, htx, hcons, rfl⟩
  have hR : Rests s := ⟨hr, hedge, hprev⟩
  obtain ⟨b, hb⟩ : ∃ b : Byte, ∀ k, k < 8 → b.getLsbD k = v k :=
    ⟨BitVec.ofFnLE fun k => v k, fun k hk => by simp [hk]⟩
  have hway {n : Nat} (hn : n < 19 * s.cfg.ticksPerBit / 2) := UnderWay.of_edge (b := b) hc hA hR hlisten hstart
    (fun k hk => by rw [hb k hk]; exact hv k hk) hn
  refine ⟨fun n hn => ?_, ?_⟩
  · obtain ⟨u, hu, ⟨_, _, _, _, hrec⟩, _⟩ := hway hn
    exact ⟨u, hu, hrec.rxActive⟩
  · obtain ⟨-, htwo, -⟩ := hwf
    obtain ⟨n, hn⟩ : ∃ n, n + 1 = 19 * s.cfg.ticksPerBit / 2 := ⟨19 * s.cfg.ticksPerBit / 2 - 1, by omega⟩
    obtain ⟨u, hu, hlast⟩ := hway (n := n) (by omega)
    obtain ⟨t, ht, hdone⟩ := hlast.ends hc hA hn
    obtain ⟨r, x, hrl, hx, hxl⟩ := hdone.ran
    obtain ⟨w, hw, hwl⟩ := exec_classify_lasting hf hrl hx
    have hl : lasting t = lasting w := hxl.trans hwl
    refine ⟨t, w, ?_, hdone.rxActive, hdone.edgePend, fun k hk => by rw [hdone.rxAcc, hb k hk],
      by rw [hdone.rxAcc]; exact hw, (congrArg State.link hl :), (congrArg State.startSeen hl :),
      (congrArg State.dataAvail hl :), (congrArg State.ovf hl :), (congrArg State.cursor hl :),
      (congrArg State.buf hl :)⟩
    rw [← hn]
    exact (run_add (n + 1) 1 s u hu).trans (run_succ_of_step 0 u t ht)

end Sys2Proof.Machine
end

section
/-! A SEND in flight, bit by bit (R111 to R114, R133).

`InFlight` says where a SEND stands: in which bit of its head frame, or in the gap before it, and for how many ticks
more. The RX line and the stretches are left free. A SEND is followed from the start of one bit to the start of the
next one (`InFlight.nextBitStart`), and between the two the pin holds one level (`InFlight.drives_within`). -/

namespace Sys2Proof.Machine

variable {s t u v : State} {c : Config} {f g : Frame} {frames frames' rest : List Frame} {gap : Bool}
  {b b' d i j k n : Nat}

/-! ## TX_STEP, case by case -/

/-- Before its end a bit or a gap is held (R112). -/
theorem txStep_counts (ht : 1 < s.txTimer) : txStep s = { s with txTimer := s.txTimer - 1 } := by
  rcases txStep_cases s with ⟨-, e⟩ | ⟨h, -⟩ | ⟨h, -⟩ | ⟨h, -⟩ | ⟨h, -⟩ | ⟨h, -⟩
  · exact e
  all_goals omega

/-- A gap is followed by the first bit of the head frame (R133). -/
theorem txStep_gapEnds (ht : s.txTimer = 1) (hg : s.txGap = true) :
    txStep s = armTxTimer { s with txTimer := 0, txGap := false, txBit := 0 } := by
  simp [txStep, ht, hg]

/-- A bit is followed by the next one of its frame (R113). -/
theorem txStep_nextBit (ht : s.txTimer = 1) (hg : s.txGap = false) (hb : s.txBit < 9) :
    txStep s = armTxTimer { s with txTimer := 0, txBit := s.txBit + 1 } := by
  simp [txStep, ht, hg, hb]

/-- With no gap a stop bit is followed by the first bit of the next frame (R114). -/
theorem txStep_nextFrame (ht : s.txTimer = 1) (hg : s.txGap = false) (hb : s.txBit = 9)
    (hf : s.txFrames = f :: g :: rest) (hz : s.cfg.txGapBits = 0) :
    txStep s = armTxTimer { s with txTimer := 0, txFrames := g :: rest, txBit := 0 } := by
  simp [txStep, txFrameEnd, ht, hg, hb, hf, hz]

/-- A stop bit is followed by the gap where there is one (R114, R133). -/
theorem txStep_gapBegins (ht : s.txTimer = 1) (hg : s.txGap = false) (hb : s.txBit = 9)
    (hf : s.txFrames = f :: g :: rest) (hz : 0 < s.cfg.txGapBits) :
    txStep s = { s with
      txFrames := g :: rest, txGap := true, txTimer := s.cfg.txGapBits * s.cfg.ticksPerBit } := by
  simp [txStep, txFrameEnd, ht, hg, hb, hf, hz]

/-- TX_STEP writes no pin: the bit it goes on to is driven in the next tick (R133). -/
@[simp] theorem txStep_txPin (s : State) : (txStep s).txPin = s.txPin := by
  rcases txStep_cases s with ⟨-, e⟩ | ⟨-, -, e⟩ | ⟨-, -, -, e⟩ | ⟨-, -, -, -, e⟩ | ⟨-, -, -, -, -, e⟩ |
    ⟨-, -, -, -, -, e⟩ <;> rw [e] <;> rfl

/-- Phase 6 of a SEND in flight, outside the tick of its admission, is TX_STEP. -/
theorem txPhase_active (hf : s.faulted = none) (ha : s.txActive = true) : txPhase true s = txStep s := by
  rcases txPhase_cases true s with ⟨h | h | h, -⟩ | ⟨-, -, -, e⟩
  · exact absurd hf h
  · cases h
  · cases ha.symm.trans h
  · exact e

/-! ## Where a SEND stands -/

/-- A SEND in flight at bit `b` of the head of `frames`, or in the gap before that frame, with `n` ticks left of it. -/
structure InFlight (c : Config) (gap : Bool) (frames : List Frame) (b n : Nat) (s : State) : Prop where
  faulted : s.faulted = none
  initDone : s.initDone = true
  rxActive : s.rxActive = false
  txActive : s.txActive = true
  link : s.link = .txInProgress ∨ s.link = .disabled
  cfg : s.cfg = c
  txGap : s.txGap = gap
  txFrames : s.txFrames = frames
  txBit : s.txBit = b
  txTimer : s.txTimer = n

/-- The lengths a bit may have (R112). -/
def BitLength (c : Config) (d : Nat) : Prop := c.ticksPerBit ≤ d ∧ d ≤ c.ticksPerBit + c.txStretchMax

/-- The level of a SEND at a bit, or in a gap (R133). -/
def sentLevel (gap : Bool) (frames : List Frame) (b : Nat) : Level :=
  match gap, frames with
  | false, f :: _ => f.getLsbD b
  | _, _ => idleLevel

/-- It is the level that phase 1 drives. -/
theorem InFlight.txDrive (h : InFlight c gap frames b n s) : txDrive s = .driven (sentLevel gap frames b) := by
  cases gap <;> cases frames <;>
    simp [Machine.txDrive, sentLevel, h.initDone, h.txActive, h.txGap, h.txFrames, h.txBit]

/-- A tick of a SEND in flight drives its level and then runs TX_STEP where the SEND stands, whatever the RX line does
(R133, R137, R173). -/
theorem InFlight.tick (h : InFlight c gap frames b n s) :
    ∃ v m, step s = .next (endTick { txStep v with rxIdleTicks := m }) ∧ InFlight c gap frames b n v
      ∧ v.txPin = .driven (sentLevel gap frames b) := by
  obtain ⟨v, l, m, hstep, hv, -⟩ := step_sending s h.faulted h.rxActive h.txActive h.link
  refine ⟨v, m, hstep, ?_, (congrArg State.txPin hv :).trans h.txDrive⟩
  rw [hv]
  exact { h with }

/-- `InFlight` does not speak of the watchdog or the tick's number. -/
theorem InFlight.endTick_idleTicks (h : InFlight c gap frames b n s) (m : Nat) :
    InFlight c gap frames b n (endTick { s with rxIdleTicks := m }) :=
  { h with }

/-! ## A bit or a gap while it lasts -/

/-- One tick of it, before its end (R112). -/
theorem InFlight.counts (h : InFlight c gap frames b (n + 2) s) :
    ∃ t, step s = .next t ∧ InFlight c gap frames b (n + 1) t := by
  obtain ⟨v, m, hstep, hv, -⟩ := h.tick
  refine ⟨_, hstep, InFlight.endTick_idleTicks ?_ m⟩
  rw [txStep_counts (by rw [hv.txTimer]; omega), hv.txTimer]
  exact { hv with txTimer := rfl }

/-- Some ticks of it. -/
theorem InFlight.waits (h : InFlight c gap frames b (k + n + 1) s) :
    ∃ t, Host.Core.run Sys2Proof.core k s = .next t ∧ InFlight c gap frames b (n + 1) t := by
  induction k generalizing s with
  | zero => exact ⟨s, rfl, by simpa using h⟩
  | succ k ih =>
    obtain ⟨u, hu, hu'⟩ := InFlight.counts (n := k + n) (by rwa [show k + n + 2 = k + 1 + n + 1 by omega])
    obtain ⟨t, ht, ht'⟩ := ih hu'
    exact ⟨t, (run_succ_of_step k s u hu).trans ht, ht'⟩

/-- The pin is at its level in every tick of it (R112, R133). -/
theorem InFlight.drives_within (h : InFlight c gap frames b n s) (hk : k < n) :
    ∃ t, Host.Core.run Sys2Proof.core (k + 1) s = .next t ∧ t.txPin = .driven (sentLevel gap frames b) := by
  obtain ⟨m, rfl⟩ : ∃ m, n = k + m + 1 := ⟨n - k - 1, by omega⟩
  obtain ⟨u, hu, hu'⟩ := h.waits
  obtain ⟨v, i, hstep, -, hpin⟩ := hu'.tick
  exact ⟨_, (run_add k 1 s u hu).trans (run_succ_of_step 0 u _ hstep), (txStep_txPin v).trans hpin⟩

/-- What its last tick does, after the ticks before. -/
theorem InFlight.expires {Q : State → Prop} (h : InFlight c gap frames b n s) (hn : 0 < n)
    (hlast : ∀ u, InFlight c gap frames b 1 u → ∃ t, step u = .next t ∧ Q t) :
    ∃ t, Host.Core.run Sys2Proof.core n s = .next t ∧ Q t := by
  obtain ⟨m, rfl⟩ : ∃ m, n = m + 1 := ⟨n - 1, by omega⟩
  obtain ⟨u, hu, hu'⟩ := InFlight.waits (n := 0) h
  obtain ⟨t, ht, hQ⟩ := hlast u hu'
  exact ⟨t, (run_add m 1 s u hu).trans (run_succ_of_step 0 u t ht), hQ⟩

/-! ## What follows it -/

/-- A bit that TX_STEP arms is in flight for a length of R112. -/
theorem InFlight.arms (h : InFlight c gap frames b n s)
    (harm : ∀ v, InFlight c gap frames b n v →
      ∃ u, txStep v = armTxTimer u ∧ InFlight c false frames' b' 0 u) :
    ∃ t, step s = .next t ∧ ∃ d, BitLength c d ∧ InFlight c false frames' b' d t := by
  obtain ⟨v, m, hstep, hv, -⟩ := h.tick
  obtain ⟨u, hu, hu'⟩ := harm v hv
  have hdraw := drawValue_le u.cfg.txStretchMax u.env
  rw [hu'.cfg] at hdraw
  refine ⟨_, hstep, c.ticksPerBit + drawValue c.txStretchMax u.env,
    ⟨Nat.le_add_right _ _, Nat.add_le_add_left hdraw _⟩, InFlight.endTick_idleTicks ?_ m⟩
  rw [hu]
  exact { hu' with txTimer := by rw [armTxTimer_txTimer, hu'.cfg] }

/-- The next bit of the frame (R113). -/
theorem InFlight.nextBit (h : InFlight c false frames b 1 s) (hb : b < 9) :
    ∃ t, step s = .next t ∧ ∃ d, BitLength c d ∧ InFlight c false frames (b + 1) d t :=
  h.arms fun _ hv => ⟨_, txStep_nextBit hv.txTimer hv.txGap (hv.txBit ▸ hb),
    { hv with txBit := by simp [hv.txBit], txTimer := rfl }⟩

/-- The next frame, where there is no gap (R114). -/
theorem InFlight.nextFrame (h : InFlight c false (f :: g :: rest) 9 1 s) (hz : c.txGapBits = 0) :
    ∃ t, step s = .next t ∧ ∃ d, BitLength c d ∧ InFlight c false (g :: rest) 0 d t :=
  h.arms fun _ hv => ⟨_, txStep_nextFrame hv.txTimer hv.txGap hv.txBit hv.txFrames (hv.cfg ▸ hz),
    { hv with txFrames := rfl, txBit := rfl, txTimer := rfl }⟩

/-- The first bit of a frame after the gap (R133). -/
theorem InFlight.gapEnds (h : InFlight c true frames b 1 s) :
    ∃ t, step s = .next t ∧ ∃ d, BitLength c d ∧ InFlight c false frames 0 d t :=
  h.arms fun _ hv => ⟨_, txStep_gapEnds hv.txTimer hv.txGap,
    { hv with txGap := rfl, txBit := rfl, txTimer := rfl }⟩

/-- The gap, where there is one (R114, R133). -/
theorem InFlight.gapBegins (h : InFlight c false (f :: g :: rest) 9 1 s) (hz : 0 < c.txGapBits) :
    ∃ t, step s = .next t ∧ InFlight c true (g :: rest) 9 (c.txGapBits * c.ticksPerBit) t := by
  obtain ⟨v, m, hstep, hv, -⟩ := h.tick
  refine ⟨_, hstep, InFlight.endTick_idleTicks ?_ m⟩
  rw [txStep_gapBegins hv.txTimer hv.txGap hv.txBit hv.txFrames (hv.cfg ▸ hz), hv.cfg]
  exact { hv with cfg := rfl, txFrames := rfl, txGap := rfl, txTimer := rfl }

/-! ## From one bit to the next -/

/-- The frames from a place on that is not the last. -/
theorem drop_eq_cons_cons (h : i + 1 < frames.length) :
    ∃ f g rest, frames.drop i = f :: g :: rest ∧ frames.drop (i + 1) = g :: rest :=
  ⟨frames[i], frames[i + 1], frames.drop (i + 2), by
    rw [List.drop_eq_getElem_cons (by omega), List.drop_eq_getElem_cons h], List.drop_eq_getElem_cons h⟩

/-- After the last frame but one there is a gap of G bit-periods, where G is not 0 (R114). -/
theorem InFlight.gapStart (hw : c.wf) (h : InFlight c false (frames.drop i) 9 d s) (hd : BitLength c d)
    (hi : i + 1 < frames.length) (hz : 0 < c.txGapBits) :
    ∃ t, Host.Core.run Sys2Proof.core d s = .next t
      ∧ InFlight c true (frames.drop (i + 1)) 9 (c.txGapBits * c.ticksPerBit) t := by
  obtain ⟨-, htwo, -⟩ := hw
  obtain ⟨hmin, -⟩ := hd
  obtain ⟨f, g, rest, hi0, hi1⟩ := drop_eq_cons_cons hi
  rw [hi0] at h
  rw [hi1]
  exact h.expires (by omega) fun u hu => hu.gapBegins hz

/-- A stop bit and the gap after it, if any, are followed by the first bit of the next frame (R114, R133). -/
theorem InFlight.nextFrameStart (hw : c.wf) (h : InFlight c false (frames.drop i) 9 d s) (hd : BitLength c d)
    (hi : i + 1 < frames.length) :
    ∃ t, Host.Core.run Sys2Proof.core (d + c.txGapBits * c.ticksPerBit) s = .next t
      ∧ ∃ d', BitLength c d' ∧ InFlight c false (frames.drop (i + 1)) 0 d' t := by
  have ⟨_, htwo, _⟩ := hw
  have ⟨hmin, _⟩ := hd
  rcases Nat.eq_zero_or_pos c.txGapBits with hz | hz
  · obtain ⟨f, g, rest, hi0, hi1⟩ := drop_eq_cons_cons hi
    rw [hz, Nat.zero_mul, Nat.add_zero, hi1]
    rw [hi0] at h
    exact h.expires (by omega) fun u hu => hu.nextFrame hz
  · obtain ⟨u, hu, hgap⟩ := h.gapStart hw hd hi hz
    obtain ⟨t, ht, hbit⟩ := hgap.expires (Nat.mul_pos hz (by omega)) fun u hu => hu.gapEnds
    exact ⟨t, (run_add _ _ s u hu).trans ht, hbit⟩

/-- The `j`-th bit of a SEND, counted from 0 over all its frames, is followed by the next one, after the gap where a
frame ends (R113, R114). -/
theorem InFlight.nextBitStart (hw : c.wf) (h : InFlight c false (frames.drop (j / 10)) (j % 10) d s)
    (hd : BitLength c d) (hj : j + 1 < 10 * frames.length) :
    ∃ t, Host.Core.run Sys2Proof.core (d + ((j + 1) / 10 - j / 10) * (c.txGapBits * c.ticksPerBit)) s = .next t
      ∧ ∃ d', BitLength c d' ∧ InFlight c false (frames.drop ((j + 1) / 10)) ((j + 1) % 10) d' t := by
  by_cases hb : j % 10 < 9
  · obtain ⟨-, htwo, -⟩ := hw
    obtain ⟨hmin, -⟩ := hd
    rw [show (j + 1) / 10 = j / 10 by omega, show (j + 1) % 10 = j % 10 + 1 by omega, Nat.sub_self, Nat.zero_mul,
      Nat.add_zero]
    exact h.expires (by omega) fun u hu => hu.nextBit hb
  · rw [show j % 10 = 9 by omega] at h
    rw [show (j + 1) / 10 = j / 10 + 1 by omega, show (j + 1) % 10 = 0 by omega, Nat.add_sub_cancel_left, Nat.one_mul]
    exact h.nextFrameStart hw hd (by omega)

/-! ## All bits -/

/-- Where a bit begins does not depend on the lengths from it on. -/
theorem bitStart_append (l l' : List Nat) (h : j ≤ l.length) : bitStart (l ++ l') j = bitStart l j := by
  rw [bitStart, bitStart, List.take_append_of_le_length h]

/-- A bit begins where the one before it ends. -/
theorem bitStart_succ {l : List Nat} (h : l[j]? = some d) : bitStart l (j + 1) = bitStart l j + d := by
  rw [bitStart, bitStart, List.take_add_one, h]
  simp

/-- The lengths `l` are those of the first bits of the SEND that `s` has begun: each is in the range of R112, and its
bit begins when the bits and the gaps before it are over. -/
structure BitLengths (c : Config) (s : State) (frames : List Frame) (l : List Nat) : Prop where
  range : ∀ d, d ∈ l → BitLength c d
  starts : ∀ j d, l[j]? = some d →
    ∃ u, Host.Core.run Sys2Proof.core (bitStart l j + j / 10 * (c.txGapBits * c.ticksPerBit)) s = .next u
      ∧ InFlight c false (frames.drop (j / 10)) (j % 10) d u

/-- The first bit begins at once. -/
theorem BitLengths.first (h : InFlight c false frames 0 d s) (hd : BitLength c d) : BitLengths c s frames [d] where
  range d' hd' := by rwa [List.mem_singleton.1 hd']
  starts j d' hj := by
    obtain ⟨hj0, hd'⟩ : 0 = j ∧ d = d' := by
      simpa [List.getElem?_singleton, eq_comm] using hj
    subst hj0 hd'
    exact ⟨s, by simp [bitStart], h⟩

/-- One bit more, while there is one. -/
theorem BitLengths.next (hw : c.wf) {l : List Nat} (h : BitLengths c s frames l) (hl : l.length = j + 1)
    (hj : j + 1 < 10 * frames.length) : ∃ d, BitLengths c s frames (l ++ [d]) := by
  have hlast : l[j]? = some l[j] := List.getElem?_eq_getElem (by omega)
  obtain ⟨u, hu, hbit⟩ := h.starts j _ hlast
  obtain ⟨t, ht, d, hd, hnext⟩ := hbit.nextBitStart hw (h.range _ (List.getElem_mem _)) hj
  refine ⟨d, fun d' hd' => ?_, fun i d' hi => ?_⟩
  · rcases List.mem_append.1 hd' with hd' | hd'
    · exact h.range d' hd'
    · rwa [List.mem_singleton.1 hd']
  · rcases Nat.lt_or_ge i l.length with hlt | hge
    · rw [List.getElem?_append_left hlt] at hi
      rw [bitStart_append _ _ hlt.le]
      exact h.starts i d' hi
    · obtain rfl : i = j + 1 := by
        have hlen := (List.getElem?_eq_some_iff.1 hi).1
        rw [List.length_append, List.length_singleton] at hlen
        omega
      obtain rfl : d = d' := by simpa [← hl] using hi
      refine ⟨t, ?_, hnext⟩
      have hgap : (j + 1) / 10 * (c.txGapBits * c.ticksPerBit) = j / 10 * (c.txGapBits * c.ticksPerBit)
          + ((j + 1) / 10 - j / 10) * (c.txGapBits * c.ticksPerBit) := by
        rw [← Nat.add_mul, Nat.add_sub_cancel' (by omega)]
      rw [bitStart_append _ _ hl.ge, bitStart_succ hlast, hgap, ← ht, ← run_add _ _ s u hu]
      congr 1
      omega

/-- Every bit of a SEND has its length (R111, R112). -/
theorem InFlight.bitLengths (hw : c.wf) (h : InFlight c false frames 0 d s) (hd : BitLength c d)
    (hn : n + 1 ≤ 10 * frames.length) : ∃ l, l.length = n + 1 ∧ BitLengths c s frames l := by
  induction n with
  | zero => exact ⟨[d], rfl, .first h hd⟩
  | succ n ih =>
    obtain ⟨l, hlen, hl⟩ := ih (by omega)
    obtain ⟨d', hl'⟩ := hl.next hw hlen (by omega)
    exact ⟨l ++ [d'], by simp [hlen], hl'⟩

/-- The pin holds a bit for the bit's length (R111, R133). -/
theorem BitLengths.bit_on_pin {l : List Nat} (h : BitLengths c s frames l) (hd : l[j]? = some d) (hk : k < d)
    (hf : frames[j / 10]? = some f) :
    ∃ t, Host.Core.run Sys2Proof.core (bitStart l j + j / 10 * (c.txGapBits * c.ticksPerBit) + k + 1) s = .next t
      ∧ t.txPin = .driven (f.getLsbD (j % 10)) := by
  obtain ⟨u, hu, hbit⟩ := h.starts j d hd
  obtain ⟨t, ht, hpin⟩ := hbit.drives_within hk
  obtain ⟨hj, rfl⟩ := List.getElem?_eq_some_iff.1 hf
  rw [List.drop_eq_getElem_cons hj] at hpin
  exact ⟨t, (run_add _ (k + 1) s u hu).trans ht, hpin⟩

/-- The pin is at 0 for the gap between two frames (R114, R133). -/
theorem BitLengths.gap_on_pin (hw : c.wf) {l : List Nat} (h : BitLengths c s frames l)
    (hl : l.length = 10 * frames.length) (hi : i + 1 < frames.length) (hk : k < c.txGapBits * c.ticksPerBit) :
    ∃ t, Host.Core.run Sys2Proof.core
        (bitStart l (10 * (i + 1)) + i * (c.txGapBits * c.ticksPerBit) + k + 1) s = .next t
      ∧ t.txPin = .driven false := by
  have hstop : l[10 * i + 9]? = some l[10 * i + 9] := List.getElem?_eq_getElem (by omega)
  obtain ⟨u, hu, hbit⟩ := h.starts _ _ hstop
  rw [show (10 * i + 9) / 10 = i by omega] at hu hbit
  rw [show (10 * i + 9) % 10 = 9 by omega] at hbit
  obtain ⟨v, hv, hgap⟩ := hbit.gapStart hw (h.range _ (List.getElem_mem _)) hi
    (Nat.pos_of_ne_zero fun hz => by rw [hz, Nat.zero_mul] at hk; omega)
  obtain ⟨t, ht, hpin⟩ := hgap.drives_within hk
  refine ⟨t, ?_, hpin⟩
  rw [show 10 * (i + 1) = 10 * i + 9 + 1 by omega, bitStart_succ hstop, ← ht, ← run_add _ _ u v hv,
    ← run_add _ _ s u hu]
  congr 1
  omega

/-! ## The statement -/

/-- Settles O37: the first part is TX_STEP case by case; the second follows the bits one after the other
(`InFlight.bitLengths`). -/
theorem sendHoldsEachBitForItsPeriod : Obligations.SendHoldsEachBitForItsPeriod := by
  refine ⟨fun s hf ha => ?phase, fun s hf hi hr ha hl hgap hbit hmin hmax hw => ?send⟩
  case phase =>
    rw [txPhase_active hf ha]
    exact ⟨by simp [txPhase], txStep_counts, txStep_gapEnds, txStep_nextBit, fun f g rest ht hg hb hfr =>
      ⟨txStep_nextFrame ht hg hb hfr, txStep_gapBegins ht hg hb hfr⟩⟩
  case send =>
    have hflight : InFlight s.cfg false s.txFrames 0 s.txTimer s := ⟨hf, hi, hr, ha, hl, rfl, hgap, rfl, hbit, rfl⟩
    obtain ⟨l, hlen, hbits⟩ : ∃ l, l.length = 10 * s.txFrames.length ∧ BitLengths s.cfg s s.txFrames l := by
      rcases Nat.eq_zero_or_pos s.txFrames.length with h0 | hpos
      · exact ⟨[], by simp [h0], by simp, by simp⟩
      · obtain ⟨l, hlen, hbits⟩ := hflight.bitLengths (n := 10 * s.txFrames.length - 1) hw ⟨hmin, hmax⟩ (by omega)
        exact ⟨l, by omega, hbits⟩
    exact ⟨l, hlen, hbits.range, fun j k d f hd hk hfr => hbits.bit_on_pin hd hk hfr,
      fun i k hi hk => hbits.gap_on_pin hw hlen hi hk⟩

end Sys2Proof.Machine
end

section
/-! SEND at the block's edge: what an admission leaves, when there is none, and the level the pin shows (R130 to R133,
R135, R136, R140). -/

namespace Sys2Proof.Machine

variable {s : State}

/-! ## SEND -/

/-- SEND that passes the checks of R224 is admitted in `IDLE` and in `DISABLED` (R131, R140). -/
theorem exec_send_admitted (hready : s.ready) (hl : s.link = .idle ∨ s.link = .disabled) (msg : List Byte) :
    exec (.send msg) s = .next (admitSend msg s) := by
  refine (commandGate_ready (.send msg) (runSend msg) s hready).trans ?_
  rcases runSend_cases msg s with ⟨hrej, -⟩ | ⟨-, e⟩
  · rcases hl with hl | hl <;> simp [hl] at hrej
  · exact e

/-- It is rejected while the link receives or transmits (R131). -/
theorem exec_send_rejected (hready : s.ready) (hl : s.link = .rxInProgress ∨ s.link = .txInProgress) (msg : List Byte) :
    exec (.send msg) s = .next (emit (.txRejected s.link) s) := by
  refine (commandGate_ready (.send msg) (runSend msg) s hready).trans ?_
  rcases runSend_cases msg s with ⟨-, e⟩ | ⟨hadm, -⟩
  · exact e
  · rcases hl with hl | hl <;> simp [hl] at hadm

/-- The frame list: the start marker, the bytes that are not cut off, the end marker (R132, R135). -/
theorem sendFrames_eq (c : Config) (msg : List Byte) :
    sendFrames c msg = encodeByte stx :: ((msg.take c.maxTransmitLen).map encodeByte ++ [encodeByte etx]) := by
  rw [sendFrames, sendBody, Nat.min_comm, ← List.take_eq_take_min]
  rfl

/-- F, the number of frames (R132). -/
theorem sendFrames_length (c : Config) (msg : List Byte) :
    (sendFrames c msg).length = min msg.length c.maxTransmitLen + 2 := by
  simp [sendFrames, sendBody]

/-- Settles O10: the SEND is admitted, and the frame list and the mark are those of R132 and R136. -/
theorem admittedSendQueuesItsFrames : Obligations.AdmittedSendQueuesItsFrames := by
  intro s msg hready hl
  have hlink : (if s.link = .idle then .txInProgress else s.link)
      = if s.link = .idle then .txInProgress else .disabled := by
    rcases hl with hl | hl <;> simp [hl]
  rw [exec_send_admitted hready hl, admitSend, hlink, sendFrames_length, sendFrames_eq]
  rfl

/-- Settles O11: the two cases of R131. -/
theorem sendRejectedUnlessIdleOrDisabled : Obligations.SendRejectedUnlessIdleOrDisabled := fun _ msg hready =>
  ⟨fun hl => exec_send_rejected hready hl msg, fun hl => ⟨_, exec_send_admitted hready hl msg, rfl, rfl⟩⟩

/-! ## The pin -/

/-- Before INIT nothing is driven (R133). -/
theorem txDrive_beforeInit (hi : s.initDone = false) : txDrive s = .undriven := by
  simp [txDrive, hi]

/-- During a frame it is the frame's current bit (R133). -/
theorem txDrive_bit {f : Frame} {rest : List Frame} (hi : s.initDone = true) (ha : s.txActive = true)
    (hg : s.txGap = false) (hf : s.txFrames = f :: rest) : txDrive s = .driven (f.getLsbD s.txBit) := by
  simp [txDrive, hi, ha, hg, hf]

/-- In a gap it is the idle level (R114, R133). -/
theorem txDrive_gap (hi : s.initDone = true) (hg : s.txGap = true) : txDrive s = idleDrive := by
  simp [txDrive, hi, hg]

/-- Settles O29: phase 1 sets the pin alone, and its level is that of the three cases. -/
theorem txPinCarriesTheCurrentBit : Obligations.TxPinCarriesTheCurrentBit := by
  intro s hf
  rw [drivePhase_eq hf]
  refine ⟨fun hi => ?before, fun f rest hi ha hg hfr => ?bit, fun hi hrest => ?idle⟩
  case before => rw [txDrive_beforeInit hi]
  case bit => rw [txDrive_bit hi ha hg hfr]
  case idle =>
    rcases hrest with ha | hg
    · rw [txDrive_idle hi ha, idleDrive, idleLevel]
    · rw [txDrive_gap hi hg, idleDrive, idleLevel]

end Sys2Proof.Machine
end

section
/-! A SEND to its end (R133, R134, R137, R139, R140, R150, R154).

A tick of a SEND leaves the receiving side and the consumer alone (`Undisturbed`). Unless it is the last one, it brings
the SEND one tick nearer to its end (`InFlight.advances`): `ticksLeft` counts down, with the shortest and with the
longest bits that may come. -/

namespace Sys2Proof.Machine

variable {s t u : State} {c : Config} {f g : Frame} {frames frames' rest : List Frame} {gap : Bool} {b b' d k n : Nat}

/-! ## What a SEND leaves alone -/

/-- What the transmitter does not write: the receiving side's engine, buffer and flags, and what concerns the consumer
and the trace's labels. -/
structure Undisturbed (s t : State) : Prop where
  rxActive : t.rxActive = s.rxActive
  buf : t.buf = s.buf
  cursor : t.cursor = s.cursor
  dataAvail : t.dataAvail = s.dataAvail
  ovf : t.ovf = s.ovf
  startSeen : t.startSeen = s.startSeen
  results : t.results = s.results
  txTotal : t.txTotal = s.txTotal
  consumer : t.env.consumer = s.env.consumer
  instId : t.env.instId = s.env.instId
  tick : t.env.tick = s.env.tick

theorem Undisturbed.trans (h : Undisturbed s t) (h' : Undisturbed t u) : Undisturbed s u where
  rxActive := h'.rxActive.trans h.rxActive
  buf := h'.buf.trans h.buf
  cursor := h'.cursor.trans h.cursor
  dataAvail := h'.dataAvail.trans h.dataAvail
  ovf := h'.ovf.trans h.ovf
  startSeen := h'.startSeen.trans h.startSeen
  results := h'.results.trans h.results
  txTotal := h'.txTotal.trans h.txTotal
  consumer := h'.consumer.trans h.consumer
  instId := h'.instId.trans h.instId
  tick := h'.tick.trans h.tick

/-- Arming a bit takes a draw and nothing else (R112). -/
theorem armTxTimer_undisturbed (s : State) : Undisturbed s (armTxTimer s) :=
  ⟨rfl, rfl, rfl, rfl, rfl, rfl, rfl, rfl, by simp, by simp, by simp⟩

/-- TX_STEP stays on the sending side (R133, R134). -/
theorem txStep_undisturbed (s : State) : Undisturbed s (txStep s) := by
  rcases txStep_cases s with ⟨-, e⟩ | ⟨-, -, e⟩ | ⟨-, -, -, e⟩ | ⟨-, -, -, -, e⟩ | ⟨-, -, -, -, -, e⟩ |
    ⟨-, -, -, -, -, e⟩ <;> rw [e]
  case inr.inl | inr.inr.inl | inr.inr.inr.inr.inr => exact { armTxTimer_undisturbed _ with }
  all_goals exact ⟨rfl, rfl, rfl, rfl, rfl, rfl, rfl, rfl, rfl, rfl, rfl⟩

/-- TX_STEP gives up the link only when it stops the engine (R134). -/
theorem txStep_link_of_txActive (h : (txStep s).txActive = true) : (txStep s).link = s.link := by
  rcases txStep_cases s with ⟨-, e⟩ | ⟨-, -, e⟩ | ⟨-, -, -, e⟩ | ⟨-, -, -, -, e⟩ | ⟨-, -, -, -, -, e⟩ |
    ⟨-, -, -, -, -, e⟩ <;> rw [e] at h ⊢
  case inr.inr.inr.inl => cases h
  all_goals rfl

/-- A tick of a SEND in flight leaves the receiving side and the consumer alone, and the link while it goes on (R134,
R137, R154). -/
theorem InFlight.step_undisturbed (h : InFlight c gap frames b n s) :
    ∃ u, step s = .next (endTick u) ∧ Undisturbed s u ∧ (u.txActive = true → u.link = s.link) := by
  obtain ⟨v, l, m, hstep, hv, htick, hinst, hcons⟩ := step_sending s h.faulted h.rxActive h.txActive h.link
  have hsv : Undisturbed s v := by
    rw [hv]
    exact ⟨rfl, rfl, rfl, rfl, rfl, rfl, rfl, rfl, hcons, hinst, htick⟩
  have hlink : v.link = s.link := by rw [hv]
  exact ⟨_, hstep, { hsv.trans (txStep_undisturbed v) with }, fun ha => (txStep_link_of_txActive ha).trans hlink⟩

/-- A faulted block that was sending keeps its consumer blocked, and a tick moves nothing but the RX pin and the
surroundings (R137, R223). -/
theorem step_faulted_sending (hf : s.faulted ≠ none) (ha : s.txActive = true) :
    ∃ u, step s = .next (endTick u) ∧ Undisturbed s u ∧ u.txActive = true ∧ u.link = s.link := by
  have hf' : isFaulted s = true := (isFaulted_eq_true s).2 hf
  have hdrive : drivePhase s = s := if_pos hf'
  obtain ⟨p, e, hline, htick, hinst, hcons⟩ := linePhase_cases s
  obtain ⟨u, hu⟩ : ∃ u, u = { s with rxPin := p, env := e } := ⟨_, rfl⟩
  have hfu : isFaulted u = true := hu ▸ hf'
  have h3 : edgeDetect u = u := if_pos hfu
  have h4 : rxPhase u = .next u := if_pos hfu
  have h5 : consumerPhase u = .next u := if_pos (hu ▸ ha)
  have h6 : txPhase u.txActive u = u := if_pos hfu
  have h7 : watchdogPhase u = u := by
    rcases watchdogPhase_cases u with ⟨-, h⟩ | ⟨-, -, hn, -⟩
    · exact h
    · exact absurd hn ((isFaulted_eq_true u).1 hfu)
  have hstep : step s = .next (endTick u) :=
    (step_eq_next s _).2 ⟨u, u, by rw [hdrive, hline, ← hu, h3, h4], h5, by rw [afterConsumer, h6, h7]⟩
  subst hu
  exact ⟨_, hstep, ⟨rfl, rfl, rfl, rfl, rfl, rfl, rfl, rfl, hcons, hinst, htick⟩, ha, rfl⟩

/-! ## Under the invariant -/

/-- No receive runs beside a SEND (R42). -/
theorem Running.rxActive_of_txActive (r : Running s) (ha : s.txActive = true) : s.rxActive = false := by
  simpa [ha] using r.exclusive

/-- A SEND in flight in a state of the invariant (R42). -/
theorem Inv.inFlight (h : Inv s) (hi : s.initDone = true) (ha : s.txActive = true) (hf : s.faulted = none) :
    InFlight s.cfg s.txGap s.txFrames s.txBit s.txTimer s where
  faulted := hf
  initDone := hi
  rxActive := (h.afterInit hi).rxActive_of_txActive ha
  txActive := ha
  link := (h.afterInit hi).txActive_link ha
  cfg := rfl
  txGap := rfl
  txFrames := rfl
  txBit := rfl
  txTimer := rfl

/-- Settles O52: a tick of a SEND is `Undisturbed`, whether the block is faulted or not. -/
theorem sendingExcludesReceiving : Obligations.SendingExcludesReceiving := by
  intro s hs hi ha
  obtain ⟨u, hstep, hu⟩ : ∃ u, step s = .next (endTick u) ∧ Undisturbed s u := by
    by_cases hf : s.faulted = none
    · obtain ⟨u, hstep, hu, -⟩ := (hs.inFlight hi ha hf).step_undisturbed
      exact ⟨u, hstep, hu⟩
    · obtain ⟨u, hstep, hu, -⟩ := step_faulted_sending hf ha
      exact ⟨u, hstep, hu⟩
  exact ⟨_, hstep, hu.rxActive.trans ((hs.afterInit hi).rxActive_of_txActive ha), hu.buf, hu.cursor, hu.dataAvail,
    hu.ovf, hu.startSeen, hu.consumer, hu.results⟩

/-! ## The last tick -/

/-- The last tick of the last stop bit (R134). -/
structure LastTick (s : State) : Prop where
  txTimer : s.txTimer = 1
  txGap : s.txGap = false
  txBit : s.txBit = 9
  txFrames : s.txFrames.length = 1

/-- After the last stop bit TX_STEP completes the SEND (R134). -/
theorem txStep_completes (h : LastTick s) : txStep s = txComplete { s with txTimer := 0, txFrames := [] } := by
  have htail : s.txFrames.tail = [] := List.eq_nil_of_length_eq_zero (by rw [List.length_tail, h.txFrames])
  simp [txStep, txFrameEnd, h.txTimer, h.txGap, h.txBit, htail]

/-- The state after it: the engine is idle, the link free unless disabled, and the event is in the trace (R134,
R140). -/
structure SendDone (s t : State) : Prop where
  txActive : t.txActive = false
  link : t.link = if s.link = .txInProgress then .idle else .disabled
  event : (⟨s.env.tick, s.env.instId, .txDone s.txTotal⟩ : TraceEntry) ∈ t.trace

/-- The last tick ends the SEND (R134, R140). -/
theorem InFlight.lastTick (h : InFlight c gap frames b n s) (hlast : LastTick s) :
    ∃ u, step s = .next (endTick u) ∧ SendDone s u := by
  obtain ⟨v, l, m, hstep, hv, htick, hinst, -⟩ := step_sending s h.faulted h.rxActive h.txActive h.link
  have hlastv : LastTick v := by
    rw [hv]
    exact { hlast with }
  have hlink : v.link = s.link := by rw [hv]
  have htotal : v.txTotal = s.txTotal := by rw [hv]
  refine ⟨_, hstep, ?_⟩
  rw [txStep_completes hlastv]
  refine ⟨rfl, ?_, ?_⟩
  · rcases h.link with hl | hl <;> simp [txComplete, hlink, hl]
  · simp [txComplete, htick, hinst, htotal]

/-! ## The ticks before -/

/-- How many bits are to come after the current bit, or after the gap. -/
def bitsToCome (s : State) : Nat := 10 * s.txFrames.length - if s.txGap then 0 else s.txBit + 1

/-- How many ticks a SEND has left if each bit to come lasts `p` ticks (R139). -/
def ticksLeft (p : Nat) (s : State) : Nat :=
  s.txTimer + p * bitsToCome s + s.cfg.txGapBits * s.cfg.ticksPerBit * (s.txFrames.length - 1)

theorem InFlight.bitsToCome_eq (h : InFlight c gap frames b n s) :
    bitsToCome s = 10 * frames.length - if gap then 0 else b + 1 := by
  rw [bitsToCome, h.txFrames, h.txGap, h.txBit]

theorem InFlight.bitsToCome_of_bit (h : InFlight c false frames b n s) : bitsToCome s = 10 * frames.length - (b + 1) :=
  h.bitsToCome_eq

theorem InFlight.bitsToCome_of_gap (h : InFlight c true frames b n s) : bitsToCome s = 10 * frames.length :=
  h.bitsToCome_eq

theorem InFlight.ticksLeft_eq (h : InFlight c gap frames b n s) (p : Nat) :
    ticksLeft p s = n + p * bitsToCome s + c.txGapBits * c.ticksPerBit * (frames.length - 1) := by
  rw [ticksLeft, h.txTimer, h.cfg, h.txFrames]

/-- A SEND in flight, with the ranges of R34. -/
structure Transmitting (c : Config) (s : State) : Prop where
  inFlight : InFlight c s.txGap s.txFrames s.txBit s.txTimer s
  txFrames : s.txFrames ≠ []
  txBit : s.txBit ≤ 9
  txTimer : 0 < s.txTimer

theorem InFlight.transmitting (h : InFlight c gap frames b n s) (hf : frames ≠ []) (hb : b ≤ 9) (hn : 0 < n) :
    Transmitting c s where
  inFlight := { h with txGap := rfl, txFrames := rfl, txBit := rfl, txTimer := rfl }
  txFrames := h.txFrames ▸ hf
  txBit := h.txBit ▸ hb
  txTimer := h.txTimer ▸ hn

/-- `t` is one tick further on in the SEND of `s`, whichever lengths the bits to come have (R112, R139). -/
structure OneNearer (c : Config) (s t : State) : Prop where
  least : ticksLeft c.ticksPerBit s ≤ ticksLeft c.ticksPerBit t + 1
  most : ticksLeft (c.ticksPerBit + c.txStretchMax) t + 1 ≤ ticksLeft (c.ticksPerBit + c.txStretchMax) s

theorem OneNearer.of_eq (h : ∀ p, ticksLeft p s = ticksLeft p t + 1) : OneNearer c s t := ⟨(h _).le, (h _).ge⟩

/-- A tick that is not the last of its bit or gap is one of the ticks left. -/
theorem InFlight.oneNearer_of_count (h : InFlight c gap frames b (n + 1) s) (h' : InFlight c gap frames b n t) :
    OneNearer c s t :=
  .of_eq fun p => by
    rw [h.ticksLeft_eq, h'.ticksLeft_eq, h.bitsToCome_eq, h'.bitsToCome_eq]
    omega

/-- The last tick before a bit brings that bit's length into the count, which is in the range of R112. -/
theorem InFlight.oneNearer_of_bit (h : InFlight c gap frames b 1 s) (h' : InFlight c false frames' b' d t)
    (hd : BitLength c d) (hbits : bitsToCome s = bitsToCome t + 1)
    (hgaps : c.txGapBits * c.ticksPerBit * (frames.length - 1)
      = c.txGapBits * c.ticksPerBit * (frames'.length - 1)) : OneNearer c s t := by
  obtain ⟨hmin, hmax⟩ := hd
  constructor
  all_goals
    rw [h.ticksLeft_eq, h'.ticksLeft_eq, hbits, hgaps, Nat.mul_succ]
    omega

/-- The last tick before a gap takes the gap out of those to come. -/
theorem InFlight.oneNearer_of_gap (h : InFlight c false (f :: g :: rest) 9 1 s)
    (h' : InFlight c true (g :: rest) 9 (c.txGapBits * c.ticksPerBit) t) : OneNearer c s t := by
  have hbits : bitsToCome s = bitsToCome t := by
    rw [h.bitsToCome_of_bit, h'.bitsToCome_of_gap, List.length_cons]
    omega
  refine .of_eq fun p => ?_
  rw [h.ticksLeft_eq, h'.ticksLeft_eq, hbits]
  simp only [List.length_cons, Nat.add_sub_cancel, Nat.mul_succ]
  omega

/-- A tick of a SEND is its last one, or brings it one tick nearer to it (R133, R134). -/
theorem InFlight.advances (hw : c.wf) (h : InFlight c gap frames b n s) (hf : frames ≠ []) (hb : b ≤ 9) (hn : 0 < n) :
    LastTick s ∨ ∃ t, step s = .next t ∧ Transmitting c t ∧ OneNearer c s t := by
  obtain ⟨-, htwo, -⟩ := hw
  have hpos {d : Nat} : BitLength c d → 0 < d := fun ⟨hmin, _⟩ => Nat.lt_of_lt_of_le (by omega) hmin
  have hlen := List.length_pos_iff.2 hf
  rcases Nat.lt_or_ge 1 n with hlong | hshort
  · obtain ⟨m, rfl⟩ : ∃ m, n = m + 2 := ⟨n - 2, by omega⟩
    obtain ⟨t, ht, ht'⟩ := h.counts
    exact .inr ⟨t, ht, ht'.transmitting hf hb (Nat.succ_pos m), h.oneNearer_of_count ht'⟩
  obtain rfl : n = 1 := by omega
  match gap, frames with
  | true, frames =>
    obtain ⟨t, ht, d, hd, ht'⟩ := h.gapEnds
    refine .inr ⟨t, ht, ht'.transmitting hf (Nat.zero_le _) (hpos hd), h.oneNearer_of_bit ht' hd ?_ rfl⟩
    rw [h.bitsToCome_of_gap, ht'.bitsToCome_of_bit]
    omega
  | false, f :: rest =>
    by_cases hb' : b < 9
    · obtain ⟨t, ht, d, hd, ht'⟩ := h.nextBit hb'
      refine .inr ⟨t, ht, ht'.transmitting hf hb' (hpos hd), h.oneNearer_of_bit ht' hd ?_ rfl⟩
      rw [h.bitsToCome_of_bit, ht'.bitsToCome_of_bit]
      omega
    obtain rfl : b = 9 := by omega
    match rest with
    | [] => exact .inl ⟨h.txTimer, h.txGap, h.txBit, congrArg List.length h.txFrames⟩
    | g :: rest =>
      have hf' : g :: rest ≠ [] := List.cons_ne_nil _ _
      rcases Nat.eq_zero_or_pos c.txGapBits with hz | hz
      · obtain ⟨t, ht, d, hd, ht'⟩ := h.nextFrame hz
        refine .inr ⟨t, ht, ht'.transmitting hf' (Nat.zero_le _) (hpos hd),
          h.oneNearer_of_bit ht' hd ?_ (by simp [hz])⟩
        rw [h.bitsToCome_of_bit, ht'.bitsToCome_of_bit, List.length_cons, List.length_cons]
        omega
      · obtain ⟨t, ht, ht'⟩ := h.gapBegins hz
        exact .inr ⟨t, ht, ht'.transmitting hf' (Nat.le_refl _) (Nat.mul_pos hz (by omega)), h.oneNearer_of_gap ht'⟩

/-- Settles O51: a tick that is not the last one leaves the SEND in flight and the link with it. -/
theorem transmittingEndsOnlyAtCompletion : Obligations.TransmittingEndsOnlyAtCompletion := by
  intro s t hs hi hl hstep
  have hrun := hs.afterInit hi
  have ha := hrun.txLink_active hl
  by_cases hf : s.faulted = none
  · have hflight := hs.inFlight hi ha hf
    obtain ⟨hframes, hbit, htimer, -⟩ := hrun.txRanges ha
    rcases hflight.advances hs.cfgWf hframes hbit htimer with hlast | ⟨t', hstep', hnext, -⟩
    · obtain ⟨u, hstep', hdone⟩ := hflight.lastTick hlast
      obtain rfl := Host.Outcome.next.inj (hstep.symm.trans hstep')
      exact .inr ⟨hdone.link.trans (if_pos hl), hdone.txActive, hlast.txTimer, hlast.txGap, hlast.txBit,
        hlast.txFrames⟩
    · obtain rfl := Host.Outcome.next.inj (hstep.symm.trans hstep')
      obtain ⟨u, hstep'', -, hlink⟩ := hflight.step_undisturbed
      obtain rfl := Host.Outcome.next.inj (hstep.symm.trans hstep'')
      exact .inl ⟨(hlink hnext.inFlight.txActive).trans hl, hnext.inFlight.txActive⟩
  · obtain ⟨u, hstep', -, hactive, hlink⟩ := step_faulted_sending hf ha
    obtain rfl := Host.Outcome.next.inj (hstep.symm.trans hstep')
    exact .inl ⟨hlink.trans hl, hactive⟩

/-! ## The whole SEND -/

/-- In `k` ticks the SEND of `s` completes, and up to then it holds the engine, the link and the consumer (R134,
R137). -/
structure CompletesIn (k : Nat) (s : State) : Prop where
  during : ∀ m, m < k → ∃ u, Host.Core.run Sys2Proof.core m s = .next u ∧ u.txActive = true ∧ u.link = s.link
    ∧ u.env.consumer = s.env.consumer
  completion : ∃ t, Host.Core.run Sys2Proof.core k s = .next t
    ∧ t.txActive = false
    ∧ t.link = (if s.link = .txInProgress then .idle else .disabled)
    ∧ t.env.consumer = s.env.consumer
    ∧ (⟨s.env.tick + k - 1, s.env.instId, .txDone s.txTotal⟩ : TraceEntry) ∈ t.trace

/-- The last tick is one tick before the end. -/
theorem InFlight.completesIn_one (h : InFlight c gap frames b n s) (hlast : LastTick s) : CompletesIn 1 s := by
  obtain ⟨u, hstep, hdone⟩ := h.lastTick hlast
  obtain ⟨u', hstep', hkept, -⟩ := h.step_undisturbed
  have hcons : (endTick u).env.consumer = s.env.consumer := by
    rw [Host.Outcome.next.inj (hstep.symm.trans hstep')]
    exact hkept.consumer
  refine ⟨fun m hm => ?_, endTick u, run_succ_of_step 0 s _ hstep, hdone.txActive, hdone.link, hcons, hdone.event⟩
  obtain rfl : m = 0 := by omega
  exact ⟨s, rfl, h.txActive, rfl, rfl⟩

/-- One tick more before it. -/
theorem InFlight.completesIn_succ (h : InFlight c gap frames b n s) (hstep : step s = .next t) (ha : t.txActive = true)
    (ht : CompletesIn k t) : CompletesIn (k + 1) s := by
  obtain ⟨u, hstep', hkept, hlink⟩ := h.step_undisturbed
  obtain rfl := Host.Outcome.next.inj (hstep.symm.trans hstep')
  have hlink : (endTick u).link = s.link := hlink ha
  have hcons : (endTick u).env.consumer = s.env.consumer := hkept.consumer
  refine ⟨fun m hm => ?during, ?completion⟩
  case during =>
    cases m with
    | zero => exact ⟨s, rfl, h.txActive, rfl, rfl⟩
    | succ m =>
      obtain ⟨v, hv, hva, hvl, hvc⟩ := ht.during m (Nat.lt_of_succ_lt_succ hm)
      exact ⟨v, (run_succ_of_step m s _ hstep).trans hv, hva, hvl.trans hlink, hvc.trans hcons⟩
  case completion =>
    obtain ⟨v, hv, hva, hvl, hvc, hvt⟩ := ht.completion
    refine ⟨v, (run_succ_of_step k s _ hstep).trans hv, hva, hlink ▸ hvl, hvc.trans hcons, ?_⟩
    have htick : (endTick u).env.tick = s.env.tick + 1 := congrArg (· + 1) hkept.tick
    have hinst : (endTick u).env.instId = s.env.instId := hkept.instId
    rwa [htick, hinst, endTick_txTotal, hkept.txTotal, Nat.add_assoc, Nat.add_comm 1 k] at hvt

/-- A SEND completes, after the ticks that the shortest bits take at the least and those that the longest take at the
most (R139). -/
theorem Transmitting.completes (hw : c.wf) (h : Transmitting c s) :
    ∃ k, ticksLeft c.ticksPerBit s ≤ k ∧ k ≤ ticksLeft (c.ticksPerBit + c.txStretchMax) s ∧ CompletesIn k s := by
  induction hm : ticksLeft (c.ticksPerBit + c.txStretchMax) s using Nat.strong_induction_on generalizing s with
  | _ m ih =>
    rcases h.inFlight.advances hw h.txFrames h.txBit h.txTimer with hlast | ⟨t, hstep, hnext, hleast, hmost⟩
    · have hleft (p : Nat) : ticksLeft p s = 1 := by
        simp [ticksLeft, bitsToCome, hlast.txTimer, hlast.txGap, hlast.txBit, hlast.txFrames]
      exact ⟨1, (hleft _).le, (hm.symm.trans (hleft _)).ge, h.inFlight.completesIn_one hlast⟩
    · obtain ⟨k, hlo, hhi, hk⟩ := ih _ (by omega) hnext rfl
      exact ⟨k + 1, by omega, by omega, h.inFlight.completesIn_succ hstep hnext.inFlight.txActive hk⟩

/-- From its first bit on, a SEND has the ticks left that its bits and gaps take (R139). -/
theorem InFlight.ticksLeft_start (h : InFlight c false frames 0 n s) (hf : frames ≠ []) (p : Nat) :
    ticksLeft p s + p = n + 10 * p * frames.length + c.txGapBits * c.ticksPerBit * (frames.length - 1) := by
  have hpos := List.length_pos_iff.2 hf
  have hbits : bitsToCome s + 1 = 10 * frames.length := by
    rw [h.bitsToCome_of_bit]
    omega
  have hall : p * bitsToCome s + p = 10 * p * frames.length := by
    rw [← Nat.mul_succ, Nat.succ_eq_add_one, hbits]
    ring
  rw [h.ticksLeft_eq]
  omega

/-- Settles O38: an admission leaves the SEND in its first bit, and from there the ticks left are the duration of R139
and, at the most, a stretch for each bit. -/
theorem sendCompletesAfterItsDuration : Obligations.SendCompletesAfterItsDuration := by
  intro s hf hi hr ha hl hgap hbit hmin hmax hw hframes htotal
  have hflight : InFlight s.cfg false s.txFrames 0 s.txTimer s := ⟨hf, hi, hr, ha, hl, rfl, hgap, rfl, hbit, rfl⟩
  have ⟨_, htwo, _⟩ := hw
  obtain ⟨k, hlo, hhi, hk⟩ := (hflight.transmitting hframes (Nat.zero_le _) (by omega)).completes hw
  have hleast := hflight.ticksLeft_start hframes s.cfg.ticksPerBit
  have hmost := hflight.ticksLeft_start hframes (s.cfg.ticksPerBit + s.cfg.txStretchMax)
  have hstretch : 10 * (s.cfg.ticksPerBit + s.cfg.txStretchMax) * s.txFrames.length
      = 10 * s.cfg.ticksPerBit * s.txFrames.length + 10 * s.txFrames.length * s.cfg.txStretchMax := by ring
  refine ⟨k, ?_, ?_, hk.during, htotal ▸ hk.completion⟩
  all_goals
    unfold sendDuration
    omega

end Sys2Proof.Machine
end

section
/-! The link arbiter (R150 to R157): INIT, DISABLE, ENABLE and the watchdog, the way out of `DISABLED`, and the receive
that a block without a watchdog never gives up.

In a tick only the consumer's phase takes the link out of `DISABLED`: an edge bails there, and phases 6 and 7 move a
link that is sending or receiving and no other. -/

namespace Sys2Proof.Machine

variable {s t s₀ : State}

/-! ## The commands -/

/-- INIT beside no receive runs its own rule, before the first INIT as after it (R151, R224). -/
theorem exec_init_runs (hf : s.faulted = none) (hr : s.rxActive = false) : exec .init s = runInit s := by
  rcases initGate_cases .init runInit s with ⟨hf', -⟩ | ⟨-, hr', -⟩ | ⟨-, -, e⟩
  · exact absurd hf hf'
  · cases hr'.symm.trans hr
  · exact e

/-- Settles O9: the two checks of INIT are passed, and the next state is that of its rule. -/
theorem initResetsTheLink : Obligations.InitResetsTheLink := fun _ hf hr => exec_init_runs hf hr

/-- Settles O18: the checks of R224 are passed, and DISABLE's own rule asks for no link state. -/
theorem disableAbandonsTheReceive : Obligations.DisableAbandonsTheReceive := fun s hready =>
  commandGate_ready .disable (fun s => .next { s with link := .disabled, startSeen := false }) s hready

/-- ENABLE that passes the checks of R224 turns `DISABLED` into `IDLE` (R153). -/
theorem exec_enable_ready (h : s.ready) :
    exec .enable s = .next { s with link := if s.link = .disabled then .idle else s.link } :=
  commandGate_ready .enable (fun s => .next { s with link := if s.link = .disabled then .idle else s.link }) s h

/-- Settles O19: the two cases of R153. -/
theorem enableOnlyLeavesDisabled : Obligations.EnableOnlyLeavesDisabled := by
  intro s hready
  rw [exec_enable_ready hready]
  refine ⟨fun hl => ?disabled, fun hl => ?other⟩
  case disabled => rw [if_pos hl]
  case other => rw [if_neg hl]

/-! ## The watchdog -/

/-- A block without a watchdog does nothing in phase 7 (R156). -/
theorem watchdogPhase_none (hk : s.cfg.rxTimeoutBits = none) : watchdogPhase s = s := by
  simp [watchdogPhase, hk]

/-- A watchdog runs in every tick after INIT, unless the block is faulted (R157). -/
theorem watchdogPhase_some {k : Nat} (hf : s.faulted = none) (hi : s.initDone = true)
    (hk : s.cfg.rxTimeoutBits = some k) : watchdogPhase s = watchdogStep k s := by
  simp [watchdogPhase, hk, (isFaulted_eq_false s).2 hf, hi]

/-- Settles O39: the three cases of R157. -/
theorem watchdogForcesIdleAfterItsTime : Obligations.WatchdogForcesIdleAfterItsTime := by
  intro s k hf hi hk
  rw [watchdogPhase_some hf hi hk, watchdogStep]
  refine ⟨fun hidle => ⟨fun hle => ?out, fun hlt => ?count⟩, fun hbusy => ?rest⟩
  case out =>
    rw [if_pos hidle, if_pos hle]
    rfl
  case count => rw [if_pos hidle, if_neg (Nat.not_le.2 hlt)]
  case rest => rw [if_neg hbusy]

/-! ## Out of `DISABLED` -/

/-- A disabled link receives nothing, before INIT because nothing does (R152, R251). -/
theorem Inv.rxActive_of_disabled (h : Inv s) (hl : s.link = .disabled) : s.rxActive = false := by
  by_contra ha
  have ha : s.rxActive = true := by simpa using ha
  rcases (h.afterInit (h.initDone_of_rxActive ha)).rxActive_link ha with hl' | hl' <;> cases hl'.symm.trans hl

/-- Phases 1 to 3 leave the link, the RX engine and the consumer alone. -/
theorem lineSide_frame (s : State) :
    (edgeDetect (linePhase (drivePhase s))).link = s.link
      ∧ (edgeDetect (linePhase (drivePhase s))).rxActive = s.rxActive
      ∧ (edgeDetect (linePhase (drivePhase s))).env.consumer = s.env.consumer := by
  obtain ⟨p, e, hline, -, -, hcons⟩ := linePhase_cases (drivePhase s)
  refine ⟨by simp, by simp, ?_⟩
  rw [edgeDetect_env, hline]
  exact hcons.trans (by rw [drivePhase_env])

/-- An edge that comes to a disabled link waits or bails, so phase 4 keeps the link and the consumer (R172, R173). -/
theorem rxPhase_disabled (hr : s.rxActive = false) (hl : s.link = .disabled) (h : rxPhase s = .next t) :
    t.link = .disabled ∧ t.env.consumer = s.env.consumer := by
  by_cases hf : s.faulted = none
  · obtain ⟨v, l, h4, hv, -, -, hcons⟩ := rxPhase_sending s hf hr (.inr hl)
    obtain rfl := Host.Outcome.next.inj (h.symm.trans h4)
    exact ⟨(congrArg State.link hv :).trans hl, hcons⟩
  · have h4 : rxPhase s = .next s := if_pos ((isFaulted_eq_true s).2 hf)
    obtain rfl := Host.Outcome.next.inj (h.symm.trans h4)
    exact ⟨hl, rfl⟩

/-- Of the commands, only ENABLE and INIT take a disabled link out of `DISABLED`, and they leave it in `IDLE` (R140,
R151 to R153). -/
theorem exec_command_disabled {cmd : CmdWord} {operand : List Byte} {i : Instr} (hl : s.link = .disabled)
    (hd : decode (.command cmd operand) = .ok i) (hx : exec i s = .next t) :
    t.link = .disabled ∨ (t.link = .idle ∧ (i = .enable ∨ i = .init)) := by
  rcases exec_command_cases cmd operand i s t hd hx with ⟨-, rfl⟩ | ⟨-, -, -, rfl⟩ | ⟨-, -, rfl⟩ |
    ⟨-, -, hi, hinit⟩ | ⟨-, ⟨msg, -, hsend⟩ | ⟨-, rfl⟩ | ⟨-, hread⟩ | ⟨-, rfl⟩ | ⟨-, rfl⟩ | ⟨hi, rfl⟩⟩
  · exact .inl hl
  · exact .inl hl
  · exact .inl hl
  · obtain rfl := Host.Outcome.next.inj hinit
    exact .inr ⟨rfl, .inr hi⟩
  · rcases runSend_cases msg s with ⟨-, e⟩ | ⟨-, e⟩ <;> obtain rfl := Host.Outcome.next.inj (hsend.symm.trans e)
    · exact .inl hl
    · exact .inl (by simp [admitSend, hl])
  · exact .inl hl
  · obtain ⟨l, -, rfl⟩ := runReadAndClear_next s t hread
    exact .inl hl
  · exact .inl hl
  · exact .inl rfl
  · exact .inr ⟨(if_pos hl :), .inl hi⟩

/-- The consumer's phase takes a disabled link to `IDLE` by the word of ENABLE or of INIT, and else keeps it (R88,
R150). -/
theorem consumerPhase_disabled (hl : s.link = .disabled) (h : consumerPhase s = .next t) :
    t.link = .disabled ∨ (t.link = .idle ∧ ∃ operand rest,
      s.env.consumer = .issue 0x07 operand :: rest ∨ s.env.consumer = .issue 0x01 operand :: rest) := by
  rcases consumerPhase_cases s t h with ⟨-, rfl⟩ | ⟨-, -, rfl⟩ | ⟨-, -, rfl⟩ |
    ⟨cmd, operand, rest, i, -, hcons, hd, hx⟩ | ⟨-, -, -, w, -, -, -, rfl⟩
  · exact .inl hl
  · exact .inl hl
  · exact .inl hl
  · obtain ⟨-, hword⟩ := (commandWordsAreOneToSeven cmd operand).2 i hd
    rcases exec_command_disabled (s := popConsumer s) hl hd hx with hl' | ⟨hl', rfl | rfl⟩
    · exact .inl hl'
    · obtain rfl : 0x07 = cmd := hword
      exact .inr ⟨hl', operand, rest, .inl hcons⟩
    · obtain rfl : 0x01 = cmd := hword
      exact .inr ⟨hl', operand, rest, .inr hcons⟩
  · exact .inl (by simp [hl])

/-- TX_STEP gives up no link but its own (R134, R140). -/
theorem txStep_link_of_ne (hl : s.link ≠ .txInProgress) : (txStep s).link = s.link := by
  rcases txStep_cases s with ⟨-, e⟩ | ⟨-, -, e⟩ | ⟨-, -, -, e⟩ | ⟨-, -, -, -, e⟩ | ⟨-, -, -, -, -, e⟩ |
    ⟨-, -, -, -, -, e⟩ <;> rw [e]
  case inr.inr.inr.inl => exact if_neg hl
  all_goals rfl

/-- Phases 6 and 7 move a link that is sending or receiving and no other (R134, R157). -/
theorem afterConsumer_link (wasActive : Bool) (htx : s.link ≠ .txInProgress) (hrx : s.link ≠ .rxInProgress) :
    (afterConsumer wasActive s).link = s.link := by
  have h6 : (txPhase wasActive s).link = s.link := by
    rcases txPhase_cases wasActive s with ⟨-, e⟩ | ⟨-, -, -, e⟩ <;> rw [e]
    exact txStep_link_of_ne htx
  obtain ⟨n, h7⟩ := watchdogPhase_idle (txPhase wasActive s) fun ⟨hl, _⟩ => hrx (h6.symm.trans hl)
  rw [afterConsumer, h7]
  exact h6

/-- Settles O50: up to phase 4 the link is still disabled, and after the consumer's phase it is disabled or idle, which
phases 6 and 7 keep. -/
theorem disabledIsLeftOnlyByCommand : Obligations.DisabledIsLeftOnlyByCommand := by
  intro s t hs hl hstep hne
  obtain ⟨s4, s5, h4, h5, rfl⟩ := (step_eq_next s t).1 hstep
  obtain ⟨hlink3, hrx3, hcons3⟩ := lineSide_frame s
  obtain ⟨hlink4, hcons4⟩ := rxPhase_disabled (hrx3.trans (hs.rxActive_of_disabled hl)) (hlink3.trans hl) h4
  rw [← hcons3, ← hcons4]
  rcases consumerPhase_disabled hlink4 h5 with hl5 | ⟨hl5, hword⟩
  · exact absurd ((afterConsumer_link _ (by simp [hl5]) (by simp [hl5])).trans hl5) hne
  · exact ⟨(afterConsumer_link _ (by simp [hl5]) (by simp [hl5])).trans hl5, hword⟩

/-! ## A receive without its end marker -/

/-- A receive that waits for its next frame, in a block without a watchdog whose consumer issues nothing, and that
holds the message and the trace of `s₀`. -/
structure Stuck (s₀ s : State) : Prop where
  faulted : s.faulted = none
  initDone : s.initDone = true
  link : s.link = .rxInProgress
  rxActive : s.rxActive = false
  edgePend : s.edgePend = false
  txActive : s.txActive = false
  noWatchdog : s.cfg.rxTimeoutBits = none
  consumer : s.env.consumer = []
  startSeen : s.startSeen = s₀.startSeen
  cursor : s.cursor = s₀.cursor
  buf : s.buf = s₀.buf
  trace : s.trace = s₀.trace

/-- `Stuck` speaks of no element that phases 1 to 3 write when the line is at 0. -/
theorem Stuck.sensed_idle (h : Stuck s₀ s) : Stuck s₀ (sensed idleLevel s) :=
  { h with edgePend := by simp [sensed, h.edgePend, idleLevel] }

/-- While the line is at 0, phases 4 to 7 have nothing to do: no edge comes, no command, and no watchdog counts (R156,
R170, R172). -/
theorem Stuck.hears_idle (h : Stuck s₀ s) : Hears [idleDrive] s (endTick (sensed idleLevel s)) := by
  have hu := h.sensed_idle
  have h4 := rxPhase_sensed_idle h.rxActive h.edgePend
  have h5 : consumerPhase (sensed idleLevel s) = .next (sensed idleLevel s) := by
    simp [consumerPhase, hu.txActive, hu.consumer]
  have h6 : txPhase false (sensed idleLevel s) = sensed idleLevel s := by simp [txPhase]
  have ht := Tick.of_phases h.faulted (txDrive_idle h.initDone h.txActive) h4 h5
  rw [afterConsumer, hu.txActive, h6, watchdogPhase_none hu.noWatchdog] at ht
  exact .single ht

/-- After a tick in which the line is at 0 the receive is still stuck. -/
theorem Stuck.next_tick (h : Stuck s₀ s) (hline : lineAt s 0 = .driven false) :
    ∃ t, step s = .next t ∧ Stuck s₀ t ∧ ∀ k, lineAt t k = lineAt s (k + 1) := by
  refine step_of_hears h.faulted fun v e hcons hlevel => ?_
  obtain rfl : v = idleLevel := hlevel false hline
  have hs : Stuck s₀ { s with env := e } := { h with consumer := hcons.trans h.consumer }
  exact ⟨_, hs.hears_idle, { hs.sensed_idle with }⟩

/-- And so after any number of them. -/
theorem Stuck.run (h : Stuck s₀ s) (hline : ∀ k, lineAt s k = .driven false) (n : Nat) :
    ∃ t, Host.Core.run Sys2Proof.core n s = .next t ∧ Stuck s₀ t := by
  induction n generalizing s with
  | zero => exact ⟨s, rfl, h⟩
  | succ n ih =>
    obtain ⟨u, hstep, hu, hline'⟩ := h.next_tick (hline 0)
    obtain ⟨t, hrun, ht⟩ := ih hu fun k => (hline' k).trans (hline (k + 1))
    exact ⟨t, (run_succ_of_step n s u hstep).trans hrun, ht⟩

/-- Settles O40: the state is `Stuck`, and stays so with the message that it holds. -/
theorem stuckReceiveStaysStuck : Obligations.StuckReceiveStaysStuck := by
  intro s n hf hi hl hr he ha hk hcons hline
  have hs : Stuck s s := ⟨hf, hi, hl, hr, he, ha, hk, hcons, rfl, rfl, rfl, rfl⟩
  obtain ⟨t, hrun, ht⟩ := hs.run hline n
  exact ⟨t, hrun, ht.link, ht.startSeen, ht.cursor, ht.buf, ht.trace⟩

end Sys2Proof.Machine
end

section
/-! The received-frame classes, one at a time and along a whole message (R178 to R183, R189, R203 to R206).

A whole message is followed byte by byte: `MessageSoFar` says what is kept, dropped and reported of the bytes that have
come, and `MessageOver` what the end marker leaves of it. -/

namespace Sys2Proof.Machine

variable {s t u : State} {l : List Byte} {b : Byte}

/-! ## The classes -/

/-- A received-frame class runs unless the block is faulted (R178, R223). -/
theorem receiveGate_runs (run : State → State) (hf : s.faulted = none) : receiveGate run s = .next (run s) := by
  rcases receiveGate_cases run s with ⟨hf', -⟩ | ⟨-, e⟩
  · exact absurd hf hf'
  · exact e

/-- FRAME_ETX is RX_ETX within a message and RX_ETX_DROP outside one (R180, R181). -/
theorem exec_frameEtx_runs (hf : s.faulted = none) :
    exec .frameEtx s = .next (if s.startSeen then rxEtx s else rxDrop etx s) :=
  receiveGate_runs (fun s => if s.startSeen then rxEtx s else rxDrop etx s) hf

/-- FRAME_DATA is RX_DATA within a message and RX_DROP outside one (R182, R183). -/
theorem exec_frameData_runs (b : Byte) (hf : s.faulted = none) :
    exec (.frameData b) s = .next (if s.startSeen then rxData b s else rxDrop b s) :=
  receiveGate_runs (fun s => if s.startSeen then rxData b s else rxDrop b s) hf

/-- Settles O23: FRAME_STX is RX_STX whether or not a message is under way. -/
theorem startMarkerStartsAMessage : Obligations.StartMarkerStartsAMessage := fun _ hf => receiveGate_runs rxStx hf

/-- Settles O24: RX_ETX with and without room for the terminator. -/
theorem endMarkerEndsTheMessage : Obligations.EndMarkerEndsTheMessage := by
  intro s hf hs
  rw [exec_frameEtx_runs hf, if_pos hs]
  refine ⟨fun hroom => ?fits, fun hfull => ?full⟩
  case fits =>
    rw [rxEtx_fits s hroom]
    exact ⟨_, rfl, rfl, slotRead_slotWrite_same _ _ _, fun i hi => slotRead_slotWrite_other _ _ i _ hi⟩
  case full => rw [rxEtx_full s hfull]

/-- Settles O25: outside a message FRAME_ETX only reports the byte. -/
theorem strayEndMarkerIsDropped : Obligations.StrayEndMarkerIsDropped := by
  intro s hf hs
  rw [exec_frameEtx_runs hf, if_neg (by simp [hs])]
  rfl

/-- Settles O26: RX_DATA with and without room for the byte. -/
theorem payloadByteIsStoredOrOverflows : Obligations.PayloadByteIsStoredOrOverflows := by
  intro s b hf hs
  rw [exec_frameData_runs b hf, if_pos hs]
  refine ⟨fun hroom => ?fits, fun hfull => ?full⟩
  case fits =>
    rw [rxData_fits b s hroom]
    exact ⟨_, rfl, rfl, slotRead_slotWrite_same _ _ _, fun i hi => slotRead_slotWrite_other _ _ i _ hi⟩
  case full =>
    rw [rxData_full b s hfull]
    rfl

/-- Settles O27: outside a message FRAME_DATA only reports the byte. -/
theorem byteOutsideAMessageIsDropped : Obligations.ByteOutsideAMessageIsDropped := by
  intro s b hf hs
  rw [exec_frameData_runs b hf, if_neg (by simp [hs])]
  rfl

/-! ## Whole frames -/

/-- A whole frame that the link accepts runs its byte's class (R189). -/
theorem rxFrame_listening (hf : s.faulted = none) (hi : s.initDone = true) (hl : s.listening) (b : Byte) :
    rxFrame b s = exec (classify b) s := by
  have hstays : mustBail s = false := by rcases hl with hl | hl <;> simp [mustBail, hl]
  simp [rxFrame, (isFaulted_eq_false s).2 hf, hi, hstays]

/-- Some whole frames and then some more. -/
theorem rxFrames_append (l' : List Byte) (h : rxFrames l s = .next t) : rxFrames (l ++ l') s = rxFrames l' t := by
  unfold rxFrames at h ⊢
  rw [List.foldl_append, h]

/-- One whole frame. -/
theorem rxFrames_singleton (b : Byte) (s : State) : rxFrames [b] s = rxFrame b s := rfl

/-! ## The bytes of a message -/

/-- Since `s`, a start marker and the payload bytes `l` have come: the first N of them are stored, and each further one
was reported as an overflow (R179, R182, R204, R205). -/
structure MessageSoFar (s : State) (l : List Byte) (t : State) : Prop where
  ready : t.ready
  link : t.link = .rxInProgress
  startSeen : t.startSeen = true
  dataAvail : t.dataAvail = false
  cfg : t.cfg = s.cfg
  env : t.env = s.env
  stores : Stores (l.take s.cfg.rxCapacity) t
  ovf : t.ovf = decide (s.cfg.rxCapacity < l.length)
  trace : t.trace = s.trace ++ (l.drop s.cfg.rxCapacity).map fun b => ⟨s.env.tick, s.env.instId, .overflow b⟩

/-- There is room for one more byte exactly while fewer than N have come. -/
theorem MessageSoFar.fits_iff (h : MessageSoFar s l t) : t.cursor < t.cfg.rxCapacity ↔ l.length < s.cfg.rxCapacity := by
  rw [h.stores.cursor, h.cfg, List.length_take]
  omega

/-- The start marker empties the buffer (R179). -/
theorem MessageSoFar.start (hready : s.ready) : MessageSoFar s [] (rxStx s) where
  ready := hready
  link := rfl
  startSeen := rfl
  dataAvail := rfl
  cfg := rfl
  env := rfl
  stores := ⟨by simp, fun i b hi => by simp at hi⟩
  ovf := by simp
  trace := by simp

/-- A byte that has room is stored behind the others (R182). -/
theorem MessageSoFar.storesByte (h : MessageSoFar s l t) (hroom : l.length < s.cfg.rxCapacity) (b : Byte) :
    MessageSoFar s (l ++ [b]) (rxData b t) := by
  have hlen : (l ++ [b]).length ≤ s.cfg.rxCapacity := by simpa using hroom
  have hpush := h.stores.push b
  rw [List.take_of_length_le hroom.le] at hpush
  rw [rxData_fits b t (h.fits_iff.2 hroom)]
  exact
    { h with
      stores := (List.take_of_length_le hlen).symm ▸ hpush
      ovf := h.ovf.trans (decide_eq_decide.2 (by omega))
      trace := by simpa [List.drop_of_length_le hlen, List.drop_of_length_le hroom.le] using h.trace }

/-- A byte that has no room is dropped and reported (R182, R204, R205). -/
theorem MessageSoFar.dropsByte (h : MessageSoFar s l t) (hfull : s.cfg.rxCapacity ≤ l.length) (b : Byte) :
    MessageSoFar s (l ++ [b]) (rxData b t) := by
  have hcursor : t.cfg.rxCapacity ≤ t.cursor := Nat.not_lt.1 (mt h.fits_iff.1 (Nat.not_lt.2 hfull))
  rw [rxData_full b t hcursor]
  exact
    { h with
      stores := by
        rw [List.take_append_of_le_length hfull]
        exact ⟨h.stores.cursor, h.stores.slots⟩
      ovf := by simpa using hfull
      trace := by simp [reportOverflow, h.trace, h.env, List.drop_append_of_le_length hfull] }

/-- One byte of the payload. -/
theorem MessageSoFar.payloadByte (h : MessageSoFar s l t) (hb : b ≠ stx ∧ b ≠ etx) :
    ∃ u, rxFrame b t = .next u ∧ MessageSoFar s (l ++ [b]) u := by
  obtain ⟨hf, hi, -⟩ := h.ready
  refine ⟨rxData b t, ?_, ?_⟩
  · rw [rxFrame_listening hf hi (.inr h.link), exec_classify_payload hf h.startSeen hb]
  · rcases Nat.lt_or_ge l.length s.cfg.rxCapacity with hroom | hfull
    · exact h.storesByte hroom b
    · exact h.dropsByte hfull b

/-- The bytes of the payload, one after the other. -/
theorem MessageSoFar.payload {msg : List Byte} (h : MessageSoFar s l t) (hmsg : ∀ b, b ∈ msg → b ≠ stx ∧ b ≠ etx) :
    ∃ u, rxFrames msg t = .next u ∧ MessageSoFar s (l ++ msg) u := by
  induction msg generalizing l t with
  | nil => exact ⟨t, rfl, by simpa using h⟩
  | cons b msg ih =>
    obtain ⟨v, hv, hsofar⟩ := h.payloadByte (hmsg b (by simp))
    obtain ⟨u, hu, hsofar⟩ := ih hsofar fun x hx => hmsg x (by simp [hx])
    refine ⟨u, ?_, by simpa using hsofar⟩
    rw [← hu]
    exact rxFrames_append (l := [b]) msg hv

/-! ## The end of a message -/

/-- Since `s`, a whole message of payload `l` has come (R180, R205, R206). -/
structure MessageOver (s : State) (l : List Byte) (t : State) : Prop where
  ready : t.ready
  link : t.link = .idle
  startSeen : t.startSeen = false
  cfg : t.cfg = s.cfg
  cursor : t.cursor = min (l.length + 1) s.cfg.rxCapacity
  slots : ∀ i b, (l.take s.cfg.rxCapacity)[i]? = some b → slotRead t.buf i = some b
  dataAvail : t.dataAvail = decide (l.length + 1 ≤ s.cfg.rxCapacity)
  ovf : t.ovf = decide (s.cfg.rxCapacity < l.length)
  trace : t.trace = s.trace
    ++ (l.drop s.cfg.rxCapacity).map (fun b => ⟨s.env.tick, s.env.instId, .overflow b⟩)
    ++ [⟨s.env.tick, s.env.instId, if l.length + 1 ≤ s.cfg.rxCapacity then .msgReady l.length else .etxLost⟩]

/-- The end marker delivers a message whose terminator has room (R180). -/
theorem MessageSoFar.delivers (h : MessageSoFar s l t) (hroom : l.length < s.cfg.rxCapacity) :
    MessageOver s l (rxEtx t) := by
  have hcursor : t.cursor = l.length := by simpa [hroom.le] using h.stores.cursor
  have hpush := h.stores.push t.cfg.terminator
  rw [rxEtx_fits t (h.fits_iff.2 hroom)]
  exact
    { ready := h.ready
      link := rfl
      startSeen := rfl
      cfg := h.cfg
      cursor := by rw [Nat.min_eq_left hroom]; exact congrArg (· + 1) hcursor
      slots := fun i b hi => by
        obtain ⟨hlt, -⟩ := List.getElem?_eq_some_iff.1 hi
        exact hpush.slots i b ((List.getElem?_append_left hlt).trans hi)
      dataAvail := (decide_eq_true hroom).symm
      ovf := h.ovf
      trace := by simp [h.trace, h.env, hcursor, Nat.succ_le_iff.2 hroom] }

/-- The end marker of a message that fills the buffer is lost (R180, R206). -/
theorem MessageSoFar.losesEnd (h : MessageSoFar s l t) (hfull : s.cfg.rxCapacity ≤ l.length) :
    MessageOver s l (rxEtx t) := by
  have hno : ¬ l.length + 1 ≤ s.cfg.rxCapacity := by omega
  rw [rxEtx_full t (Nat.not_lt.1 (mt h.fits_iff.1 (Nat.not_lt.2 hfull)))]
  exact
    { ready := h.ready
      link := rfl
      startSeen := rfl
      cfg := h.cfg
      cursor := h.stores.cursor.trans (by rw [List.length_take]; omega)
      slots := h.stores.slots
      dataAvail := h.dataAvail.trans (decide_eq_false hno).symm
      ovf := h.ovf
      trace := by simp [h.trace, h.env, hno] }

/-- The end marker. -/
theorem MessageSoFar.endMarker (h : MessageSoFar s l t) : ∃ u, rxFrame etx t = .next u ∧ MessageOver s l u := by
  obtain ⟨hf, hi, -⟩ := h.ready
  refine ⟨rxEtx t, ?_, ?_⟩
  · rw [rxFrame_listening hf hi (.inr h.link), exec_classify_etx hf h.startSeen]
  · rcases Nat.lt_or_ge l.length s.cfg.rxCapacity with hroom | hfull
    · exact h.delivers hroom
    · exact h.losesEnd hfull

/-- READ_AND_CLEAR returns the bytes that were stored for it (R203). -/
theorem exec_readAndClear_stored (hready : s.ready) (hlen : payloadLength s = l.length)
    (hroom : l.length ≤ s.cfg.rxCapacity) (hslots : ∀ i b, l[i]? = some b → slotRead s.buf i = some b) :
    exec .readAndClear s = .next (giveResult (.bytes l) (clearBuffer s)) := by
  have hbytes : (List.range l.length).map (slotValue s) = l := by
    refine List.ext_getElem (by simp) fun i _ hil => ?_
    rw [List.getElem_map, List.getElem_range]
    exact slotValue_written s i _ (hslots i _ (List.getElem?_eq_getElem hil))
  rw [exec_readAndClear_ready hready, runReadAndClear_of_le (hlen ▸ hroom), hlen, hbytes]

/-- What READ_AND_CLEAR returns of a message: its first N bytes, with or without a terminator behind them (R203). -/
theorem MessageOver.read (h : MessageOver s l t) :
    exec .readAndClear t = .next (giveResult (.bytes (l.take s.cfg.rxCapacity)) (clearBuffer t)) := by
  refine exec_readAndClear_stored h.ready ?_ (by rw [h.cfg]; exact List.length_take_le _ _) h.slots
  rw [payloadLength, h.dataAvail, h.cursor, List.length_take]
  simp only [decide_eq_true_eq]
  split <;> omega

/-- Settles O28: the start marker, the payload and the end marker, each followed by its own lemma. -/
theorem messageIsDeliveredIfItFits : Obligations.MessageIsDeliveredIfItFits := by
  intro s l hready hlisten hmsg
  have ⟨hf, hi, _⟩ := hready
  have hstx : rxFrames [stx] s = .next (rxStx s) := by
    rw [rxFrames_singleton, rxFrame_listening hf hi hlisten, exec_classify_stx hf]
  obtain ⟨u, hu, hsofar⟩ := (MessageSoFar.start hready).payload hmsg
  obtain ⟨t, ht, hover⟩ := hsofar.endMarker
  have hrun : rxFrames ([stx] ++ l ++ [etx]) s = .next t := by
    rw [List.append_assoc, rxFrames_append _ hstx, rxFrames_append _ hu]
    exact ht
  exact ⟨t, hrun, hover.link, hover.startSeen, hover.cursor, hover.dataAvail, hover.ovf, hover.trace, hover.read⟩

end Sys2Proof.Machine
end

section
/-! The edge detector and the activation of the RX engine (R170 to R174, R251).

`RX_PREV` and a new `EDGE_PEND` are the work of phase 3 alone: every later phase of a tick leaves `RX_PREV` as it is and
at most clears the flag. -/

namespace Sys2Proof.Machine

variable {s t u : State}

/-! ## The edge detector -/

/-- Settles O31: the detector's one condition, met and not met. -/
theorem edgeDetectorLatchesRisingEdges : Obligations.EdgeDetectorLatchesRisingEdges := by
  intro s hf
  rw [edgeDetect_eq s hf]
  refine ⟨fun ⟨hie, hprev, hpin⟩ => ?rising, fun hno => ?other⟩
  case rising => simp [hie, hprev, hpin]
  case other =>
    have hedge : (s.edgeIE && !s.rxPrev && s.rxPin) = false := by simpa [and_assoc] using hno
    rw [hedge, Bool.or_false]

/-! ## The activation -/

/-- Phase 4 of an idle engine with a pending edge (R172). -/
theorem rxPhase_edge (hf : s.faulted = none) (hi : s.initDone = true) (hr : s.rxActive = false)
    (he : s.edgePend = true) : rxPhase s = .next (waitOrActivate s) := by
  simp [rxPhase, (isFaulted_eq_false s).2 hf, hi, hr, he]

/-- An edge at its latency bound is taken without a draw (R172). -/
theorem waitOrActivate_due (hw : s.cfg.rxLatencyMax ≤ s.rxWaited) :
    waitOrActivate s = handlerEntry { s with rxWaited := 0 } := by
  simp [waitOrActivate, takesEdge, afterEdgeDraw, Nat.not_lt.2 hw]

/-- Below the bound a draw of 1 takes the edge, and else it waits (R172). -/
theorem waitOrActivate_drawn (hw : s.rxWaited < s.cfg.rxLatencyMax) :
    waitOrActivate s =
      if drawValue 1 s.env = 1 then handlerEntry { s with rxWaited := 0, env := drawEnv 1 s.env }
      else { s with rxWaited := s.rxWaited + 1, env := drawEnv 1 s.env } := by
  simp [waitOrActivate, takesEdge, afterEdgeDraw, hw]

/-- Settles O32: the edge is taken, and the handler bails. -/
theorem edgeBailsWhileSendingOrDisabled : Obligations.EdgeBailsWhileSendingOrDisabled := by
  intro s hf hi hr he hw hl
  rw [rxPhase_edge hf hi hr he, waitOrActivate_due hw, handlerEntry_bail { s with rxWaited := 0 } hl]
  rfl

/-- Settles O33: the edge is taken, and the handler starts a receive. -/
theorem edgeStartsAReceive : Obligations.EdgeStartsAReceive := by
  intro s hf hi hr he hw hl
  rw [rxPhase_edge hf hi hr he, waitOrActivate_due hw, handlerEntry_start { s with rxWaited := 0 } hl]
  rfl

/-- Settles O34: the two values of the draw. -/
theorem pendingEdgeWaitsOrIsTaken : Obligations.PendingEdgeWaitsOrIsTaken := by
  intro s hf hi hr he hw
  rw [rxPhase_edge hf hi hr he, waitOrActivate_drawn hw]
  refine ⟨fun hdraw => ?waits, fun hdraw => ?taken⟩
  case waits => rw [if_neg (by simp [hdraw])]
  case taken => rw [if_pos hdraw]

/-! ## The later phases of a tick -/

/-- `RX_PREV` is the same in both states, and no edge is pending in the second that was not in the first. -/
structure NoNewEdge (s t : State) : Prop where
  rxPrev : t.rxPrev = s.rxPrev
  edgePend : t.edgePend = true → s.edgePend = true

theorem NoNewEdge.refl (s : State) : NoNewEdge s s := ⟨rfl, id⟩

theorem NoNewEdge.trans (h : NoNewEdge s t) (h' : NoNewEdge t u) : NoNewEdge s u :=
  ⟨h'.rxPrev.trans h.rxPrev, fun hu => h.edgePend (h'.edgePend hu)⟩

/-- No class of received byte is an edge (R178 to R183). -/
theorem exec_classify_noNewEdge (b : Byte) (hf : s.faulted = none) (hx : exec (classify b) s = .next t) :
    NoNewEdge s t := by
  refine rxComplete_keeps (NoNewEdge s) s t b hf (.refl s) ?stx ?fits ?full ?drop ?data ?overflow hx
  case stx => exact fun _ => ⟨rfl, id⟩
  case fits => exact fun _ _ => ⟨rfl, id⟩
  case full => exact fun _ _ => ⟨rfl, id⟩
  case drop => exact fun _ => ⟨rfl, id⟩
  case data => exact fun _ _ _ => ⟨rfl, id⟩
  case overflow => exact fun _ _ _ => ⟨rfl, id⟩

/-- A pending edge stays pending while it waits, and is cleared when it is taken (R172 to R174). -/
theorem waitOrActivate_noNewEdge (s : State) : NoNewEdge s (waitOrActivate s) := by
  obtain ⟨e, hdraw, -⟩ := afterEdgeDraw_cases s
  rcases waitOrActivate_cases s with ⟨-, -, heq⟩ | ⟨-, -, heq⟩ | ⟨-, -, heq⟩ <;> rw [heq]
  · exact ⟨rfl, id⟩
  · rw [hdraw]; exact ⟨rfl, Bool.noConfusion⟩
  · rw [hdraw]; exact ⟨rfl, Bool.noConfusion⟩

/-- Phase 4, of a receive under way, at its completion, or with a pending edge. -/
theorem rxPhase_noNewEdge (h : rxPhase s = .next t) : NoNewEdge s t := by
  rcases rxPhase_cases s t h with ⟨-, rfl⟩ | ⟨-, -, -, rfl⟩ | ⟨-, -, -, -, rfl⟩ | ⟨hf, -, -, -, hx⟩ |
    ⟨-, -, -, -, rfl⟩ | ⟨-, -, -, rfl⟩
  · exact .refl _
  · exact ⟨rfl, id⟩
  · exact ⟨rfl, id⟩
  · have hreturn : NoNewEdge s (handlerReturn { s with rxTimer := 0 }) := ⟨rfl, Bool.noConfusion⟩
    exact hreturn.trans (exec_classify_noNewEdge s.rxAcc hf hx)
  · exact waitOrActivate_noNewEdge s
  · exact .refl _

/-- Phase 5: of the commands only INIT writes the flag, and clears it (R151). -/
theorem consumerPhase_noNewEdge (h : consumerPhase s = .next t) : NoNewEdge s t := by
  refine consumer_keeps (NoNewEdge s) ?fault ?env ?init ?reject ?send ?result ?clear ?disable ?enable s t (.refl s) h
  case fault => exact fun _ _ _ p => { p with }
  case env => exact fun _ _ p _ _ => { p with }
  case init =>
    intro u v p _ _ _ hinit
    injection hinit with hinit
    subst hinit
    exact ⟨p.rxPrev, Bool.noConfusion⟩
  case reject => exact fun _ _ p => { p with }
  case send => exact fun _ _ _ _ _ p => { p with }
  case result => exact fun _ _ p => { p with }
  case clear => exact fun _ _ p => { p with }
  case disable => exact fun _ _ _ p => { p with }
  case enable => exact fun _ _ _ p => { p with }

/-- Phases 6 and 7 and the end of the tick: the TX engine and the watchdog see no edge (R133, R134, R157). -/
theorem afterConsumer_noNewEdge (wasActive : Bool) (s : State) : NoNewEdge s (afterConsumer wasActive s) := by
  have htx : NoNewEdge s (txPhase wasActive s) := by
    rcases txPhase_cases wasActive s with ⟨-, e⟩ | ⟨-, -, -, e⟩ <;> rw [e]
    · exact .refl s
    · rcases txStep_cases s with ⟨-, e⟩ | ⟨-, -, e⟩ | ⟨-, -, -, e⟩ | ⟨-, -, -, -, e⟩ | ⟨-, -, -, -, -, e⟩ |
        ⟨-, -, -, -, -, e⟩ <;> rw [e] <;> exact ⟨rfl, id⟩
  have hdog : NoNewEdge (txPhase wasActive s) (watchdogPhase (txPhase wasActive s)) := by
    rcases watchdogPhase_cases (txPhase wasActive s) with
      ⟨-, e⟩ | ⟨-, -, -, -, ⟨-, -, -, e⟩ | ⟨-, -, -, e⟩ | ⟨-, e⟩⟩ <;> rw [e] <;> exact ⟨rfl, id⟩
  exact (htx.trans hdog).trans ⟨rfl, id⟩

/-- Phases 4 to 7. -/
theorem afterLine_noNewEdge (h : afterLine s = .next t) : NoNewEdge (edgeDetect s) t := by
  obtain ⟨s4, s5, h4, h5, rfl⟩ := (afterLine_eq_next s t).1 h
  exact ((rxPhase_noNewEdge h4).trans (consumerPhase_noNewEdge h5)).trans (afterConsumer_noNewEdge _ _)

/-- Settles O30: phase 3 sets `RX_PREV` to the pin and latches nothing while `EDGE_IE` is 0, and the later phases keep
the pin, `RX_PREV`, and a flag that is 0. -/
theorem previousLevelFollowsThePin : Obligations.PreviousLevelFollowsThePin := by
  intro s t hf hstep
  have hpins := afterLine_samePins (s := linePhase (drivePhase s)) hstep
  have hedges := afterLine_noNewEdge (s := linePhase (drivePhase s)) hstep
  rw [edgeDetect_eq (linePhase (drivePhase s)) (by simpa using hf)] at hedges
  refine ⟨hedges.rxPrev.trans hpins.rxPin.symm, fun hie ht => ?_⟩
  simpa [hie] using hedges.edgePend ht

end Sys2Proof.Machine
end

section
/-! The consumer's commands on the Receive Buffer (R62, R66, R67, R200, R202, R203). -/

namespace Sys2Proof.Machine

variable {s : State}

/-- IS_DATA_AVAILABLE that passes the checks of R224 hands back the flag (R202). -/
theorem exec_isDataAvailable_ready (h : s.ready) :
    exec .isDataAvailable s = .next (giveResult (.bit s.dataAvail) s) :=
  commandGate_ready .isDataAvailable (fun s => .next (giveResult (.bit s.dataAvail) s)) s h

/-- Settles O12: the command only hands back a result. -/
theorem isDataAvailableReturnsTheFlag : Obligations.IsDataAvailableReturnsTheFlag := by
  intro s hready
  rw [exec_isDataAvailable_ready hready]
  rfl

/-- Settles O16: CLEAR is the clear of the buffer. -/
theorem clearEmptiesTheBuffer : Obligations.ClearEmptiesTheBuffer := by
  intro s hready
  rw [exec_clear_ready hready]
  rfl

/-- Settles O13: the payload's slots all exist, so the list that is read is as long as the payload and has each
written slot's byte in its place; the read then clears. -/
theorem readAndClearReturnsThePayload : Obligations.ReadAndClearReturnsThePayload := by
  intro s hready _ (hk : payloadLength s ≤ s.cfg.rxCapacity)
  have hread := memReadList_eq s (payloadLength s) hk
  refine ⟨_, ((memReadList_ok s _ _).1 hread).1, getElem?_of_memReadList hread, ?_⟩
  rw [exec_readAndClear_ready hready, runReadAndClear_of_le hk]
  rfl

end Sys2Proof.Machine
end

section
/-! The model faults (R89, R222 to R224): a command before INIT raises `UNINIT`, and nothing of a faulted block moves
but its input pin.

In the faulted condition every phase but the line's and the consumer's answers the state it was given, and the consumer
at most moves on to its next action. -/

namespace Sys2Proof.Machine

variable {s : State}

/-! ## The checks of R224 -/

/-- Every command but INIT stands behind the checks of R224. -/
theorem exec_eq_commandGate {i : Instr} {cmd : CmdWord} {operand : List Byte} (he : encode i = .command cmd operand)
    (hne : i ≠ .init) : ∃ run, ∀ s, exec i s = commandGate i run s := by
  cases i with
  | init => exact absurd rfl hne
  | send msg => exact ⟨runSend msg, fun _ => rfl⟩
  | isDataAvailable => exact ⟨fun s => .next (giveResult (.bit s.dataAvail) s), fun _ => rfl⟩
  | readAndClear => exact ⟨runReadAndClear, fun _ => rfl⟩
  | clear => exact ⟨fun s => .next (clearBuffer s), fun _ => rfl⟩
  | disable => exact ⟨fun s => .next { s with link := .disabled, startSeen := false }, fun _ => rfl⟩
  | enable => exact ⟨fun s => .next { s with link := if s.link = .disabled then .idle else s.link }, fun _ => rfl⟩
  | frameStx | frameEtx | frameData => cases he

/-- Before INIT the second check fails, whatever the command's own rule is (R222). -/
theorem exec_uninit {i : Instr} {cmd : CmdWord} {operand : List Byte} (he : encode i = .command cmd operand)
    (hne : i ≠ .init) (hf : s.faulted = none) (hi : s.initDone = false) :
    exec i s = .next { s with faulted := some (.uninit cmd) } := by
  obtain ⟨run, hrun⟩ := exec_eq_commandGate he hne
  have hword : commandWord i = cmd := by rw [commandWord, he]
  rw [hrun, commandGate, if_neg (by simpa using hf), if_pos hi, raiseFault_none _ _ hf, hword]

/-- Settles O20: `exec_uninit` for each of the six words. -/
theorem commandsBeforeInitFault : Obligations.CommandsBeforeInitFault := fun _ _ hf hi =>
  ⟨exec_uninit rfl Instr.noConfusion hf hi, exec_uninit rfl Instr.noConfusion hf hi,
    exec_uninit rfl Instr.noConfusion hf hi, exec_uninit rfl Instr.noConfusion hf hi,
    exec_uninit rfl Instr.noConfusion hf hi, exec_uninit rfl Instr.noConfusion hf hi⟩

/-- A command in the faulted condition fails the first check (R223). -/
theorem exec_command_faulted {i : Instr} {cmd : CmdWord} {operand : List Byte} (he : encode i = .command cmd operand)
    (hne : i ≠ .init) (hf : s.faulted ≠ none) : exec i s = .next s := by
  obtain ⟨run, hrun⟩ := exec_eq_commandGate he hne
  rw [hrun, commandGate, if_pos ((isFaulted_eq_true s).2 hf)]

/-- So does a received byte. -/
theorem receiveGate_faulted (run : State → State) (hf : s.faulted ≠ none) : receiveGate run s = .next s :=
  if_pos ((isFaulted_eq_true s).2 hf)

/-- Settles O22: the first check of every operation is that of R223. -/
theorem faultedInstanceRunsNoOperation : Obligations.FaultedInstanceRunsNoOperation := by
  intro i s hf
  cases i with
  | init => exact if_pos ((isFaulted_eq_true s).2 hf)
  | frameStx => exact receiveGate_faulted rxStx hf
  | frameEtx => exact receiveGate_faulted (fun s => if s.startSeen then rxEtx s else rxDrop etx s) hf
  | frameData b => exact receiveGate_faulted (fun s => if s.startSeen then rxData b s else rxDrop b s) hf
  | _ => exact exec_command_faulted rfl Instr.noConfusion hf

/-! ## A tick in the faulted condition -/

/-- Phases 3 and 4: neither the edge detector nor the RX engine runs. -/
theorem rxPhase_edgeDetect_faulted (hf : s.faulted ≠ none) : rxPhase (edgeDetect s) = .next s := by
  have hf' := (isFaulted_eq_true s).2 hf
  rw [edgeDetect, if_pos hf', rxPhase, if_pos hf']

/-- A command word changes nothing: a legal one runs no operation, and the fault of an illegal one is not the first. -/
theorem issueCommand_faulted (cmd : CmdWord) (operand : List Byte) (hf : s.faulted ≠ none) :
    issueCommand cmd operand s = .next s := by
  unfold issueCommand
  split
  · exact faultedInstanceRunsNoOperation _ s hf
  · rw [raiseFault_some _ s hf]

/-- Phase 5: the consumer at most moves on. -/
theorem consumerPhase_faulted (hf : s.faulted ≠ none) :
    consumerPhase s = .next s ∨ consumerPhase s = .next (popConsumer s) := by
  unfold consumerPhase
  split
  · exact .inl rfl
  split
  · exact .inl rfl
  · exact .inr rfl
  · exact .inr (issueCommand_faulted _ _ hf)

/-- Phases 6 and 7: neither the TX engine nor the watchdog runs. -/
theorem afterConsumer_faulted (wasActive : Bool) (hf : s.faulted ≠ none) : afterConsumer wasActive s = endTick s := by
  have htx : txPhase wasActive s = s := if_pos ((isFaulted_eq_true s).2 hf)
  have hdog : watchdogPhase s = s := by
    rcases watchdogPhase_cases s with ⟨-, h⟩ | ⟨-, -, hn, -⟩
    · exact h
    · exact absurd hn hf
  rw [afterConsumer, htx, hdog]

/-- Phases 3 to 7: the tick ends, and the consumer may have moved on. -/
theorem afterLine_faulted (hf : s.faulted ≠ none) :
    afterLine s = .next (endTick s) ∨ afterLine s = .next (endTick (popConsumer s)) := by
  have hend (t : State) (ht : t.faulted ≠ none) (h5 : consumerPhase s = .next t) : afterLine s = .next (endTick t) :=
    (afterLine_eq_next s _).2
      ⟨s, t, rxPhase_edgeDetect_faulted hf, h5, (afterConsumer_faulted s.txActive ht).symm⟩
  exact (consumerPhase_faulted hf).imp (hend s hf) (hend (popConsumer s) hf)

/-- Settles O45: the line sets the pin, the consumer may move on, and all else stays. -/
theorem faultedInstanceIsFrozen : Obligations.FaultedInstanceIsFrozen := by
  intro s hf
  have hdrive : drivePhase s = s := if_pos ((isFaulted_eq_true s).2 hf)
  obtain ⟨p, e, hline, htick, -⟩ := linePhase_cases s
  have hstep : step s = afterLine { s with rxPin := p, env := e } := by rw [step, runTick, hdrive, hline]
  rw [hstep]
  rcases afterLine_faulted (s := { s with rxPin := p, env := e }) hf with h | h
  all_goals exact ⟨_, h, rfl, congrArg (· + 1) htick⟩

end Sys2Proof.Machine
end

section
/-! The hold (R224, R228, R229): a command that meets a receive under way is put back, and runs in the tick in which the
receive completes.

A tick of the receive that is not its last leaves what the command could have changed alone (`HoldsOff`), and brings the
completion one tick nearer: `waitLeft` counts down, with the shortest and with the longest waits that may come. -/

namespace Sys2Proof.Machine

variable {s t u s₀ : State} {c : Config} {b : Byte} {n : Nat} {cmd : CmdWord} {operand : List Byte}
  {l rest : List ConsumerAction} {i : Instr}

/-! ## The tick of the edge -/

/-- Phases 6 and 7 during a receive, where the transmitter is at rest: at most the watchdog's count moves (R157). -/
theorem afterConsumer_receiving {wasActive : Bool} (ha : wasActive = false) (hr : s.rxActive = true) :
    ∃ k, afterConsumer wasActive s = endTick { s with rxIdleTicks := k } := by
  have htx : txPhase wasActive s = s := by simp [txPhase, ha]
  obtain ⟨k, hdog⟩ := watchdogPhase_idle s (by simp [hr])
  exact ⟨k, by rw [afterConsumer, htx, hdog]⟩

/-- With no latency a rising edge starts a receive in its own tick (R170, R172, R174). -/
theorem rxPhase_sensed_edge (h : s.ready) (hie : s.edgeIE = true) (hprev : s.rxPrev = false) (hl : s.listening)
    (hlat : s.cfg.rxLatencyMax = 0) :
    rxPhase (sensed true s) = .next (handlerStart { sensed true s with rxWaited := 0 }) := by
  obtain ⟨hf, hi, hr⟩ := h
  have hlatency : (sensed true s).cfg.rxLatencyMax ≤ (sensed true s).rxWaited := hlat ▸ Nat.zero_le _
  rw [rxPhase_edge (s := sensed true s) hf hi hr (by simp [sensed, hie, hprev]), waitOrActivate_due hlatency,
    handlerEntry_start { sensed true s with rxWaited := 0 } hl]

/-- Phase 5 during a receive puts the consumer's command back (R228). -/
theorem consumerPhase_held (hf : s.faulted = none) (hi : s.initDone = true) (hr : s.rxActive = true)
    (ha : s.txActive = false) (hc : s.env.consumer = .issue cmd operand :: rest)
    (hd : decode (.command cmd operand) = .ok i) :
    consumerPhase s = .next { s with env := { s.env with consumer := asIssued i ++ rest } } := by
  rw [consumerPhase_issue ha hc hd]
  exact exec_held cmd operand i { s with env := { s.env with consumer := rest } } hd hf hi hr

/-- A tick that finds or starts a receive holds the command, and changes no more than phase 4 does (R228). -/
theorem Tick.of_held {v : Level} (hf : s.faulted = none) (hd : txDrive s = idleDrive)
    (h4 : rxPhase (sensed v s) = .next u) (hfu : u.faulted = none) (hi : u.initDone = true) (hr : u.rxActive = true)
    (ha : u.txActive = false) (hc : u.env.consumer = .issue cmd operand :: rest)
    (hdec : decode (.command cmd operand) = .ok i) :
    ∃ k, Tick idleDrive (.driven v) s
      (endTick { u with rxIdleTicks := k, env := { u.env with consumer := asIssued i ++ rest } }) := by
  have htick := Tick.of_phases hf hd h4 (consumerPhase_held hfu hi hr ha hc hdec)
  obtain ⟨k, hend⟩ :=
    afterConsumer_receiving (s := { u with env := { u.env with consumer := asIssued i ++ rest } }) ha hr
  exact ⟨k, hend ▸ htick⟩

/-- Settles O44: phase 4 starts the receive, so phase 5 finds it under way and holds the command. -/
theorem edgeTakenFirstHoldsTheCommand : Obligations.EdgeTakenFirstHoldsTheCommand := by
  intro s cmd operand rest i hready hie ha hl hprev hlat hedge hc hd
  have ⟨hf, hi, _⟩ := hready
  obtain ⟨t, hstep, ht, -⟩ := step_of_hears hf (Q := fun t =>
    t.rxActive = true ∧ t.rxBit = 0 ∧ t.link = s.link ∧ t.env.consumer = asIssued i ++ rest ∧ t.results = s.results)
    fun v e he hv => by
      obtain rfl := hv true hedge
      have h4 := rxPhase_sensed_edge (s := { s with env := e }) hready hie hprev hl hlat
      obtain ⟨k, htick⟩ := Tick.of_held (s := { s with env := e }) hf (txDrive_idle hi ha) h4 hf hi rfl ha
        (by rw [handlerStart_env, drawEnv_consumer]; exact he.trans hc) hd
      exact ⟨_, .single htick, rfl, rfl, rfl, rfl, rfl⟩
  exact ⟨t, hstep, ht⟩

/-! ## The ticks of the wait -/

/-- A receive under way, with what a held command could change as it is in `s₀`. -/
structure HoldsOff (s₀ s : State) : Prop where
  faulted : s.faulted = none
  initDone : s.initDone = true
  rxActive : s.rxActive = true
  txActive : s.txActive = false
  link : s.link = s₀.link
  cursor : s.cursor = s₀.cursor
  dataAvail : s.dataAvail = s₀.dataAvail
  results : s.results = s₀.results
  cfg : s.cfg = s₀.cfg
  rxBit : s.rxBit ≤ 8
  rxTimer : 0 < s.rxTimer

/-- How many ticks a receive has left if each wait to come lasts `p` ticks (R175, R185). -/
def waitLeft (p : Nat) (s : State) : Nat := s.rxTimer + p * (8 - s.rxBit)

/-- The last tick of the wait for the completion (R176). -/
structure LastWait (s : State) : Prop where
  rxTimer : s.rxTimer = 1
  rxBit : s.rxBit = 8

theorem LastWait.waitLeft (h : LastWait s) (p : Nat) : waitLeft p s = 1 := by
  simp [Machine.waitLeft, h.rxTimer, h.rxBit]

/-- `t` is one tick nearer to the completion than `s`, whichever stretches the waits to come have. -/
structure OneTickNearer (c : Config) (s t : State) : Prop where
  least : waitLeft c.ticksPerBit s ≤ waitLeft c.ticksPerBit t + 1
  most : waitLeft (c.ticksPerBit + c.rxStretchMax) t + 1 ≤ waitLeft (c.ticksPerBit + c.rxStretchMax) s

/-- A tick within a wait is one of the ticks left. -/
theorem OneTickNearer.of_count (hn : s.rxTimer - 1 ≠ 0) (ht : t.rxTimer = s.rxTimer - 1) (hb : t.rxBit = s.rxBit) :
    OneTickNearer c s t := by
  constructor
  all_goals
    rw [waitLeft, waitLeft, ht, hb]
    omega

/-- The last tick of a wait brings the next wait into the count. -/
theorem OneTickNearer.of_sample (hs : s.rxTimer = 1) (hb : s.rxBit < 8) (htb : t.rxBit = s.rxBit + 1)
    (hmin : c.ticksPerBit ≤ t.rxTimer) (hmax : t.rxTimer ≤ c.ticksPerBit + c.rxStretchMax) :
    OneTickNearer c s t := by
  have hbits : 8 - s.rxBit = (8 - t.rxBit) + 1 := by omega
  constructor
  all_goals
    rw [waitLeft, waitLeft, hs, hbits, Nat.mul_succ]
    omega

/-- A tick of a receive is its last one, or holds the command and brings the completion one tick nearer (R175, R228). -/
theorem HoldsOff.advances (hw : s₀.cfg.wf) (h : HoldsOff s₀ s) (hc : s.env.consumer = .issue cmd operand :: rest)
    (hd : decode (.command cmd operand) = .ok i) :
    LastWait s ∨ ∃ t, step s = .next t ∧ HoldsOff s₀ t ∧ t.env.consumer = asIssued i ++ rest
      ∧ OneTickNearer s₀.cfg s t := by
  obtain ⟨-, htwo, -⟩ := hw
  have hbit := h.rxBit
  have hpos := h.rxTimer
  by_cases hlast : s.rxTimer = 1 ∧ s.rxBit = 8
  · exact .inl ⟨hlast.1, hlast.2⟩
  obtain ⟨t, hstep, ht, htime, -, -, hcons⟩ :=
    step_receiving s cmd operand rest i h.faulted h.initDone h.rxActive h.txActive hc hd (by omega)
  have hkeep (hb : t.rxBit ≤ 8) (hn : 0 < t.rxTimer) : HoldsOff s₀ t := by
    rw [ht]
    exact { h with rxBit := hb, rxTimer := hn }
  rw [h.cfg] at htime
  refine .inr ⟨t, hstep, ?_⟩
  rcases htime with ⟨hn, htimer, hb⟩ | ⟨hn, hb, hmin, hmax⟩
  · exact ⟨hkeep (by omega) (by omega), hcons, .of_count hn htimer hb⟩
  · exact ⟨hkeep (by omega) (by omega), hcons, .of_sample (by omega) (by omega) hb hmin hmax⟩

/-! ## The tick of the completion -/

/-- The block can run a command, no SEND blocks the consumer, and the consumer's actions are `l`. -/
structure Awaits (l : List ConsumerAction) (s : State) : Prop where
  ready : s.ready
  txActive : s.txActive = false
  consumer : s.env.consumer = l

/-- A class of received byte lets the consumer's command wait as it is (R178 to R183). -/
theorem exec_classify_awaits (h : Awaits l s) (hx : exec (classify b) s = .next t) :
    Awaits l t := by
  refine rxComplete_keeps (Awaits l) s t b h.ready.1 h ?stx ?fits ?full ?drop ?data ?overflow hx
  case stx => exact fun _ => { h with }
  case fits => exact fun _ _ => { h with }
  case full => exact fun _ _ => { h with }
  case drop => exact fun _ => { h with }
  case data => exact fun _ _ _ => { h with }
  case overflow => exact fun _ _ _ => { h with }

/-- In the last tick of the receive phase 4 completes it, and the command meets no receive any more (R176, R228). -/
theorem HoldsOff.completes (h : HoldsOff s₀ s) (hlast : LastWait s) :
    ∃ s4, rxPhase (edgeDetect (linePhase (drivePhase s))) = .next s4 ∧ Awaits s.env.consumer s4 := by
  obtain ⟨r, hr⟩ : ∃ r, r = edgeDetect (linePhase (drivePhase s)) := ⟨_, rfl⟩
  have hf : r.faulted = none := by simpa [hr] using h.faulted
  have hi : r.initDone = true := by simpa [hr] using h.initDone
  have ha : r.txActive = false := by simpa [hr] using h.txActive
  have hc : r.env.consumer = s.env.consumer := by
    obtain ⟨p, e, hline, -, -, hcons⟩ := linePhase_cases (drivePhase s)
    rw [hr, edgeDetect_env, hline, hcons, drivePhase_env]
  have hreturn : Awaits s.env.consumer (handlerReturn { r with rxTimer := 0 }) := ⟨⟨hf, hi, rfl⟩, ha, hc⟩
  obtain ⟨s4, hx⟩ := exec_classify_completes r.rxAcc hreturn.ready.1
  refine ⟨s4, ?_, exec_classify_awaits hreturn hx⟩
  rw [← hr, rxPhase_completes_receive hf (by simpa [hr] using h.rxActive) (by simpa [hr] using hlast.rxTimer)
    (by simpa [hr] using hlast.rxBit), hx]

/-! ## The whole wait -/

/-- After `n` ticks the receive is in its last one, and up to then every command is held; then the consumer's actions
are `l`. -/
structure EndsAfter (s₀ : State) (l : List ConsumerAction) (n : Nat) (s : State) : Prop where
  during : ∀ m, m ≤ n → ∃ v, Host.Core.run Sys2Proof.core m s = .next v ∧ HoldsOff s₀ v
  last : ∃ u, Host.Core.run Sys2Proof.core n s = .next u ∧ HoldsOff s₀ u ∧ LastWait u ∧ u.env.consumer = l

/-- One tick more before it. -/
theorem EndsAfter.succ (h : HoldsOff s₀ s) (hstep : step s = .next t)
    (ht : EndsAfter s₀ l n t) : EndsAfter s₀ l (n + 1) s := by
  refine ⟨fun m hm => ?during, ?last⟩
  case during =>
    cases m with
    | zero => exact ⟨s, rfl, h⟩
    | succ m =>
      obtain ⟨v, hv, hv'⟩ := ht.during m (Nat.le_of_succ_le_succ hm)
      exact ⟨v, (run_succ_of_step m s t hstep).trans hv, hv'⟩
  case last =>
    obtain ⟨u, hu, hu'⟩ := ht.last
    exact ⟨u, (run_succ_of_step n s t hstep).trans hu, hu'⟩

/-- A command that is held again and again meets the end of the receive, after the ticks that the shortest waits take at
the least and those that the longest take at the most (R185, R228). -/
theorem HoldsOff.endsAfter (hw : s₀.cfg.wf) (h : HoldsOff s₀ s) (hc : s.env.consumer = asIssued i ++ rest)
    (hd : decode (.command cmd operand) = .ok i) :
    ∃ n, waitLeft s₀.cfg.ticksPerBit s ≤ n + 1 ∧ n + 1 ≤ waitLeft (s₀.cfg.ticksPerBit + s₀.cfg.rxStretchMax) s
      ∧ EndsAfter s₀ (asIssued i ++ rest) n s := by
  obtain ⟨cmd', operand', hissue, hd'⟩ := asIssued_command cmd operand i hd
  induction hm : waitLeft (s₀.cfg.ticksPerBit + s₀.cfg.rxStretchMax) s using Nat.strong_induction_on generalizing s with
  | _ m ih =>
    have hnext : s.env.consumer = .issue cmd' operand' :: rest := by rw [hc, hissue]; rfl
    rcases h.advances hw hnext hd' with hlast | ⟨t, hstep, ht, hct, hleast, hmost⟩
    · refine ⟨0, (hlast.waitLeft _).le, (hm.symm.trans (hlast.waitLeft _)).ge, fun k hk => ?_, s, rfl, h, hlast, hc⟩
      obtain rfl : k = 0 := by omega
      exact ⟨s, rfl, h⟩
    · obtain ⟨n, hlo, hhi, hn⟩ := ih _ (by omega) ht hct rfl
      exact ⟨n + 1, by omega, by omega, .succ h hstep hn⟩

/-! ## The statement -/

/-- Settles O21. First part: `exec_held` for each command. Second part: the first tick drops a surplus operand,
`HoldsOff.endsAfter` follows the receive from there, and the tick of its completion runs the command. -/
theorem commandsAreHeldDuringAReceive : Obligations.CommandsAreHeldDuringAReceive := by
  refine ⟨fun s msg hf hi hr => ?held, fun s cmd operand rest i hf hi hr ha hb hmin hmax hw hc hd => ?ends⟩
  case held =>
    exact ⟨exec_held 0x01 [] .init s rfl hf hi hr, exec_held 0x02 msg (.send msg) s rfl hf hi hr,
      exec_held 0x03 [] .isDataAvailable s rfl hf hi hr, exec_held 0x04 [] .readAndClear s rfl hf hi hr,
      exec_held 0x05 [] .clear s rfl hf hi hr, exec_held 0x06 [] .disable s rfl hf hi hr,
      exec_held 0x07 [] .enable s rfl hf hi hr⟩
  case ends =>
    have ⟨heven, htwo, _⟩ := hw
    have h : HoldsOff s s := ⟨hf, hi, hr, ha, rfl, rfl, rfl, rfl, rfl, by omega, by omega⟩
    rcases h.advances hw hc hd with hlast | ⟨t, hstep, ht, hct, hleast, hmost⟩
    · exact absurd (hb.symm.trans hlast.rxBit) (by decide)
    obtain ⟨n, hlo, hhi, hn⟩ := ht.endsAfter hw hct hd
    obtain ⟨hduring, u, hu, hoff, hlast, hcu⟩ := EndsAfter.succ h hstep hn
    obtain ⟨s4, h4, hready, ha4, hc4⟩ := hoff.completes hlast
    rw [hcu] at hc4
    obtain ⟨cmd', operand', hissue, hd'⟩ := asIssued_command cmd operand i hd
    have hrun := stepRunsTheIssuedCommand u s4 cmd' operand' rest i h4 ha4 (by rw [hc4, hissue]; rfl) hd'
    have hleft (p : Nat) : waitLeft p s = s.rxTimer + p * 8 := by rw [waitLeft, hb]
    rw [hleft] at hleast hmost
    refine ⟨n + 1, u, s4, by omega, ?_, fun m hm => ?_, hu, h4, hready, hc4, hrun⟩
    · unfold holdBound
      omega
    · obtain ⟨v, hv, hoff⟩ := hduring m hm
      exact ⟨v, hv, hoff.rxActive, hoff.txActive, hoff.link, hoff.cursor, hoff.dataAvail, hoff.results⟩

end Sys2Proof.Machine
end

section
/-! The trace (R38, R221): what a tick appends carries the numbers of the tick and of the block.

Until its end a tick changes neither of the two, so the entries of one phase after another all carry the same numbers
(`Logs`). -/

namespace Sys2Proof.Machine

variable {s t u : State} {b : Byte}

/-- Within one tick, the trace of `t` is that of `s` and entries that carry the numbers of this tick and block. -/
structure Logs (s t : State) : Prop where
  tick : t.env.tick = s.env.tick
  instId : t.env.instId = s.env.instId
  trace : ∃ l, t.trace = s.trace ++ l ∧ ∀ e, e ∈ l → e.tick = s.env.tick ∧ e.instId = s.env.instId

theorem Logs.trans (h : Logs s t) (h' : Logs t u) : Logs s u := by
  obtain ⟨l, hl, hlabel⟩ := h.trace
  obtain ⟨l', hl', hlabel'⟩ := h'.trace
  rw [h.tick, h.instId] at hlabel'
  refine ⟨h'.tick.trans h.tick, h'.instId.trans h.instId, l ++ l', by rw [hl', hl, List.append_assoc], fun e he => ?_⟩
  exact (List.mem_append.1 he).elim (hlabel e) (hlabel' e)

/-- An effect that emits no event. -/
theorem Logs.silent (ht : t.trace = s.trace) (htick : t.env.tick = s.env.tick) (hinst : t.env.instId = s.env.instId) :
    Logs s t :=
  ⟨htick, hinst, [], by rw [ht, List.append_nil], fun _ he => absurd he List.not_mem_nil⟩

theorem Logs.refl (s : State) : Logs s s := .silent rfl rfl rfl

/-- An effect that emits one event (R221). -/
theorem Logs.event {e : Event} (ht : t.trace = s.trace ++ [⟨s.env.tick, s.env.instId, e⟩])
    (htick : t.env.tick = s.env.tick) (hinst : t.env.instId = s.env.instId) : Logs s t := by
  refine ⟨htick, hinst, _, ht, fun x hx => ?_⟩
  obtain rfl := List.mem_singleton.1 hx
  exact ⟨rfl, rfl⟩

/-- Phases 1 to 3 emit nothing. -/
theorem lineSide_logs (s : State) : Logs s (edgeDetect (linePhase (drivePhase s))) := by
  obtain ⟨p, e, hline, htick, hinst, -⟩ := linePhase_cases (drivePhase s)
  refine .silent (by simp) ?_ ?_
  · rw [edgeDetect_env, hline, htick, drivePhase_env]
  · rw [edgeDetect_env, hline, hinst, drivePhase_env]

/-- A class of received byte emits at most one event (R178 to R183, R204). -/
theorem exec_classify_logs (hf : s.faulted = none) (hx : exec (classify b) s = .next t) : Logs s t := by
  refine rxComplete_keeps (Logs s) s t b hf (.refl s) ?stx ?fits ?full ?drop ?data ?overflow hx
  case stx => exact fun _ => .silent rfl rfl rfl
  case fits => exact fun _ _ => .event rfl rfl rfl
  case full => exact fun _ _ => .event rfl rfl rfl
  case drop => exact fun _ => .event rfl rfl rfl
  case data => exact fun _ _ _ => .silent rfl rfl rfl
  case overflow => exact fun _ _ _ => .event rfl rfl rfl

/-- Of a pending edge only a bail is an event (R172 to R174). -/
theorem waitOrActivate_logs (s : State) : Logs s (waitOrActivate s) := by
  obtain ⟨e, hdraw, htick, hinst, -⟩ := afterEdgeDraw_cases s
  have hdrawn : Logs s { afterEdgeDraw s with rxWaited := 0 } := by
    rw [hdraw]
    exact .silent rfl htick hinst
  rcases waitOrActivate_cases s with ⟨-, -, heq⟩ | ⟨-, -, heq⟩ | ⟨-, -, heq⟩ <;> rw [heq]
  · exact .silent rfl (by simp) (by simp)
  · exact hdrawn.trans (.event rfl rfl rfl)
  · exact hdrawn.trans (.silent rfl (by simp) (by simp))

/-- Phase 4, of a receive under way, at its completion, or with a pending edge. -/
theorem rxPhase_logs (h : rxPhase s = .next t) : Logs s t := by
  rcases rxPhase_cases s t h with ⟨-, rfl⟩ | ⟨-, -, -, rfl⟩ | ⟨-, -, -, -, rfl⟩ | ⟨hf, -, -, -, hx⟩ |
    ⟨-, -, -, -, rfl⟩ | ⟨-, -, -, rfl⟩
  · exact .refl _
  · exact .silent rfl rfl rfl
  · exact .silent rfl (by simp) (by simp)
  · have hreturn : Logs s (handlerReturn { s with rxTimer := 0 }) := .silent rfl rfl rfl
    exact hreturn.trans (exec_classify_logs hf hx)
  · exact waitOrActivate_logs s
  · exact .refl _

/-- Phase 5: of the commands only a rejected SEND emits an event (R131). -/
theorem consumerPhase_logs (h : consumerPhase s = .next t) : Logs s t := by
  refine consumer_keeps (Logs s) ?fault ?env ?init ?reject ?send ?result ?clear ?disable ?enable s t (.refl s) h
  case fault => exact fun _ _ _ p => { p with }
  case env => exact fun _ _ p htick hinst => p.trans (.silent rfl htick hinst)
  case init =>
    intro u v p _ _ _ hinit
    injection hinit with hinit
    subst hinit
    exact { p with }
  case reject => exact fun _ _ p => p.trans (.event rfl rfl rfl)
  case send =>
    exact fun u msg _ _ _ p => p.trans (.silent rfl (by simp [admitSend, markInput]) (by simp [admitSend, markInput]))
  case result => exact fun _ _ p => { p with }
  case clear => exact fun _ _ p => { p with }
  case disable => exact fun _ _ _ p => { p with }
  case enable => exact fun _ _ _ p => { p with }

/-- TX_STEP emits an event when the SEND completes (R134). -/
theorem txStep_logs (s : State) : Logs s (txStep s) := by
  rcases txStep_cases s with ⟨-, e⟩ | ⟨-, -, e⟩ | ⟨-, -, -, e⟩ | ⟨-, -, -, -, e⟩ | ⟨-, -, -, -, -, e⟩ |
    ⟨-, -, -, -, -, e⟩ <;> rw [e]
  case inr.inr.inr.inl => exact .event rfl rfl rfl
  all_goals exact .silent rfl (by simp) (by simp)

/-- The watchdog emits an event when it runs out (R157). -/
theorem watchdogPhase_logs (s : State) : Logs s (watchdogPhase s) := by
  rcases watchdogPhase_cases s with ⟨-, e⟩ | ⟨-, -, -, -, ⟨-, -, -, e⟩ | ⟨-, -, -, e⟩ | ⟨-, e⟩⟩ <;> rw [e]
  · exact .refl s
  · exact .event rfl rfl rfl
  · exact .silent rfl rfl rfl
  · exact .silent rfl rfl rfl

/-- Phase 6. -/
theorem txPhase_logs (wasActive : Bool) (s : State) : Logs s (txPhase wasActive s) := by
  rcases txPhase_cases wasActive s with ⟨-, e⟩ | ⟨-, -, -, e⟩ <;> rw [e]
  · exact .refl s
  · exact txStep_logs s

/-- Settles O48: the phases log one after the other, and the end of the tick emits nothing. -/
theorem traceOnlyGrows : Obligations.TraceOnlyGrows := by
  intro s t h
  obtain ⟨s4, s5, h4, h5, rfl⟩ := (step_eq_next s t).1 h
  have hconsumer := ((lineSide_logs s).trans (rxPhase_logs h4)).trans (consumerPhase_logs h5)
  exact ((hconsumer.trans (txPhase_logs s4.txActive s5)).trans (watchdogPhase_logs _)).trace

end Sys2Proof.Machine
end

section
/-! R272's sampling-window condition with the defaults, and the reset values (R46, R116, R250, R272). -/

namespace Sys2Proof.Machine

variable {p h latency n j k : Nat}

/-! ## The sampling window -/

/-- R272: with every bit `p` ticks long, bit `j` of a frame begins `j` bit-periods after its start edge. -/
theorem bitStart_replicate (hj : j ≤ n) : bitStart (List.replicate n p) j = j * p := by
  rw [bitStart, List.take_replicate, Nat.min_eq_left hj, List.sum_replicate, smul_eq_mul]

/-- R116, R272: with no stretch, sample `k` falls `k` bit-periods after the first, which falls one and a half after
the activation. -/
theorem sampleOffset_replicate_zero : sampleOffset p (List.replicate n 0) k = 3 * p / 2 + k * p := by
  rw [sampleOffset, List.take_replicate, List.sum_replicate, smul_zero, Nat.add_zero]

/-- R272's two conditions, with another frame's start edge at `e`. -/
theorem samplingWindow_some_iff (lengths d : List Nat) (e : Nat) :
    samplingWindow lengths p latency d (some e) = true ↔
      (∀ k < 8, bitStart lengths (k + 1) ≤ latency + sampleOffset p d k
        ∧ latency + sampleOffset p d k + 1 ≤ bitStart lengths (k + 2))
      ∧ latency + sampleOffset p d 8 + 1 ≤ e := by
  simp only [samplingWindow, Bool.and_eq_true, List.all_eq_true, List.mem_range, decide_eq_true_eq]

/-- With no latency sample `k` falls in the middle of its data bit, so a latency keeps it there exactly while it is
below `h`, half a bit-period (R272). -/
theorem sample_in_bit_iff (hk : k < 8) :
    (bitStart (List.replicate 10 (2 * h)) (k + 1) ≤ latency + sampleOffset (2 * h) (List.replicate 9 0) k
      ∧ latency + sampleOffset (2 * h) (List.replicate 9 0) k + 1 ≤ bitStart (List.replicate 10 (2 * h)) (k + 2))
      ↔ latency < h := by
  rw [bitStart_replicate (by omega), bitStart_replicate (by omega), sampleOffset_replicate_zero,
    Nat.add_mul k 1, Nat.add_mul k 2]
  omega

/-- With no latency the completion falls half a bit-period before the start edge of a frame that follows at once
(R272). -/
theorem completion_before_next_iff :
    latency + sampleOffset (2 * h) (List.replicate 9 0) 8 + 1 ≤ 10 * (2 * h) ↔ latency < h := by
  rw [sampleOffset_replicate_zero]
  omega

/-- Settles O41: every sample, and the completion before the next start edge, asks for the same bound. -/
theorem samplingWindowAtTheDefaults : Obligations.SamplingWindowAtTheDefaults := by
  intro p latency heven hp
  obtain ⟨h, rfl⟩ := Nat.dvd_of_mod_eq_zero heven
  have hbound : latency < h ↔ latency ≤ 2 * h / 2 - 1 := by omega
  rw [samplingWindow_some_iff, completion_before_next_iff, ← hbound]
  exact ⟨And.right, fun hlt => ⟨fun _ hk => (sample_in_bit_iff hk).2 hlt, hlt⟩⟩

/-! ## The reset values -/

/-- Settles O53: nothing runs after a hardware reset, and the other elements have their values outright (R46). -/
theorem resetValues : Obligations.ResetValues :=
  have quiet : Quiet State.reset := powerOn_quiet _ _
  ⟨rfl, quiet.noEdgeEnable, quiet.noEdge, quiet.noReceive, quiet.noSend, quiet.noFrames, rfl, rfl, rfl, rfl⟩

end Sys2Proof.Machine
end
